-- ==== Sys2Proof/Word.lean ====
section
/-! DEFINITION. The widths of CORE (00_scope.md R9, R10): names for the bit vectors the spec uses. Arithmetic on them is
BitVec's, which is modulo 2^n as R10 asks. -/

namespace Sys2Proof

/-- A `u32` of R9: a register value, an operand, an ALU result, an address or a data word (`XLEN` = `ADDR_BITS` = 32). -/
abbrev Word := BitVec 32

/-- A `u64` of R9: an instruction word `insn` (R101), or the information of a fault record (R254). -/
abbrev DWord := BitVec 64

/-- One byte of memory. -/
abbrev Byte := BitVec 8

/-- A register field of an instruction: 5 bits, which name every one of r0 to r31 (10_state.md R21). -/
abbrev RegIdx := BitVec 5

/-- A register file's contents: `NREGS` = 32 words, r0 first (10_state.md R21). -/
abbrev RegFile := Vector Word 32

end Sys2Proof
end

