-- ==== Sys2Proof/Syntax.lean ====
section
/-! DEFINITION. The instructions of CAP-REF32 (30_encoding.md R104, R110) and the decoded record the latches carry
(10_state.md R29). -/

namespace Sys2Proof

/-- The 14 instructions, one constructor per row of the opcode table, with the operands of R102's formats in the order of
the assembler (R111). -/
inductive Instr where
  /-- NOP, no operation (R201). -/
  | nop
  /-- ADD rd, rs, rt (R202). -/
  | add (rd rs rt : RegIdx)
  /-- SUB rd, rs, rt (R203). -/
  | sub (rd rs rt : RegIdx)
  /-- AND rd, rs, rt (R204). -/
  | and (rd rs rt : RegIdx)
  /-- SLL rd, rs, rt: rs is the value, rt the shift amount (R205). -/
  | sll (rd rs rt : RegIdx)
  /-- SLT rd, rs, rt, signed (R206). -/
  | slt (rd rs rt : RegIdx)
  /-- MUL rd, rs, rt, legal only with `HAS_MUL` (R207). -/
  | mul (rd rs rt : RegIdx)
  /-- ADDI rt, rs, imm (R208). -/
  | addi (rt rs : RegIdx) (imm : BitVec 16)
  /-- LW rt, imm(rs) (R220). -/
  | lw (rt rs : RegIdx) (imm : BitVec 16)
  /-- SW rt, imm(rs): rs is the base, rt the data (R221). -/
  | sw (rt rs : RegIdx) (imm : BitVec 16)
  /-- BEQ rs, rt, offset in instructions (R230). -/
  | beq (rs rt : RegIdx) (imm : BitVec 16)
  /-- BNE rs, rt, offset in instructions (R231). -/
  | bne (rs rt : RegIdx) (imm : BitVec 16)
  /-- J, offset in instructions (R232). -/
  | j (t26 : BitVec 26)
  /-- SYSCALL (R240). -/
  | syscall
deriving DecidableEq, Repr

/-- The `op` of a decoded record (R29): the 14 mnemonics and the two marker values. -/
inductive Op where
  | nop | add | sub | and | sll | slt | mul | addi | lw | sw | beq | bne | j | syscall
  /-- ILLEGAL: the word is none of the 14 instructions (R105, R106). -/
  | illegal
  /-- FETCHFAULT: the slot of a failed fetch (R144). -/
  | fetchFault
deriving DecidableEq, Repr

/-- The decoded record of R29 (the spec calls it `Instr` too). The decoder extracts every field, also those the
instruction does not use (R105), and `raw` keeps the 64-bit word. -/
structure Ins where
  op : Op
  rs : RegIdx
  rt : RegIdx
  rd : RegIdx
  imm16 : BitVec 16
  t26 : BitVec 26
  raw : DWord
deriving DecidableEq, Repr

/-- The four formats of R102. -/
inductive Format where
  | n | r | i | j
deriving DecidableEq, Repr

/-- Why a word is none of the 14 instructions (R106), or why there is no word to read. The first three and the last
make ILLEGAL; safe: the decoder refuses what the spec calls illegal. -/
inductive Reject where
  /-- A bit of `insn[31:8]` is set. -/
  | opcodeWordBits
  /-- The opcode byte is not in R104. -/
  | unlistedOpcode
  /-- MUL while `HAS_MUL` is false. -/
  | mulAbsent
  /-- Fewer than 8 bytes were given to the byte decoder (R100: every instruction has 8). -/
  | tooFewBytes
  /-- A bit is set in a field R102 marks 0 in the word's format. -/
  | operandWordBits
deriving DecidableEq, Repr

/-- The field of the destination register in R110's role table. -/
inductive DestField where
  | none | rd | rt
deriving DecidableEq, Repr

/-- One row of the operand-role table R110. -/
structure Roles where
  /-- rs is a source. -/
  srcRs : Bool
  /-- rt is a source. -/
  srcRt : Bool
  dest : DestField
  isLoad : Bool
  isStore : Bool
  usesImm : Bool
  usesDisp : Bool
  isBr : Bool
  /-- serialising (R175). -/
  ser : Bool
deriving DecidableEq, Repr

/-- A line of assembly (R111, R113), with a label given as the address it names. Immediates are integers, which must fit
their field (R112). -/
inductive AsmLine where
  | nop
  | add (rd rs rt : RegIdx)
  | sub (rd rs rt : RegIdx)
  | and (rd rs rt : RegIdx)
  | sll (rd rs rt : RegIdx)
  | slt (rd rs rt : RegIdx)
  | mul (rd rs rt : RegIdx)
  | addi (rt rs : RegIdx) (imm : Int)
  | lw (rt : RegIdx) (imm : Int) (rs : RegIdx)
  | sw (rt : RegIdx) (imm : Int) (rs : RegIdx)
  | beq (rs rt : RegIdx) (label : Word)
  | bne (rs rt : RegIdx) (label : Word)
  | j (label : Word)
  | syscall
  /-- `li rt, imm`, a pseudo-instruction (R113). -/
  | li (rt : RegIdx) (imm : Int)
  /-- `mov rd, rs`, a pseudo-instruction (R113). -/
  | mov (rd rs : RegIdx)
  /-- `b label`, a pseudo-instruction (R113). -/
  | b (label : Word)
  /-- `halt`, a pseudo-instruction (R113). -/
  | halt
deriving DecidableEq, Repr

end Sys2Proof
end

