-- ==== Sys2Proof/Config.lean ====
section
/-! DEFINITION. The configuration record of 00_scope.md R7 as plain data, its reference value, and the one constant with
no body: an external system-call handler (45_system.md R241). -/

namespace Sys2Proof

/-- `HAZARD_POLICY` (R7, R8). -/
inductive HazardPolicy where
  | forward | stall
deriving DecidableEq, Repr

/-- `BRANCH_STAGE` (R7, R8): the stage that resolves branches and jumps. -/
inductive BranchStage where
  | ex | id
deriving DecidableEq, Repr

/-- `BYTE_ORDER` (R7): only little-endian is accepted (R62, R261). -/
inductive ByteOrder where
  | little | big
deriving DecidableEq, Repr

/-- A run of existing backing-store bytes: `size` addresses from `lo` on. `MEM_VALID` (R67) is a list of these
(DESIGN CHOICE, notes/assumptions/3.md: every set of 32-bit addresses is such a list). -/
structure MemRange where
  lo : Nat
  size : Nat
deriving DecidableEq, Repr

/-- What a system-call handler answers (R241). `mem` lists the bytes it changes; the byte function mem' of R241 is the
handler's `mem` argument with the first entry for an address put over it (DESIGN CHOICE, notes/assumptions/9.md). -/
structure HandlerResult where
  regs : RegFile
  mem : List (Word × Byte)
  halt : Bool
deriving DecidableEq, Repr

/-- One answer of a scripted handler, for a SYSCALL at `pc`: registers to write, bytes to write, halt or not. -/
structure ScriptEntry where
  pc : Word
  regs : List (RegIdx × Word)
  mem : List (Word × Byte)
  halt : Bool
deriving DecidableEq, Repr

/-- `SYSCALL_HANDLER` (R7, R241), named by plain data (DESIGN CHOICE, notes/assumptions/8.md). -/
inductive Handler where
  /-- The reference halting handler of R245. -/
  | halting
  /-- A finite table of answers by the SYSCALL's address; it halts at an address the table lacks. -/
  | scripted (entries : List ScriptEntry)
  /-- Any handler whatever: the `id`-th external function, of which nothing is known. -/
  | external (id : Nat)
deriving DecidableEq, Repr

/-- The configuration record of R7, member by member. -/
structure Config where
  xlen : Nat
  nregs : Nat
  addrBits : Nat
  insnBytes : Nat
  lineBytes : Nat
  nsets : Nat
  nways : Nat
  hazardPolicy : HazardPolicy
  branchStage : BranchStage
  hasMul : Bool
  cacheEnabled : Bool
  hitLatency : Nat
  missLatency : Nat
  memValid : List MemRange
  entry : Word
  /-- The loader's values of r1 to r31; its slot 0 is not used. -/
  initRegs : RegFile
  /-- The register the loader treats as the stack pointer; CORE gives it no meaning (R7). -/
  spIndex : RegIdx
  handler : Handler
  maxInsns : Option Nat
  byteOrder : ByteOrder
deriving DecidableEq, Repr

/-- R7's reference values. The members R7 leaves OPEN take those of the test fixture (95_test_vectors.md section 0), and
the two latencies the fixture leaves open too take 1 and 10 (DESIGN CHOICE, notes/assumptions/2.md to 8.md). -/
def Config.reference : Config where
  xlen := 32
  nregs := 32
  addrBits := 32
  insnBytes := 8
  lineBytes := 16
  nsets := 16
  nways := 4
  hazardPolicy := .forward
  branchStage := .ex
  hasMul := true
  cacheEnabled := true
  hitLatency := 1
  missLatency := 10
  memValid := [⟨0, 0x10000⟩]
  entry := 0x1000#32
  initRegs := Vector.replicate 32 0#32
  spIndex := 0#5
  handler := .halting
  maxInsns := none
  byteOrder := .little

/-- The system-call function of R241 outside CORE, which R7 and I6 leave OPEN: a constant with no body, so that what is
proved holds for every one. Its arguments are an identifier, the 32 registers, ArchMem as a byte function and the
SYSCALL's address. -/
opaque Config.externalHandler : Nat → RegFile → (Word → Byte) → Word → RegFile × List (Word × Byte) × Bool

end Sys2Proof
end

