-- ==== Sys2Proof/WellFormed.lean ====
section
/-! DEFINITION. Which instructions a configuration has. The widths of the operands are those of their types (R29), so the
one check left is that MUL needs `HAS_MUL` (30_encoding.md R104, R106). -/

namespace Sys2Proof

/-- `i` is an instruction of a CORE with this `HAS_MUL` (R104). -/
def Instr.wellFormed (hasMul : Bool) : Instr → Bool
  | .nop => true
  | .add _ _ _ => true
  | .sub _ _ _ => true
  | .and _ _ _ => true
  | .sll _ _ _ => true
  | .slt _ _ _ => true
  | .mul _ _ _ => hasMul
  | .addi _ _ _ => true
  | .lw _ _ _ => true
  | .sw _ _ _ => true
  | .beq _ _ _ => true
  | .bne _ _ _ => true
  | .j _ => true
  | .syscall => true

end Sys2Proof
end

