-- ==== Sys2Proof/Decode.lean ====
section
/-! DEFINITION. The decoder of 30_encoding.md R105 (total on every 64-bit word, rejecting by name), the encoder written
from R102 and R104, the assembler of R112 and R113, and the byte order of an instruction in memory (R101). -/

namespace Sys2Proof

/-! ## Fields of an instruction word (R102, R105) -/

/-- The opcode word `w0 = insn[31:0]` (R101). -/
def opcodeWord (insn : DWord) : Word := insn.extractLsb' 0 32

/-- The operand word `w1 = insn[63:32]` (R101). -/
def operandWord (insn : DWord) : Word := insn.extractLsb' 32 32

/-- `opcode = insn[7:0]` (R102). -/
def opcodeField (insn : DWord) : Byte := insn.extractLsb' 0 8

/-- `rs = insn[57:53]` (R102). -/
def rsField (insn : DWord) : RegIdx := insn.extractLsb' 53 5

/-- `rt = insn[52:48]` (R102). -/
def rtField (insn : DWord) : RegIdx := insn.extractLsb' 48 5

/-- `rd = insn[47:43]` (R102). -/
def rdField (insn : DWord) : RegIdx := insn.extractLsb' 43 5

/-- `imm16 = insn[47:32]` (R102). -/
def imm16Field (insn : DWord) : BitVec 16 := insn.extractLsb' 32 16

/-- `t26 = insn[57:32]` (R102). -/
def t26Field (insn : DWord) : BitVec 26 := insn.extractLsb' 32 26

/-! ## The opcode map (R104) -/

/-- R104 read from left to right: the mnemonic of an opcode byte. -/
def opOfCode (c : Byte) : Option Op :=
  if c = 0x00#8 then some .nop
  else if c = 0x01#8 then some .add
  else if c = 0x02#8 then some .sub
  else if c = 0x03#8 then some .and
  else if c = 0x04#8 then some .sll
  else if c = 0x05#8 then some .slt
  else if c = 0x06#8 then some .mul
  else if c = 0x10#8 then some .addi
  else if c = 0x20#8 then some .lw
  else if c = 0x21#8 then some .sw
  else if c = 0x30#8 then some .beq
  else if c = 0x31#8 then some .bne
  else if c = 0x32#8 then some .j
  else if c = 0x40#8 then some .syscall
  else none

/-- R104 read from right to left: the opcode byte of a mnemonic. The two markers have none; they take 0xFF, which R104
does not list. -/
def codeOfOp : Op → Byte
  | .nop => 0x00#8
  | .add => 0x01#8
  | .sub => 0x02#8
  | .and => 0x03#8
  | .sll => 0x04#8
  | .slt => 0x05#8
  | .mul => 0x06#8
  | .addi => 0x10#8
  | .lw => 0x20#8
  | .sw => 0x21#8
  | .beq => 0x30#8
  | .bne => 0x31#8
  | .j => 0x32#8
  | .syscall => 0x40#8
  | .illegal => 0xFF#8
  | .fetchFault => 0xFF#8

/-- The format column of R104. The markers have no format; N is never consulted for them. -/
def formatOf : Op → Format
  | .nop | .syscall | .illegal | .fetchFault => .n
  | .add | .sub | .and | .sll | .slt | .mul => .r
  | .addi | .lw | .sw | .beq | .bne => .i
  | .j => .j

/-- The operand-word bits R102 marks 0 in a format are 0 in `w1`. -/
def operandBitsOk (f : Format) (w1 : Word) : Bool :=
  match f with
  | .n => w1 == 0#32
  | .r => w1.extractLsb' 26 6 == 0#6 && w1.extractLsb' 0 11 == 0#11
  | .i => w1.extractLsb' 26 6 == 0#6
  | .j => w1.extractLsb' 26 6 == 0#6

/-- The tests of R105 in their order: which instruction the word is, or why it is illegal (R106). -/
def classify (hasMul : Bool) (insn : DWord) : Except Reject Op :=
  if (opcodeWord insn).extractLsb' 8 24 ≠ 0#24 then .error .opcodeWordBits
  else
    match opOfCode (opcodeField insn) with
    | none => .error .unlistedOpcode
    | some op =>
      if op = .mul ∧ hasMul = false then .error .mulAbsent
      else if operandBitsOk (formatOf op) (operandWord insn) then .ok op
      else .error .operandWordBits

/-- `ILLEGAL(insn)` of R105: every field 0 but `raw`. -/
def illegalIns (insn : DWord) : Ins := ⟨.illegal, 0#5, 0#5, 0#5, 0#16, 0#26, insn⟩

/-- `{op = FETCHFAULT, raw = word, all other fields 0}` of 40_pipeline.md R144. -/
def fetchFaultIns (word : DWord) : Ins := ⟨.fetchFault, 0#5, 0#5, 0#5, 0#16, 0#26, word⟩

/-- The all-zero NOP, the instruction of a bubble (10_state.md R35). -/
def nopIns : Ins := ⟨.nop, 0#5, 0#5, 0#5, 0#16, 0#26, 0#64⟩

/-- R105's `base` with `op` set: every field extracted. -/
def insOfWord (op : Op) (insn : DWord) : Ins :=
  ⟨op, rsField insn, rtField insn, rdField insn, imm16Field insn, t26Field insn, insn⟩

/-- `Decode(insn)` of R105, the decoder the ID stage uses. -/
def decodeIns (hasMul : Bool) (insn : DWord) : Ins :=
  match classify hasMul insn with
  | .ok op => insOfWord op insn
  | .error _ => illegalIns insn

/-- The instruction a decoded record stands for; the markers stand for none. -/
def Ins.toInstr? (d : Ins) : Option Instr :=
  match d.op with
  | .nop => some .nop
  | .add => some (.add d.rd d.rs d.rt)
  | .sub => some (.sub d.rd d.rs d.rt)
  | .and => some (.and d.rd d.rs d.rt)
  | .sll => some (.sll d.rd d.rs d.rt)
  | .slt => some (.slt d.rd d.rs d.rt)
  | .mul => some (.mul d.rd d.rs d.rt)
  | .addi => some (.addi d.rt d.rs d.imm16)
  | .lw => some (.lw d.rt d.rs d.imm16)
  | .sw => some (.sw d.rt d.rs d.imm16)
  | .beq => some (.beq d.rs d.rt d.imm16)
  | .bne => some (.bne d.rs d.rt d.imm16)
  | .j => some (.j d.t26)
  | .syscall => some .syscall
  | .illegal => none
  | .fetchFault => none

/-- The instruction a 64-bit word is, if it is one of the 14 (R107). -/
def decode (hasMul : Bool) (insn : DWord) : Option Instr := (decodeIns hasMul insn).toInstr?

/-! ## The bytes of an instruction (R101) -/

/-- The 8 bytes of an instruction at p, p+1, …: the little-endian order of its 64-bit value (R101). -/
def bytesOfInsn (insn : DWord) : List Byte :=
  [insn.extractLsb' 0 8, insn.extractLsb' 8 8, insn.extractLsb' 16 8, insn.extractLsb' 24 8,
   insn.extractLsb' 32 8, insn.extractLsb' 40 8, insn.extractLsb' 48 8, insn.extractLsb' 56 8]

/-- Four bytes, the lowest address first, as a little-endian word (20_memory.md R61, R62). -/
def wordOfBytes (b0 b1 b2 b3 : Byte) : Word := b3 ++ b2 ++ b1 ++ b0

/-- `insn = BSReadWord(p+4) ∥ BSReadWord(p)`: the operand word above the opcode word (R101). -/
def insnOfWords (w1 w0 : Word) : DWord := w1 ++ w0

/-- The decoder over a list of bytes: the instruction at its head and the bytes after it, or the reason there is none.
Total on any bytes. -/
def decodeBytes (hasMul : Bool) : List Byte → Except Reject (Instr × List Byte)
  | b0 :: b1 :: b2 :: b3 :: b4 :: b5 :: b6 :: b7 :: rest =>
    let insn := insnOfWords (wordOfBytes b4 b5 b6 b7) (wordOfBytes b0 b1 b2 b3)
    match classify hasMul insn with
    | .error e => .error e
    | .ok op =>
      match (insOfWord op insn).toInstr? with
      | some i => .ok (i, rest)
      | none => .error .unlistedOpcode
  | _ => .error .tooFewBytes

/-- The instruction the decoder reads from a word of the opcode table: its `nbits` bits laid out as the 8 bytes the
hardware stores, every bit above them 0. `HAS_MUL` is at its reference value. -/
def decodeTableWord (nbits w : Nat) : Option Instr :=
  match decodeBytes Config.reference.hasMul (bytesOfInsn (BitVec.ofNat 64 (w % 2 ^ nbits))) with
  | .ok (i, _) => some i
  | .error _ => none

/-! ## The encoder (R102, R104) -/

/-- A format N word: only the opcode. -/
def encodeN (op : Op) : DWord := (0#56 ++ codeOfOp op : BitVec 64)

/-- A format R word: `0 ∥ rs ∥ rt ∥ rd ∥ 0 ∥ 0 ∥ opcode`. -/
def encodeR (op : Op) (rd rs rt : RegIdx) : DWord :=
  (0#6 ++ rs ++ rt ++ rd ++ 0#11 ++ 0#24 ++ codeOfOp op : BitVec 64)

/-- A format I word: `0 ∥ rs ∥ rt ∥ imm16 ∥ 0 ∥ opcode`. -/
def encodeI (op : Op) (rs rt : RegIdx) (imm : BitVec 16) : DWord :=
  (0#6 ++ rs ++ rt ++ imm ++ 0#24 ++ codeOfOp op : BitVec 64)

/-- A format J word: `0 ∥ t26 ∥ 0 ∥ opcode`. -/
def encodeJ (op : Op) (t26 : BitVec 26) : DWord := (0#6 ++ t26 ++ 0#24 ++ codeOfOp op : BitVec 64)

/-- The word of an instruction. -/
def encode : Instr → DWord
  | .nop => encodeN .nop
  | .add rd rs rt => encodeR .add rd rs rt
  | .sub rd rs rt => encodeR .sub rd rs rt
  | .and rd rs rt => encodeR .and rd rs rt
  | .sll rd rs rt => encodeR .sll rd rs rt
  | .slt rd rs rt => encodeR .slt rd rs rt
  | .mul rd rs rt => encodeR .mul rd rs rt
  | .addi rt rs imm => encodeI .addi rs rt imm
  | .lw rt rs imm => encodeI .lw rs rt imm
  | .sw rt rs imm => encodeI .sw rs rt imm
  | .beq rs rt imm => encodeI .beq rs rt imm
  | .bne rs rt imm => encodeI .bne rs rt imm
  | .j t26 => encodeJ .j t26
  | .syscall => encodeN .syscall

/-- The mnemonic of an instruction (R104). -/
def Instr.op : Instr → Op
  | .nop => .nop
  | .add _ _ _ => .add
  | .sub _ _ _ => .sub
  | .and _ _ _ => .and
  | .sll _ _ _ => .sll
  | .slt _ _ _ => .slt
  | .mul _ _ _ => .mul
  | .addi _ _ _ => .addi
  | .lw _ _ _ => .lw
  | .sw _ _ _ => .sw
  | .beq _ _ _ => .beq
  | .bne _ _ _ => .bne
  | .j _ => .j
  | .syscall => .syscall

/-! ## The assembler's fields (R111 to R113) -/

/-- An `imm` operand as a 16-bit field: it must lie in -32768 to 32767, or the line is rejected (R112). -/
def immField? (imm : Int) : Option (BitVec 16) :=
  if -32768 ≤ imm ∧ imm ≤ 32767 then some (BitVec.ofInt 16 imm) else none

/-- `(label - (p + 8)) / 8` as an n-bit signed field: the division must be exact and the quotient must fit (R112). The
difference of the two addresses is read modulo 2^32 as a signed number, as the target sum of R103 is. -/
def labelField? (n : Nat) (p label : Word) : Option (BitVec n) :=
  let d := (label - (p + 8#32)).toInt
  if d % 8 = 0 ∧ -(2 ^ (n - 1) : Int) ≤ d / 8 ∧ d / 8 < 2 ^ (n - 1) then some (BitVec.ofInt n (d / 8)) else none

/-- The instruction a line of assembly at address `p` stands for (R111 to R113); `none` where the assembler rejects it. -/
def assemble (p : Word) : AsmLine → Option Instr
  | .nop => some .nop
  | .add rd rs rt => some (.add rd rs rt)
  | .sub rd rs rt => some (.sub rd rs rt)
  | .and rd rs rt => some (.and rd rs rt)
  | .sll rd rs rt => some (.sll rd rs rt)
  | .slt rd rs rt => some (.slt rd rs rt)
  | .mul rd rs rt => some (.mul rd rs rt)
  | .addi rt rs imm => (immField? imm).map (.addi rt rs)
  | .lw rt imm rs => (immField? imm).map (.lw rt rs)
  | .sw rt imm rs => (immField? imm).map (.sw rt rs)
  | .beq rs rt label => (labelField? 16 p label).map (.beq rs rt)
  | .bne rs rt label => (labelField? 16 p label).map (.bne rs rt)
  | .j label => (labelField? 26 p label).map .j
  | .syscall => some .syscall
  | .li rt imm => (immField? imm).map (.addi rt 0#5)
  | .mov rd rs => some (.add rd rs 0#5)
  | .b label => (labelField? 16 p label).map (.beq 0#5 0#5)
  | .halt => some .syscall

end Sys2Proof
end

