-- ==== Sys2Proof/Machine/State.lean ====
section
/-! DEFINITION. The state record of 10_state.md R20, the reasons a step can stop, and the state after reset (R46). -/

namespace Sys2Proof.Machine

/-! ## Faults of the hardware and the status (R41, R250, R254) -/

/-- The five fault kinds of 60_exceptions.md R250. Taking one makes a next state with status `Faulted`; it is never a stop
of the model. -/
inductive FaultKind where
  /-- Code 1: a LW or SW address with `ea[1:0]` ≠ 0. -/
  | misalignedAccess
  /-- Code 2: an aligned LW or SW address outside `MEM_VALID`. -/
  | outOfRange
  /-- Code 3: the fetched word decodes to ILLEGAL. -/
  | illegalInstruction
  /-- Code 4: a fetch outside `MEM_VALID`. -/
  | fetchOutOfRange
  /-- Code 5: a fetch address with `[2:0]` ≠ 0. -/
  | fetchMisaligned
deriving DecidableEq, Repr

/-- The mark of a failed fetch in IF/ID (R30). -/
inductive FetchFault where
  | outOfRange
  | misaligned
deriving DecidableEq, Repr

/-- Why a run was halted (R41). -/
inductive HaltReason where
  | syscall
  | limit
deriving DecidableEq, Repr

/-- `status` (R41). The information of a fault is a `u64`: the raw word of an illegal instruction, or an address with
zeros above it (R254; notes/assumptions/16.md). -/
inductive Status where
  | running
  | halted (reason : HaltReason)
  | faulted (kind : FaultKind) (pc : Word) (info : DWord)
deriving DecidableEq, Repr

/-! ## The latches (R30 to R34) -/

/-- IF/ID (R30). -/
structure IfIdLatch where
  pc : Word
  word : DWord
  ffault : Option FetchFault
deriving DecidableEq, Repr

/-- ID/EX (R31). -/
structure IdExLatch where
  pc : Word
  ins : Ins
  dest : RegIdx
  a : Word
  b : Word
  imm : Word
  target : Word
  isLoad : Bool
  isStore : Bool
  isBranch : Bool
  fault : Option FaultKind
deriving DecidableEq, Repr

/-- EX/MEM (R32). -/
structure ExMemLatch where
  pc : Word
  ins : Ins
  dest : RegIdx
  res : Word
  b : Word
  isLoad : Bool
  isStore : Bool
  fault : Option FaultKind
deriving DecidableEq, Repr

/-- MEM/WB (R33); the trace-only WBC latch has the same fields (R34). -/
structure MemWbLatch where
  pc : Word
  ins : Ins
  dest : RegIdx
  val : Word
deriving DecidableEq, Repr

/-- A bubble in IF/ID: every field 0 or none (R35). -/
def IfIdLatch.bubble : IfIdLatch := ⟨0#32, 0#64, none⟩

/-- A bubble in ID/EX (R35). -/
def IdExLatch.bubble : IdExLatch := ⟨0#32, nopIns, 0#5, 0#32, 0#32, 0#32, 0#32, false, false, false, none⟩

/-- A bubble in EX/MEM (R35). -/
def ExMemLatch.bubble : ExMemLatch := ⟨0#32, nopIns, 0#5, 0#32, 0#32, false, false, none⟩

/-- A bubble in MEM/WB or WBC (R35). -/
def MemWbLatch.bubble : MemWbLatch := ⟨0#32, nopIns, 0#5, 0#32⟩

/-! ## The cache and the backing store (R37 to R40) -/

/-- A cache line (R37). It is valid exactly when it is in its set's list. -/
structure Line where
  tag : BitVec 24
  dirty : Bool
  data : Vector Byte 16
deriving DecidableEq, Repr

/-- The cache counters (R39): unbounded natural numbers. -/
structure Counters where
  accesses : Nat
  hits : Nat
  misses : Nat
  replacements : Nat
  writebacks : Nat
  latency : Nat
deriving DecidableEq, Repr

/-- The cache arrays and counters: 16 sets, each a list of lines with the most recently used first (R37, R39). -/
structure Cache where
  sets : Vector (List Line) 16
  ctr : Counters
deriving DecidableEq, Repr

/-- The contents of the backing store (R40) in canonical form: (address, byte) pairs with rising addresses and no entry
equal to what an unlisted address reads as (notes/assumptions/10.md). -/
abbrev Memory := List Host.Cell

/-- The cache and the backing store behind it (R71). -/
structure MemSys where
  cache : Cache
  bs : Memory
deriving DecidableEq, Repr

/-! ## The state (R20) -/

/-- The state record `S` of R20, and beside it the configuration record of 00_scope.md R7 in `cfg`, which no step changes
(notes/assumptions/1.md). -/
structure State where
  /-- R7's configuration record, constant for a run. -/
  cfg : Config
  /-- R41. -/
  status : Status
  /-- r0 to r31 (R21). -/
  regs : RegFile
  /-- The address of the instruction most recently fetched into IF/ID (R25). -/
  fpc : Word
  /-- The target a resolved taken branch or jump leaves for fetch (R26). -/
  pending : Option Word
  /-- The stall signal of the last cycle, for the trace only (R27). -/
  stallFlag : Bool
  /-- R30. -/
  ifid : IfIdLatch
  /-- R31. -/
  idex : IdExLatch
  /-- R32. -/
  exmem : ExMemLatch
  /-- R33. -/
  memwb : MemWbLatch
  /-- R34. -/
  wbc : MemWbLatch
  /-- The cache (R37, R39) and the backing store (R40). -/
  mem : MemSys
  /-- Committed instructions other than NOP (R42, R136). -/
  icount : Nat
  /-- Cycles run (R42, R156). -/
  cycle : Nat
deriving DecidableEq, Repr

/-! ## The stops of the model -/

/-- The check of 60_exceptions.md R261 that a configuration fails. Check (f) holds of every configuration, by the types of
`hazardPolicy` and `branchStage`. -/
inductive ConfigError where
  /-- (a): the byte order is not little-endian. -/
  | byteOrder
  /-- (b): a width or the instruction size is not the reference value. -/
  | widths
  /-- (c): the cache geometry is not the reference one. -/
  | cacheGeometry
  /-- (d): `MEM_VALID` is not uniform on 16-byte blocks. -/
  | memValidNotUniform
  /-- (e): `ENTRY[2:0]` ≠ 0. -/
  | entryMisaligned
deriving DecidableEq, Repr

/-- The reasons a step or a meaning stops with a fault of the model. -/
inductive Fault where
  /-- A cycle or an instruction is asked of a state whose run has ended. Raised by `step` and by every meaning. Safe: R131,
  R256 and R265 give CORE no further cycle in a terminal status, and I14 treats it as stuck. -/
  | runEnded (status : Status)
deriving DecidableEq, Repr

/-- The reasons a step or a meaning refuses. -/
inductive Refusal where
  /-- The instruction has no meaning yet. Raised by an arm of `exec` only; safe. No arm raises it now. -/
  | notModelled (mnemonic : String)
  /-- The state's configuration fails a check of R261. Raised by `step` and by every meaning. Safe: R261 lets no cycle run
  under such a configuration. -/
  | configuration (error : ConfigError)
deriving DecidableEq, Repr

/-! ## Reset (R46) -/

/-- R46's reset value of the cache: every set empty and every counter 0. -/
def Cache.empty : Cache := ⟨Vector.replicate 16 [], ⟨0, 0, 0, 0, 0, 0⟩⟩

/-- R46's table for a configuration and a backing-store image: `fpc` = `ENTRY` - 8, r0 = 0, r1 to r31 from `INIT_REGS`,
every latch a bubble, the cache empty, the counters 0. -/
def State.construct (cfg : Config) (image : Memory) : State where
  cfg := cfg
  status := .running
  regs := cfg.initRegs.set 0 0#32
  fpc := cfg.entry - 8#32
  pending := none
  stallFlag := false
  ifid := .bubble
  idex := .bubble
  exmem := .bubble
  memwb := .bubble
  wbc := .bubble
  mem := ⟨.empty, image⟩
  icount := 0
  cycle := 0

/-- The machine right after reset, before a loader has placed a program: R46 at the reference configuration with nothing
listed in the backing store. -/
def State.reset : State := State.construct Config.reference []

end Sys2Proof.Machine
end

