-- ==== Sys2Proof/Machine/Configuration.lean ====
section
/-! DEFINITION. `MEM_VALID` as a predicate (20_memory.md R67) and the start-up checks of 60_exceptions.md R261. -/

namespace Sys2Proof.Machine

/-- The address lies in one of the configuration's ranges. -/
def validNat (cfg : Config) (a : Nat) : Bool :=
  cfg.memValid.any fun r => decide (r.lo ≤ a) && decide (a < r.lo + r.size)

/-- `MEM_VALID(a)` (R67). -/
def memValid (cfg : Config) (a : Word) : Bool := validNat cfg a.toNat

/-- The 16 addresses from `b` on are all valid or all invalid. -/
def blockUniform (cfg : Config) (b : Nat) : Bool :=
  [1, 2, 3, 4, 5, 6, 7, 8, 9, 10, 11, 12, 13, 14, 15].all fun k => validNat cfg (b + k) == validNat cfg b

/-- The block that holds address `a` is uniform, or `a` is no 32-bit address. -/
def boundaryOk (cfg : Config) (a : Nat) : Bool := decide (2 ^ 32 ≤ a) || blockUniform cfg (a / 16 * 16)

/-- R68's uniformity on 16-byte blocks. Validity changes between two neighbours only where a range begins or has just
ended, so only the blocks that hold those addresses can break it. -/
def memValidUniform (cfg : Config) : Bool :=
  cfg.memValid.all fun r => boundaryOk cfg r.lo && boundaryOk cfg (r.lo + r.size)

/-- The first check of R261 that the configuration fails, in the order (a) to (e). -/
def configError? (cfg : Config) : Option ConfigError :=
  if cfg.byteOrder ≠ .little then some .byteOrder
  else if ¬(cfg.xlen = 32 ∧ cfg.nregs = 32 ∧ cfg.addrBits = 32 ∧ cfg.insnBytes = 8) then some .widths
  else if ¬(cfg.lineBytes = 16 ∧ cfg.nsets = 16 ∧ cfg.nways = 4) then some .cacheGeometry
  else if memValidUniform cfg = false then some .memValidNotUniform
  else if cfg.entry.extractLsb' 0 3 ≠ 0#3 then some .entryMisaligned
  else none

end Sys2Proof.Machine
end

