-- ==== Sys2Proof/Machine/Memory.lean ====
section
/-! DEFINITION. The backing store: one byte, its canonical form, and the four primitives of 20_memory.md R61. -/

namespace Sys2Proof.Machine

/-- What an unlisted byte of the backing store reads as (DESIGN CHOICE, notes/assumptions/10.md; R46 and I2 leave the bytes
the loader did not write open). -/
def unlistedByte : Byte := 0#8

/-- One byte of the backing store. -/
def memByte : Memory → Nat → Byte
  | [], _ => unlistedByte
  | (b, v) :: rest, a => if a = b then v else memByte rest a

/-- `bs` without a listing for address `a`. -/
def memErase (m : Memory) (a : Nat) : Memory := m.filter fun c => c.1 ≠ a

/-- The listing of `v` at `a`, put before the first larger address. -/
def memInsert (a : Nat) (v : Byte) : Memory → Memory
  | [] => [(a, v)]
  | c :: rest => if a < c.1 then (a, v) :: c :: rest else c :: memInsert a v rest

/-- Write one byte, keeping the canonical form: a byte that reads as an unlisted one is not listed. -/
def memSet (m : Memory) (a : Nat) (v : Byte) : Memory :=
  if v = unlistedByte then memErase m a else memInsert a v (memErase m a)

/-- The addresses of the list rise strictly and are 32-bit addresses, and no entry reads as an unlisted byte would. -/
def Memory.wf : Memory → Bool
  | [] => true
  | [c] => decide (c.1 < 2 ^ 32) && decide (c.2 ≠ unlistedByte)
  | c :: d :: rest => decide (c.1 < d.1) && decide (c.2 ≠ unlistedByte) && Memory.wf (d :: rest)

/-- Write a run of bytes from `a` upward. -/
def memWriteBytes (m : Memory) (a : Nat) : List Byte → Memory
  | [] => m
  | v :: vs => memWriteBytes (memSet m a v) (a + 1) vs

/-- The little-endian bytes of a word, lowest address first (R61, R62). -/
def bytesOfWord (v : Word) : List Byte :=
  [v.extractLsb' 0 8, v.extractLsb' 8 8, v.extractLsb' 16 8, v.extractLsb' 24 8]

/-- `BSReadWord(a)`, for a 4-aligned address (R61). -/
def bsReadWord (m : Memory) (a : Word) : Word :=
  wordOfBytes (memByte m a.toNat) (memByte m (a.toNat + 1)) (memByte m (a.toNat + 2)) (memByte m (a.toNat + 3))

/-- `BSWriteWord(a, v)`, for a 4-aligned address (R61). -/
def bsWriteWord (m : Memory) (a v : Word) : Memory := memWriteBytes m a.toNat (bytesOfWord v)

/-- `BSReadBlock(b)`: the 16 bytes from a line-aligned address on (R61). -/
def bsReadBlock (m : Memory) (b : Word) : Vector Byte 16 :=
  #v[memByte m b.toNat, memByte m (b.toNat + 1), memByte m (b.toNat + 2), memByte m (b.toNat + 3),
     memByte m (b.toNat + 4), memByte m (b.toNat + 5), memByte m (b.toNat + 6), memByte m (b.toNat + 7),
     memByte m (b.toNat + 8), memByte m (b.toNat + 9), memByte m (b.toNat + 10), memByte m (b.toNat + 11),
     memByte m (b.toNat + 12), memByte m (b.toNat + 13), memByte m (b.toNat + 14), memByte m (b.toNat + 15)]

/-- `BSWriteBlock(b, d)` (R61). -/
def bsWriteBlock (m : Memory) (b : Word) (d : Vector Byte 16) : Memory := memWriteBytes m b.toNat d.toList

/-- `insn = BSReadWord(p+4) ∥ BSReadWord(p)`: the instruction word at an 8-aligned address (30_encoding.md R101). -/
def bsReadInsn (m : Memory) (p : Word) : DWord := insnOfWords (bsReadWord m (p + 4#32)) (bsReadWord m p)

/-- An instruction word stored as R101 lays it out. -/
def bsWriteInsn (m : Memory) (p : Word) (insn : DWord) : Memory := memWriteBytes m p.toNat (bytesOfInsn insn)

/-- A list of (address, byte) pairs written in turn: how the loader places an image (70_reset_and_hazards.md R281). -/
def memOfImage (m : Memory) : List Host.Cell → Memory
  | [] => m
  | (a, v) :: rest => memOfImage (memSet m a v) rest

end Sys2Proof.Machine
end

