-- ==== Sys2Proof/Machine/Cache.lean ====
section
/-! DEFINITION. The cache subsystem (20_memory.md R71 to R86) and the memory a program observes (R89). -/

namespace Sys2Proof.Machine

/-! ## The address split (R73) -/

/-- `offset(a) = a[3:0]` (R73). -/
def offsetOf (a : Word) : BitVec 4 := a.extractLsb' 0 4

/-- `index(a) = a[7:4]` (R73). -/
def indexOf (a : Word) : BitVec 4 := a.extractLsb' 4 4

/-- `tag(a) = a[31:8]` (R73). -/
def tagOf (a : Word) : BitVec 24 := a.extractLsb' 8 24

/-- `block(tag, i) = tag ∥ i ∥ 0b0000` (R73). -/
def blockAddr (tag : BitVec 24) (i : BitVec 4) : Word := tag ++ i ++ 0#4

/-! ## Lines and sets -/

/-- Byte `o` of a line's data (R37). -/
def lineByte (d : Vector Byte 16) (o : BitVec 4) : Byte := d[o.toNat]'o.isLt

/-- Byte `o` of a line's data replaced. -/
def setLineByte (d : Vector Byte 16) (o : BitVec 4) (v : Byte) : Vector Byte 16 := d.set o.toNat v o.isLt

/-- The little-endian word of bytes `o` to `o+3` (R79). -/
def lineWord (d : Vector Byte 16) (o : BitVec 4) : Word :=
  wordOfBytes (lineByte d o) (lineByte d (o + 1#4)) (lineByte d (o + 2#4)) (lineByte d (o + 3#4))

/-- Bytes `o` to `o+3` replaced by the bytes of a word, least significant first (R80). -/
def setLineWord (d : Vector Byte 16) (o : BitVec 4) (v : Word) : Vector Byte 16 :=
  setLineByte (setLineByte (setLineByte (setLineByte d o (v.extractLsb' 0 8)) (o + 1#4) (v.extractLsb' 8 8))
    (o + 2#4) (v.extractLsb' 16 8)) (o + 3#4) (v.extractLsb' 24 8)

/-- Set `i` of the cache. -/
def getSet (sets : Vector (List Line) 16) (i : BitVec 4) : List Line := sets[i.toNat]'i.isLt

/-- Set `i` of the cache replaced. -/
def putSet (sets : Vector (List Line) 16) (i : BitVec 4) (ls : List Line) : Vector (List Line) 16 :=
  sets.set i.toNat ls i.isLt

/-- The line of a set with the given tag (R77). -/
def findLine (ls : List Line) (t : BitVec 24) : Option Line := ls.find? fun l => l.tag == t

/-- A set without its line of the given tag, the others in order. -/
def withoutLine (ls : List Line) (t : BitVec 24) : List Line := ls.eraseP fun l => l.tag == t

/-! ## ArchMem (R89) -/

/-- `ArchMem(S)(a)`: the byte a program observes at `a` (R89). -/
def archByte (m : MemSys) (a : Word) : Byte :=
  match findLine (getSet m.cache.sets (indexOf a)) (tagOf a) with
  | some l => lineByte l.data (offsetOf a)
  | none => memByte m.bs a.toNat

/-- The little-endian word of `ArchMem` at `a`. -/
def archWord (m : MemSys) (a : Word) : Word :=
  wordOfBytes (archByte m a) (archByte m (a + 1#32)) (archByte m (a + 2#32)) (archByte m (a + 3#32))

/-! ## The data access (R74 to R84, R86) -/

/-- The `kind` argument of `CacheAccess` (R86). -/
inductive AccessKind where
  | read | write
deriving DecidableEq, Repr

/-- What a data access answers: a word (0 for a write) and the memory system after it, or a fault kind (R72, R86). -/
inductive Access where
  | ok (v : Word) (m : MemSys)
  | fault (k : FaultKind)
deriving DecidableEq, Repr

/-- The input check of R74: misaligned first, then out of range. -/
def accessFault? (cfg : Config) (a : Word) : Option FaultKind :=
  if a.extractLsb' 0 2 ≠ 0#2 then some .misalignedAccess
  else if memValid cfg a = false then some .outOfRange
  else none

/-- R75: one more access. -/
def countAccess (c : Counters) : Counters := { c with accesses := c.accesses + 1 }

/-- R78: one more hit, and its latency. -/
def countHit (cfg : Config) (c : Counters) : Counters :=
  { c with hits := c.hits + 1, latency := c.latency + cfg.hitLatency }

/-- R81: one more miss, and its latency. -/
def countMiss (cfg : Config) (c : Counters) : Counters :=
  { c with misses := c.misses + 1, latency := c.latency + cfg.missLatency }

/-- A set with room for one more line, and the counters and backing store after making it (R82): a full set loses its last
line, which is written back first when it is dirty. -/
structure Room where
  lines : List Line
  ctr : Counters
  bs : Memory
deriving DecidableEq, Repr

/-- R82's eviction, for set `i` holding `ls`. -/
def makeRoom (i : BitVec 4) (ls : List Line) (c : Counters) (bs : Memory) : Room :=
  if ls.length = 4 then
    match ls.getLast? with
    | some v =>
      if v.dirty then
        ⟨ls.dropLast, { c with writebacks := c.writebacks + 1, replacements := c.replacements + 1 },
          bsWriteBlock bs (blockAddr v.tag i) v.data⟩
      else ⟨ls.dropLast, { c with replacements := c.replacements + 1 }, bs⟩
    | none => ⟨ls, c, bs⟩
  else ⟨ls, c, bs⟩

/-- The line that serves the access to `a`, the other lines of its set, and the counters and backing store: the matching
line on a hit (R78), a line filled from the backing store on a miss (R81 to R83). -/
structure Located where
  line : Line
  others : List Line
  ctr : Counters
  bs : Memory
deriving DecidableEq, Repr

/-- R77 to R83 for an access with the cache enabled. -/
def locate (cfg : Config) (a : Word) (m : MemSys) : Located :=
  let ls := getSet m.cache.sets (indexOf a)
  match findLine ls (tagOf a) with
  | some l => ⟨l, withoutLine ls (tagOf a), countHit cfg m.cache.ctr, m.bs⟩
  | none =>
    let r := makeRoom (indexOf a) ls (countMiss cfg m.cache.ctr) m.bs
    ⟨⟨tagOf a, false, bsReadBlock r.bs (blockAddr (tagOf a) (indexOf a))⟩, r.lines, r.ctr, r.bs⟩

/-- R79 and R80: the word read, and the line after the access. -/
def serve (kind : AccessKind) (a v : Word) (l : Line) : Word × Line :=
  match kind with
  | .read => (lineWord l.data (offsetOf a), l)
  | .write => (0#32, { l with data := setLineWord l.data (offsetOf a) v, dirty := true })

/-- The pass-through access of a disabled cache (R76). -/
def passThrough (kind : AccessKind) (a v : Word) (m : MemSys) : Word × MemSys :=
  match kind with
  | .read => (bsReadWord m.bs a, m)
  | .write => (0#32, { m with bs := bsWriteWord m.bs a v })

/-- The access through an enabled cache (R77 to R84): the serving line goes to the front of its set. -/
def throughCache (cfg : Config) (kind : AccessKind) (a v : Word) (m : MemSys) : Word × MemSys :=
  let p := locate cfg a m
  let q := serve kind a v p.line
  (q.1, ⟨⟨putSet m.cache.sets (indexOf a) (q.2 :: p.others), p.ctr⟩, p.bs⟩)

/-- `CacheAccess(kind, a, v)` (R86). -/
def cacheAccess (cfg : Config) (kind : AccessKind) (a v : Word) (m : MemSys) : Access :=
  match accessFault? cfg a with
  | some k => .fault k
  | none =>
    let m1 : MemSys := { m with cache := { m.cache with ctr := countAccess m.cache.ctr } }
    let r := if cfg.cacheEnabled then throughCache cfg kind a v m1 else passThrough kind a v m1
    .ok r.1 r.2

/-- `CacheRead(a)` (R72, R86). -/
def cacheRead (cfg : Config) (a : Word) (m : MemSys) : Access := cacheAccess cfg .read a 0#32 m

/-- `CacheWrite(a, v)` (R72, R86). -/
def cacheWrite (cfg : Config) (a v : Word) (m : MemSys) : Access := cacheAccess cfg .write a v m

/-! ## CacheFlush (R85) -/

/-- The 16 set indices in order. -/
def setIndices : List (BitVec 4) := [0#4, 1#4, 2#4, 3#4, 4#4, 5#4, 6#4, 7#4, 8#4, 9#4, 10#4, 11#4, 12#4, 13#4, 14#4, 15#4]

/-- Every dirty line of set `i` written to the backing store, in recency order. -/
def flushLines (i : BitVec 4) : List Line → Memory → Memory
  | [], bs => bs
  | l :: rest, bs => flushLines i rest (if l.dirty then bsWriteBlock bs (blockAddr l.tag i) l.data else bs)

/-- Every dirty line of the sets `is` written to the backing store. -/
def flushSets (sets : Vector (List Line) 16) : List (BitVec 4) → Memory → Memory
  | [], bs => bs
  | i :: is, bs => flushSets sets is (flushLines i (getSet sets i) bs)

/-- How many lines of the sets `is` are dirty. -/
def dirtyCount (sets : Vector (List Line) 16) : List (BitVec 4) → Nat
  | [] => 0
  | i :: is => ((getSet sets i).filter (·.dirty)).length + dirtyCount sets is

/-- `CacheFlush()` (R85): every dirty line written back and marked clean, none evicted, none reordered. -/
def cacheFlush (m : MemSys) : MemSys :=
  ⟨⟨m.cache.sets.map fun ls => ls.map fun l => { l with dirty := false },
    { m.cache.ctr with writebacks := m.cache.ctr.writebacks + dirtyCount m.cache.sets setIndices }⟩,
   flushSets m.cache.sets setIndices m.bs⟩

/-! ## The system-call handler's memory update (45_system.md R242) -/

/-- One changed byte of the handler: discarded at an invalid address; into the resident line, which becomes dirty; else
into the backing store (R242). -/
def handlerSetByte (cfg : Config) (m : MemSys) (a : Word) (v : Byte) : MemSys :=
  if memValid cfg a = false then m
  else
    let ls := getSet m.cache.sets (indexOf a)
    match findLine ls (tagOf a) with
    | some _ =>
      { m with cache := { m.cache with sets := putSet m.cache.sets (indexOf a) (ls.map fun l =>
          if l.tag == tagOf a then { l with data := setLineByte l.data (offsetOf a) v, dirty := true } else l) } }
    | none => { m with bs := memSet m.bs a.toNat v }

/-- The handler's byte function mem' of R241, given by the bytes it lists over the memory it was shown. -/
def handlerByte (writes : List (Word × Byte)) (old : Word → Byte) (a : Word) : Byte :=
  match writes.find? fun w => w.1 == a with
  | some w => w.2
  | none => old a

/-- R242 over the listed addresses: a byte is applied only where mem' differs from `ArchMem(S)`. -/
def applyHandlerBytes (cfg : Config) (target old : Word → Byte) : List Word → MemSys → MemSys
  | [], m => m
  | a :: rest, m =>
    applyHandlerBytes cfg target old rest (if target a = old a then m else handlerSetByte cfg m a (target a))

/-- The handler's whole memory update (R242). -/
def applyHandlerMem (cfg : Config) (writes : List (Word × Byte)) (m : MemSys) : MemSys :=
  applyHandlerBytes cfg (handlerByte writes (archByte m)) (archByte m) (writes.map (·.1)) m

end Sys2Proof.Machine
end

