-- ==== Sys2Proof/Machine/Ops.lean ====
section
/-! DEFINITION. The shared operations over the state: the register file, the next instruction's address, taking a fault,
calling the system-call handler, and committing an instruction. -/

namespace Sys2Proof.Machine

/-! ## Registers (10_state.md R21, R22) -/

/-- A read of register `r`: r0 reads 0 (R22). -/
def readReg (regs : RegFile) (r : RegIdx) : Word := if r = 0#5 then 0#32 else regs[r.toNat]'r.isLt

/-- A write of register `r`: a write to r0 is discarded (R22). -/
def writeReg (regs : RegFile) (r : RegIdx) (v : Word) : RegFile := if r = 0#5 then regs else regs.set r.toNat v r.isLt

/-- A register of the state (R11's `x[i]`). -/
def State.reg (s : State) (r : RegIdx) : Word := readReg s.regs r

/-- A register of the state written (R11's `x[i] <- v`). -/
def State.setReg (s : State) (r : RegIdx) (v : Word) : State := { s with regs := writeReg s.regs r v }

/-! ## Fields and immediates (00_scope.md R10, 30_encoding.md R103) -/

/-- `sext_16` (R10). -/
def sext16 (v : BitVec 16) : Word := v.signExtend 32

/-- `sext_26` (R10). -/
def sext26 (v : BitVec 26) : Word := v.signExtend 32

/-- `pc + 8 + (sext_16(imm16) << 3)` (R103). -/
def branchTarget (pc : Word) (imm : BitVec 16) : Word := pc + 8#32 + (sext16 imm <<< 3)

/-- `pc + 8 + (sext_26(t26) << 3)` (R103). -/
def jumpTarget (pc : Word) (t26 : BitVec 26) : Word := pc + 8#32 + (sext26 t26 <<< 3)

/-! ## The next instruction's address (R25, R26, R148) -/

/-- The address fetch goes to when nothing holds it: the pending target, else `fpc + 8` modulo 2^32 (R148). With nothing
in flight it is the address of the next instruction to commit, the third part of R45's architectural state. -/
def State.nextPc (s : State) : Word := s.pending.getD (s.fpc + 8#32)

/-! ## Which states run (R131, R261) -/

/-- The stop of a state that takes no further cycle: an unsupported configuration is refused (R261), an ended run is stuck
(R131, R265). -/
def whenReady (s : State) (k : Host.Outcome State Fault Refusal) : Host.Outcome State Fault Refusal :=
  match configError? s.cfg with
  | some e => .refused (.configuration e)
  | none => if s.status = .running then k else .fault (.runEnded s.status)

/-! ## Faults (60_exceptions.md R250 to R256) -/

/-- The numeric code of a fault kind (R250). -/
def FaultKind.code : FaultKind → Nat
  | .misalignedAccess => 1
  | .outOfRange => 2
  | .illegalInstruction => 3
  | .fetchOutOfRange => 4
  | .fetchMisaligned => 5

/-- The fault kind a failed fetch marks its slot with (R144, R250). -/
def FetchFault.kind : FetchFault → FaultKind
  | .outOfRange => .fetchOutOfRange
  | .misaligned => .fetchMisaligned

/-- The fault code a status shows the driver; 0 means no fault (R250). -/
def Status.code : Status → Nat
  | .faulted k _ _ => k.code
  | _ => 0

/-- Taking a fault: the status becomes `Faulted(kind, pc, info)` and nothing else changes (R253, R254, R256). CORE saves
no pc, enters no handler and has no return from a fault (R256), so no operation stands beside this one. -/
def takeFault (kind : FaultKind) (pc : Word) (info : DWord) (s : State) : State :=
  { s with status := .faulted kind pc info }

/-- `MarkerInfo(m)` (R254): the raw word of an illegal instruction, else the slot's address. -/
def markerInfo (kind : FaultKind) (pc : Word) (raw : DWord) : DWord :=
  match kind with
  | .illegalInstruction => raw
  | _ => pc.setWidth 64

/-! ## The system-call handler (45_system.md R241 to R245) -/

/-- Registers written in turn: the scripted handler's register answer. -/
def writeRegs (regs : RegFile) : List (RegIdx × Word) → RegFile
  | [] => regs
  | (r, v) :: rest => writeRegs (writeReg regs r v) rest

/-- `SYSCALL_HANDLER(regs, mem, pc)` for the configuration's handler (R241). -/
def handlerAnswer (h : Handler) (regs : RegFile) (mem : Word → Byte) (pc : Word) : HandlerResult :=
  match h with
  | .halting => ⟨regs, [], true⟩
  | .scripted es =>
    match es.find? fun e => e.pc == pc with
    | some e => ⟨writeRegs regs e.regs, e.mem, e.halt⟩
    | none => ⟨regs, [], true⟩
  | .external n =>
    let r := Config.externalHandler n regs mem pc
    ⟨r.1, r.2.1, r.2.2⟩

/-- What a SYSCALL leaves: the registers, the memory system and the handler's halt answer. -/
structure SyscallEffect where
  regs : RegFile
  mem : MemSys
  halt : Bool
deriving DecidableEq, Repr

/-- R240's effect: the handler is shown the registers with r0 = 0 and `ArchMem`; its registers replace the file but for
r0 (R243) and its bytes are applied by R242. -/
def callHandler (cfg : Config) (regs : RegFile) (m : MemSys) (pc : Word) : SyscallEffect :=
  let r := handlerAnswer cfg.handler (regs.set 0 0#32) (archByte m) pc
  ⟨r.regs.set 0 0#32, applyHandlerMem cfg r.mem m, r.halt⟩

/-! ## Committing (40_pipeline.md R136, R153) -/

/-- `haltNow` and its reason (R153): the handler's answer first, then the instruction limit. -/
def haltReason? (cfg : Config) (haltReq : Bool) (icount : Nat) : Option HaltReason :=
  if haltReq then some .syscall
  else
    match cfg.maxInsns with
    | some n => if n ≤ icount then some .limit else none
    | none => none

/-- R136's count: a NOP does not count. -/
def nextCount (op : Op) (icount : Nat) : Nat := if op = .nop then icount else icount + 1

/-- The status a halt request leaves (R153). -/
def haltedStatus (r : Option HaltReason) (st : Status) : Status :=
  match r with
  | some r => .halted r
  | none => st

/-- The end of an instruction executed alone (00_scope.md R12): it is the instruction most recently fetched, the target of
a taken transfer waits for fetch, and the instruction counts and may end the run (R136, R153). -/
def retire (op : Op) (target : Option Word) (haltReq : Bool) (s : State) : State :=
  { s with
    fpc := s.nextPc
    pending := target
    icount := nextCount op s.icount
    status := haltedStatus (haltReason? s.cfg haltReq (nextCount op s.icount)) s.status }

end Sys2Proof.Machine
end

