-- ==== Sys2Proof/Machine/Flags.lean ====
section
/-! DEFINITION. CORE has no status flags, condition codes or predicate registers (10_state.md R43), so there is no flag
computation. What takes a flag's place is the condition of a branch, on its two operands (44_control.md R233), and the
result of SLT in a general register (42_alu.md R206). -/

namespace Sys2Proof.Machine

/-- `Taken(op, a, b)` (R233). -/
def taken (op : Op) (a b : Word) : Bool :=
  match op with
  | .beq => a == b
  | .bne => a != b
  | .j => true
  | _ => false

/-- The word of a comparison: 1 if it holds, else 0 (R206). -/
def boolWord (c : Bool) : Word := if c then 1#32 else 0#32

end Sys2Proof.Machine
end

