-- ==== Sys2Proof/Machine/Alu.lean ====
section
/-! DEFINITION. The ALU function (42_alu.md R200) and the meanings of NOP, ADD, SUB, AND, SLL, SLT, MUL and ADDI
(R201 to R208), each executed alone in program order (00_scope.md R12). -/

namespace Sys2Proof.Machine

/-- `ALU(op, a, b, imm)` (R200). -/
def alu (op : Op) (a b imm : Word) : Word :=
  match op with
  | .add => a + b
  | .sub => a - b
  | .and => a &&& b
  | .sll => a <<< (b.extractLsb' 0 5).toNat
  | .slt => boolWord (BitVec.slt a b)
  | .mul => a * b
  | .addi | .lw | .sw => a + imm
  | .nop | .beq | .bne | .j | .syscall | .illegal | .fetchFault => 0#32

/-- A register-register ALU instruction (R202): `x[rd] <- ALU(op, x[rs], x[rt])`, then the next instruction. -/
def execRegReg (op : Op) (rd rs rt : RegIdx) (s : State) : Host.Outcome State Fault Refusal :=
  whenReady s (.next (retire op none false (s.setReg rd (alu op (s.reg rs) (s.reg rt) 0#32))))

/-- NOP (R201). -/
def execNop (s : State) : Host.Outcome State Fault Refusal := whenReady s (.next (retire .nop none false s))

/-- ADD (R202). -/
def execAdd (rd rs rt : RegIdx) (s : State) : Host.Outcome State Fault Refusal := execRegReg .add rd rs rt s

/-- SUB (R203). -/
def execSub (rd rs rt : RegIdx) (s : State) : Host.Outcome State Fault Refusal := execRegReg .sub rd rs rt s

/-- AND (R204). -/
def execAnd (rd rs rt : RegIdx) (s : State) : Host.Outcome State Fault Refusal := execRegReg .and rd rs rt s

/-- SLL (R205). -/
def execSll (rd rs rt : RegIdx) (s : State) : Host.Outcome State Fault Refusal := execRegReg .sll rd rs rt s

/-- SLT (R206). -/
def execSlt (rd rs rt : RegIdx) (s : State) : Host.Outcome State Fault Refusal := execRegReg .slt rd rs rt s

/-- MUL (R207). Without `HAS_MUL` its word is illegal (30_encoding.md R106) and the instruction takes
IllegalInstruction. -/
def execMul (rd rs rt : RegIdx) (s : State) : Host.Outcome State Fault Refusal :=
  if s.cfg.hasMul then execRegReg .mul rd rs rt s
  else whenReady s (.next (takeFault .illegalInstruction s.nextPc
    (markerInfo .illegalInstruction s.nextPc (encode (.mul rd rs rt))) s))

/-- ADDI (R208). -/
def execAddi (rt rs : RegIdx) (imm : BitVec 16) (s : State) : Host.Outcome State Fault Refusal :=
  whenReady s (.next (retire .addi none false (s.setReg rt (alu .addi (s.reg rs) 0#32 (sext16 imm)))))

end Sys2Proof.Machine
end

