-- ==== Sys2Proof/Machine/LoadStore.lean ====
section
/-! DEFINITION. The meanings of LW and SW (43_loadstore.md R220, R221), each executed alone in program order. -/

namespace Sys2Proof.Machine

/-- `ea := x[rs] + sext_16(imm16)` (R220, R221). -/
def effectiveAddress (op : Op) (s : State) (rs : RegIdx) (imm : BitVec 16) : Word :=
  alu op (s.reg rs) 0#32 (sext16 imm)

/-- LW (R220): the word read through the cache goes to rt; a faulting access is taken and changes nothing else. -/
def execLw (rt rs : RegIdx) (imm : BitVec 16) (s : State) : Host.Outcome State Fault Refusal :=
  let ea := effectiveAddress .lw s rs imm
  whenReady s (.next (match cacheRead s.cfg ea s.mem with
    | .fault k => takeFault k s.nextPc (ea.setWidth 64) s
    | .ok v m => retire .lw none false (State.setReg { s with mem := m } rt v)))

/-- SW (R221): the word of rt is written through the cache; a faulting access is taken and writes nothing. -/
def execSw (rt rs : RegIdx) (imm : BitVec 16) (s : State) : Host.Outcome State Fault Refusal :=
  let ea := effectiveAddress .sw s rs imm
  whenReady s (.next (match cacheWrite s.cfg ea (s.reg rt) s.mem with
    | .fault k => takeFault k s.nextPc (ea.setWidth 64) s
    | .ok _ m => retire .sw none false { s with mem := m }))

end Sys2Proof.Machine
end

