-- ==== Sys2Proof/Machine/Control.lean ====
section
/-! DEFINITION. The meanings of BEQ, BNE and J (44_control.md R230 to R232), each executed alone in program order. -/

namespace Sys2Proof.Machine

/-- A control transfer to `target`, taken as R233 says: `pc <- target`, or on to the next instruction. -/
def execTransfer (op : Op) (a b target : Word) (s : State) : Host.Outcome State Fault Refusal :=
  whenReady s (.next (retire op (if taken op a b then some target else none) false s))

/-- BEQ (R230). -/
def execBeq (rs rt : RegIdx) (imm : BitVec 16) (s : State) : Host.Outcome State Fault Refusal :=
  execTransfer .beq (s.reg rs) (s.reg rt) (branchTarget s.nextPc imm) s

/-- BNE (R231). -/
def execBne (rs rt : RegIdx) (imm : BitVec 16) (s : State) : Host.Outcome State Fault Refusal :=
  execTransfer .bne (s.reg rs) (s.reg rt) (branchTarget s.nextPc imm) s

/-- J (R232). -/
def execJ (t26 : BitVec 26) (s : State) : Host.Outcome State Fault Refusal :=
  execTransfer .j 0#32 0#32 (jumpTarget s.nextPc t26) s

end Sys2Proof.Machine
end

