-- ==== Sys2Proof/Machine/System.lean ====
section
/-! DEFINITION. The meaning of SYSCALL (45_system.md R240), executed alone in program order. -/

namespace Sys2Proof.Machine

/-- SYSCALL (R240): the handler's registers and bytes are taken over, and the run ends if it answers halt. -/
def execSyscall (s : State) : Host.Outcome State Fault Refusal :=
  let r := callHandler s.cfg s.regs s.mem s.nextPc
  whenReady s (.next (retire .syscall none r.halt { s with regs := r.regs, mem := r.mem }))

end Sys2Proof.Machine
end

