-- ==== Sys2Proof/Machine/Operands.lean ====
section
/-! DEFINITION. Operand roles (30_encoding.md R110), branch targets (40_pipeline.md R145), the in-flight set, the stall
decision and the forwarding multiplexer (41_hazard_forwarding.md R170 to R179). -/

namespace Sys2Proof.Machine

/-! ## Roles (R110) -/

/-- R110's operand-role table. -/
def roles : Op → Roles
  | .nop => ⟨false, false, .none, false, false, false, false, false, false⟩
  | .add => ⟨true, true, .rd, false, false, false, false, false, false⟩
  | .sub => ⟨true, true, .rd, false, false, false, false, false, false⟩
  | .and => ⟨true, true, .rd, false, false, false, false, false, false⟩
  | .sll => ⟨true, true, .rd, false, false, false, false, false, false⟩
  | .slt => ⟨true, true, .rd, false, false, false, false, false, false⟩
  | .mul => ⟨true, true, .rd, false, false, false, false, false, false⟩
  | .addi => ⟨true, false, .rt, false, false, true, false, false, false⟩
  | .lw => ⟨true, false, .rt, true, false, false, true, false, false⟩
  | .sw => ⟨true, true, .none, false, true, false, true, false, false⟩
  | .beq => ⟨true, true, .none, false, false, false, false, true, false⟩
  | .bne => ⟨true, true, .none, false, false, false, false, true, false⟩
  | .j => ⟨false, false, .none, false, false, false, false, true, false⟩
  | .syscall => ⟨false, false, .none, false, false, false, false, false, true⟩
  | .illegal => ⟨false, false, .none, false, false, false, false, false, false⟩
  | .fetchFault => ⟨false, false, .none, false, false, false, false, false, false⟩

/-- `Dest(d)`: the destination register, or 0 when there is none (R109, R144, R170). -/
def destOf (d : Ins) : RegIdx :=
  match (roles d.op).dest with
  | .none => 0#5
  | .rd => d.rd
  | .rt => d.rt

/-- `Srcs(d)` as a list (R170). -/
def srcsOf (d : Ins) : List RegIdx :=
  (if (roles d.op).srcRs then [d.rs] else []) ++ (if (roles d.op).srcRt then [d.rt] else [])

/-- `Target(d, pc)` (R145). -/
def targetOf (d : Ins) (pc : Word) : Word :=
  match d.op with
  | .beq | .bne => branchTarget pc d.imm16
  | .j => jumpTarget pc d.t26
  | _ => 0#32

/-! ## Hazards (R171 to R176) -/

/-- `InFlight(S)` (R171, R28): the destinations of the instructions that have left decode and not committed. -/
def inFlight (s : State) : List RegIdx := [s.idex.dest, s.exmem.dest, s.memwb.dest].filter fun r => r ≠ 0#5

/-- The data-hazard stall of `d` in ID: R173 under FORWARD, R174 under STALL. -/
def dataStall (s : State) (d : Ins) : Bool :=
  match s.cfg.hazardPolicy with
  | .forward => (srcsOf d).any fun r => r != 0#5 && (r == s.idex.dest && s.idex.isLoad)
  | .stall => (srcsOf d).any fun r => r != 0#5 && (r == s.idex.dest || r == s.exmem.dest)

/-- The serialisation stall (R175): a SYSCALL is in ID/EX or EX/MEM. -/
def serStall (s : State) : Bool := s.idex.ins.op == .syscall || s.exmem.ins.op == .syscall

/-- `Stall(d, S)` (R176). -/
def stallOf (s : State) (d : Ins) : Bool := d.op != .nop && (dataStall s d || serStall s)

/-! ## Forwarding (R177 to R179) -/

/-- `Val(s)` (R177, R178): under FORWARD the result of EX, else the value of MEM, else the register file after this
cycle's WB; under STALL the register file alone. The arguments are the same-cycle signals `regs1`, `exFwd` and `memFwd`
(R132). -/
def operandValue (p : HazardPolicy) (regs1 : RegFile) (exDest : RegIdx) (exRes : Word) (memDest : RegIdx) (memVal : Word)
    (r : RegIdx) : Word :=
  match p with
  | .forward => if r = 0#5 then 0#32 else if r = exDest then exRes else if r = memDest then memVal else readReg regs1 r
  | .stall => readReg regs1 r

/-- The `a` bus (R179). -/
def operandA (val : RegIdx → Word) (d : Ins) : Word := if (roles d.op).srcRs then val d.rs else 0#32

/-- The `b` bus (R179). -/
def operandB (val : RegIdx → Word) (d : Ins) : Word := if (roles d.op).srcRt then val d.rt else 0#32

end Sys2Proof.Machine
end

