-- ==== Sys2Proof/Machine/Pipeline.lean ====
section
/-! DEFINITION. The cycle function `Next` of 40_pipeline.md: the seven parts of R131 in their order, joined only by the
same-cycle paths of R132. -/

namespace Sys2Proof.Machine

/-! ## WB (R134 to R137) -/

/-- What WB hands to the rest of the cycle (R132(a), (f), R153). -/
structure WbOut where
  regs : RegFile
  mem : MemSys
  haltReq : Bool
  icount : Nat
deriving DecidableEq, Repr

/-- `regs1` before the handler (R134). -/
def wbRegs (s : State) : RegFile :=
  if s.memwb.ins.op = .nop then s.regs else writeReg s.regs s.memwb.dest s.memwb.val

/-- The WB part (R134 to R136). -/
def wbStage (s : State) : WbOut :=
  if s.memwb.ins.op = .syscall then
    let r := callHandler s.cfg (wbRegs s) s.mem s.memwb.pc
    ⟨r.regs, r.mem, r.halt, nextCount s.memwb.ins.op s.icount⟩
  else ⟨wbRegs s, s.mem, false, nextCount s.memwb.ins.op s.icount⟩

/-! ## MEM (R138 to R140) -/

/-- A fault taken at the fault point (R139, R252): its kind, the instruction's address and the information. -/
structure FaultRecord where
  kind : FaultKind
  pc : Word
  info : DWord
deriving DecidableEq, Repr

/-- What MEM hands on: the next MEM/WB latch, the memory system after the access, and a fault. `memFwd` (R140) is
EX/MEM's `dest` with this latch's `val`. -/
structure MemOut where
  memwb : MemWbLatch
  mem : MemSys
  fault : Option FaultRecord
deriving DecidableEq, Repr

/-- The MEM part (R139), on the memory system as WB left it. -/
def memStage (cfg : Config) (m : ExMemLatch) (mem : MemSys) : MemOut :=
  if m.ins.op = .nop then ⟨.bubble, mem, none⟩
  else
    match m.fault with
    | some k => ⟨⟨m.pc, m.ins, m.dest, 0#32⟩, mem, some ⟨k, m.pc, markerInfo k m.pc m.ins.raw⟩⟩
    | none =>
      if m.isLoad then
        match cacheRead cfg m.res mem with
        | .fault k => ⟨⟨m.pc, m.ins, m.dest, 0#32⟩, mem, some ⟨k, m.pc, m.res.setWidth 64⟩⟩
        | .ok v mem' => ⟨⟨m.pc, m.ins, m.dest, v⟩, mem', none⟩
      else if m.isStore then
        match cacheWrite cfg m.res m.b mem with
        | .fault k => ⟨⟨m.pc, m.ins, m.dest, 0#32⟩, mem, some ⟨k, m.pc, m.res.setWidth 64⟩⟩
        | .ok _ mem' => ⟨⟨m.pc, m.ins, m.dest, 0#32⟩, mem', none⟩
      else ⟨⟨m.pc, m.ins, m.dest, m.res⟩, mem, none⟩

/-! ## EX (R141 to R143) -/

/-- The EX part (R141). `exFwd` (R143) is ID/EX's `dest` with this latch's `res`. -/
def exStage (x : IdExLatch) : ExMemLatch :=
  if x.ins.op = .nop then .bubble
  else ⟨x.pc, x.ins, x.dest, alu x.ins.op x.a x.b x.imm, x.b, x.isLoad, x.isStore, x.fault⟩

/-- `exTaken` (R142). -/
def exTaken (cfg : Config) (x : IdExLatch) : Bool :=
  match cfg.branchStage with
  | .ex => taken x.ins.op x.a x.b
  | .id => false

/-! ## ID (R144 to R147) -/

/-- `d` of R144: the decoded instruction of the IF/ID latch. -/
def idIns (cfg : Config) (f : IfIdLatch) : Ins :=
  match f.ffault with
  | some _ => fetchFaultIns f.word
  | none => decodeIns cfg.hasMul f.word

/-- `mk` of R144: the marker of the slot. -/
def idMarker (cfg : Config) (f : IfIdLatch) : Option FaultKind :=
  match f.ffault with
  | some k => some k.kind
  | none => if (decodeIns cfg.hasMul f.word).op = .illegal then some .illegalInstruction else none

/-- What ID hands on: the next ID/EX latch before a squash, the stall signal (R132(d)) and its branch resolution
(R146). -/
structure IdOut where
  idex : IdExLatch
  stall : Bool
  taken : Bool
  target : Word
deriving DecidableEq, Repr

/-- The ID/EX latch of an instruction that leaves decode (R144). -/
def issueLatch (d : Ins) (pc a b : Word) (mk : Option FaultKind) : IdExLatch :=
  ⟨pc, d, destOf d, a, b, sext16 d.imm16, targetOf d pc, (roles d.op).isLoad, (roles d.op).isStore, (roles d.op).isBr, mk⟩

/-- `idTaken` before the stall is counted in (R146). -/
def idResolves (cfg : Config) (d : Ins) (a b : Word) : Bool :=
  match cfg.branchStage with
  | .id => taken d.op a b
  | .ex => false

/-- The operand values ID sees (R177, R178), from this cycle's WB, EX and MEM. -/
def idValue (s : State) (w : WbOut) (x : ExMemLatch) (m : MemOut) : RegIdx → Word :=
  operandValue s.cfg.hazardPolicy w.regs s.idex.dest x.res s.exmem.dest m.memwb.val

/-- The ID part (R144, R146). -/
def idStage (s : State) (w : WbOut) (x : ExMemLatch) (m : MemOut) : IdOut :=
  let d := idIns s.cfg s.ifid
  let a := operandA (idValue s w x m) d
  let b := operandB (idValue s w x m) d
  if d.op = .nop then ⟨.bubble, false, false, 0#32⟩
  else if stallOf s d then ⟨.bubble, true, false, targetOf d s.ifid.pc⟩
  else ⟨issueLatch d s.ifid.pc a b (idMarker s.cfg s.ifid), false, idResolves s.cfg d a b, targetOf d s.ifid.pc⟩

/-! ## IF (R148, R149) -/

/-- `npc` (R148); `none` is the hold of a stall. -/
def fetchAddr (s : State) (stall : Bool) : Option Word :=
  match s.pending with
  | some t => some t
  | none => if stall then none else some (s.fpc + 8#32)

/-- The IF/ID latch of a fetch at `npc` from the backing store (R149). -/
def fetchLatch (cfg : Config) (bs : Memory) (npc : Word) : IfIdLatch :=
  if npc.extractLsb' 0 3 ≠ 0#3 then ⟨npc, 0#64, some .misaligned⟩
  else if memValid cfg npc = false then ⟨npc, 0#64, some .outOfRange⟩
  else ⟨npc, bsReadInsn bs npc, none⟩

/-- `fpc_n` and `IFID_n` (R149). -/
def ifStage (s : State) (stall : Bool) (bs : Memory) : Word × IfIdLatch :=
  match fetchAddr s stall with
  | none => (s.fpc, s.ifid)
  | some npc => (npc, fetchLatch s.cfg bs npc)

/-! ## The end of the cycle (R150 to R156) -/

/-- R154: the state of a cycle that ends the run. Only WB's part of the cycle is kept. -/
def endRun (s : State) (w : WbOut) (st : Status) : State :=
  { s with status := st, regs := w.regs, wbc := s.memwb, mem := w.mem, icount := w.icount, cycle := s.cycle + 1 }

/-- R155 with the squash of R150 to R152: the state of a cycle that does not end the run. -/
def carryOn (s : State) (w : WbOut) (m : MemOut) (x : ExMemLatch) (d : IdOut) : State :=
  let f := ifStage s d.stall m.mem.bs
  let exT := exTaken s.cfg s.idex
  { s with
    regs := w.regs
    fpc := f.1
    pending := if exT then some s.idex.target else if d.taken then some d.target else none
    stallFlag := d.stall
    ifid := if exT || d.taken then .bubble else f.2
    idex := if exT then .bubble else d.idex
    exmem := x
    memwb := m.memwb
    wbc := s.memwb
    mem := m.mem
    icount := w.icount
    cycle := s.cycle + 1 }

/-- `Next(S)` for a running state (R131, R153): a halt asked for by WB first, then MEM's fault, else the next cycle. -/
def cycleNext (s : State) : State :=
  let w := wbStage s
  let m := memStage s.cfg s.exmem w.mem
  match haltReason? s.cfg w.haltReq w.icount with
  | some r => endRun s w (.halted r)
  | none =>
    match m.fault with
    | some r => takeFault r.kind r.pc r.info (endRun s w s.status)
    | none => carryOn s w m (exStage s.idex) (idStage s w (exStage s.idex) m)

end Sys2Proof.Machine
end

