-- ==== Sys2Proof/Machine/Driver.lean ====
section
/-! DEFINITION. What stands around the cycle function: construction and the loader (70_reset_and_hazards.md R280, R281),
the trace sink and the statistics (60_exceptions.md R262, R263), the end-of-run flush (R289), and an instruction placed
where the next cycle fetches it. None of these is a step of CORE. -/

namespace Sys2Proof.Machine

/-! ## Before the first cycle -/

/-- Construction (R280): the checks of R261, then R46's reset values over the image the loader wrote straight into the
backing store (R281). No state is built from a configuration that fails a check. -/
def construct (cfg : Config) (image : List Host.Cell) : Except ConfigError State :=
  match configError? cfg with
  | some e => .error e
  | none => .ok (State.construct cfg (memOfImage [] image))

/-- Instruction words laid out from `p` upward, 8 bytes each (30_encoding.md R101). -/
def loadInsns (m : Memory) (p : Word) : List DWord → Memory
  | [] => m
  | insn :: rest => loadInsns (bsWriteInsn m p insn) (p + 8#32) rest

/-- The loader's work on a state that has run no cycle (R281): code words from `ENTRY` upward and data words at their
addresses, written past the cache. -/
def State.load (s : State) (code : List DWord) (data : List (Word × Word)) : State :=
  { s with mem := { s.mem with
      bs := data.foldl (fun m p => bsWriteWord m p.1 p.2) (loadInsns s.mem.bs s.cfg.entry code) } }

/-! ## Between cycles: the trace sink (R263) -/

/-- The values the trace may show after a cycle (R263); their printed form is no part of CORE (I20). -/
structure TraceRecord where
  ifidWord : DWord
  ifidPc : Word
  idexIns : Ins
  idexPc : Word
  exmemIns : Ins
  exmemPc : Word
  memwbIns : Ins
  memwbPc : Word
  wbcIns : Ins
  wbcPc : Word
  stallFlag : Bool
  status : Status
deriving DecidableEq, Repr

/-- The trace of a state (R263): a pure read. -/
def trace (s : State) : TraceRecord :=
  ⟨s.ifid.word, s.ifid.pc, s.idex.ins, s.idex.pc, s.exmem.ins, s.exmem.pc, s.memwb.ins, s.memwb.pc, s.wbc.ins, s.wbc.pc,
   s.stallFlag, s.status⟩

/-! ## After the last cycle (R262, R289) -/

/-- The counters the driver reads (R262). -/
structure Statistics where
  cycle : Nat
  icount : Nat
  cache : Counters
deriving DecidableEq, Repr

/-- The counters of a state (R262). -/
def statistics (s : State) : Statistics := ⟨s.cycle, s.icount, s.mem.cache.ctr⟩

/-- The driver's flush once the run has ended (R289); a running state is left as it is. -/
def endOfRun (s : State) : State :=
  match s.status with
  | .running => s
  | _ => { s with mem := cacheFlush s.mem }

/-! ## Placing an instruction for the next fetch -/

/-- This cycle's stall signal (R176), as IF sees it. -/
def stallsNow (s : State) : Bool := stallOf s (idIns s.cfg s.ifid)

/-- Whether an instruction in ID could be resolved taken this cycle (R146). -/
def idMayTake (s : State) : Bool :=
  match s.cfg.branchStage with
  | .id => (roles (idIns s.cfg s.ifid).op).isBr
  | .ex => false

/-- `s` with IF/ID and ID/EX empty. -/
def State.drainFront (s : State) : State := { s with ifid := .bubble, idex := .bubble }

/-- `s`, or `s` with its front latches empty if this cycle would hold or squash the fetch. -/
def State.clearFetch (s : State) : State :=
  if stallsNow s || idMayTake s || exTaken s.cfg s.idex then s.drainFront else s

/-- The word placed at the address the next cycle fetches from (R148, R101). -/
def placeFetchWord (s : State) (insn : DWord) : State :=
  { s.clearFetch with mem := { s.mem with bs := bsWriteInsn s.mem.bs s.nextPc insn } }

end Sys2Proof.Machine
end

