-- ==== Sys2Proof/Machine/Step.lean ====
section
/-! DEFINITION. The step of CORE: one clock cycle (40_pipeline.md R130, R131). -/

namespace Sys2Proof.Machine

/-- One step is one application of the cycle function `Next` (R130). It is defined only while the run goes on (R131) under
a configuration that passes the checks of R261. -/
def step (s : State) : Host.Outcome State Fault Refusal := whenReady s (.next (cycleNext s))

/-- `s` with the instruction word `w` where the next step fetches (R148), nothing else changed; only if this cycle would
hold or squash that fetch are the front latches emptied first (notes/assumptions/15.md). From reset the next step is cycle
1 of R283, and "Cycles 1 to 4 commit nothing": the placed instruction commits in cycle 5 (R157, notes/assumptions/14.md). -/
def State.withFetchWord (s : State) (nbits w : Nat) : State := placeFetchWord s (BitVec.ofNat 64 (w % 2 ^ nbits))

end Sys2Proof.Machine
end

