-- ==== Sys2Proof/Machine/Sequential.lean ====
section
/-! DEFINITION. The program-order machine (00_scope.md R12): one instruction at a time, fetched at the next address and
executed alone. The pipeline of Pipeline.lean commits exactly these effects (R12, 41_hazard_forwarding.md R185). -/

namespace Sys2Proof.Machine

/-- What the instruction fetched as `f` does when executed alone: a failed fetch and an illegal word take their faults
(60_exceptions.md R250, R254), any other word is its instruction. -/
def archSlot (f : IfIdLatch) (s : State) : Host.Outcome State Fault Refusal :=
  match f.ffault with
  | some k => whenReady s (.next (takeFault k.kind f.pc (markerInfo k.kind f.pc f.word) s))
  | none =>
    match decode s.cfg.hasMul f.word with
    | some i => exec i s
    | none => whenReady s (.next (takeFault .illegalInstruction f.pc (markerInfo .illegalInstruction f.pc f.word) s))

/-- One instruction in program order: fetch at the next address (R45, R149), then its effect. A run whose instruction
limit is already reached ends before it (R153). -/
def archStep (s : State) : Host.Outcome State Fault Refusal :=
  match haltReason? s.cfg false s.icount with
  | some r => whenReady s (.next { s with status := .halted r })
  | none => archSlot (fetchLatch s.cfg s.mem.bs s.nextPc) s

end Sys2Proof.Machine
end

