-- ==== Sys2Proof/Safety.lean ====
section
/-! DEFINITION. What counts as a good state and a safe run: the invariants of 10_state.md R47 and R48, of the fetch address
(R25) and of the operands in flight (41_hazard_forwarding.md R185), in the words the statements use. -/

namespace Sys2Proof.Machine

/-- The state takes a cycle: its configuration passes R261 and its run has not ended (R131). -/
def State.Ready (s : State) : Prop := configError? s.cfg = none ∧ s.status = .running

/-- The instruction limit has not been reached (R153). -/
def State.BelowLimit (s : State) : Prop := ∀ n, s.cfg.maxInsns = some n → s.icount < n

/-- A run that ended well: halted, not faulted (R265). -/
def Status.safe : Status → Prop
  | .running => True
  | .halted _ => True
  | .faulted _ _ _ => False

/-- Nothing is in flight: every latch but the trace-only one is a bubble (R35). State.reset is such a state (R46). -/
def State.Drained (s : State) : Prop :=
  s.ifid = .bubble ∧ s.idex = .bubble ∧ s.exmem = .bubble ∧ s.memwb = .bubble

/-! ## The memory (R47, R68, R76, R84) -/

/-- The invariants of the cache and the backing store: R47(a), (b) and (d), the range of resident lines (R68), the empty
sets of a disabled cache (R76) and the sum of the counters (R84). R47(c) holds of every `Cache`: a line's index is the
number of the set it is in. -/
structure MemInv (cfg : Config) (m : MemSys) : Prop where
  /-- The backing store is in canonical form. -/
  canonical : Memory.wf m.bs = true
  /-- R47(a). -/
  tagsDistinct : ∀ i, ((getSet m.cache.sets i).map (·.tag)).Nodup
  /-- R47(b). -/
  waysBounded : ∀ i, (getSet m.cache.sets i).length ≤ 4
  /-- R47(d). -/
  cleanAsStored : ∀ i, ∀ l ∈ getSet m.cache.sets i, l.dirty = false →
    ∀ o : BitVec 4, lineByte l.data o = memByte m.bs ((blockAddr l.tag i).toNat + o.toNat)
  /-- R68. -/
  residentValid : ∀ i, ∀ l ∈ getSet m.cache.sets i, memValid cfg (blockAddr l.tag i) = true
  /-- R76. -/
  disabledEmpty : cfg.cacheEnabled = false → ∀ i, getSet m.cache.sets i = []
  /-- R84. -/
  countersAdd : cfg.cacheEnabled = true → m.cache.ctr.hits + m.cache.ctr.misses = m.cache.ctr.accesses

/-! ## The fetch side (R25, R48) -/

/-- `a` is a multiple of 8. -/
def aligned8 (a : Word) : Prop := a.extractLsb' 0 3 = 0#3

/-- R25, and what keeps it: every address fetch can go to is a multiple of 8, so no fetch is misaligned (R66). -/
structure FetchInv (s : State) : Prop where
  fpc : aligned8 s.fpc
  pending : ∀ t, s.pending = some t → aligned8 t
  ifidPc : aligned8 s.ifid.pc
  idexTarget : aligned8 s.idex.target
  notMisaligned : s.ifid.ffault ≠ some .misaligned

/-- R48(a) and (b), for a running state. -/
structure SquashInv (s : State) : Prop where
  /-- R48(a). -/
  redirectEmptiesFetch : s.pending ≠ none → s.ifid = .bubble
  /-- R48(a), with `BRANCH_STAGE` = EX. -/
  redirectEmptiesDecode : s.cfg.branchStage = .ex → s.pending ≠ none → s.idex = .bubble
  /-- R48(b). -/
  noMarkerInWb : s.memwb.ins.op ≠ .illegal ∧ s.memwb.ins.op ≠ .fetchFault

/-! ## The operands in flight (R185) -/

/-- The `a` bus of an instruction that reads its source from a register file (R179). -/
def seqA (regs : RegFile) (d : Ins) : Word := operandA (readReg regs) d

/-- The `b` bus of an instruction that reads its source from a register file (R179). -/
def seqB (regs : RegFile) (d : Ins) : Word := operandB (readReg regs) d

/-- The ALU result an instruction has when its sources are read from a register file (R200). -/
def seqRes (regs : RegFile) (d : Ins) : Word := alu d.op (seqA regs d) (seqB regs d) (sext16 d.imm16)

/-- The value an instruction commits when it is executed alone on a register file and a memory: the loaded word of a load,
0 for a store, else the ALU result (R33, R139). -/
def seqVal (regs : RegFile) (m : MemSys) (d : Ins) : Word :=
  if (roles d.op).isLoad then archWord m (seqRes regs d)
  else if (roles d.op).isStore then 0#32
  else seqRes regs d

/-- `d` is a marker slot (R147). -/
def isMarker (d : Ins) : Prop := d.op = .illegal ∨ d.op = .fetchFault

/-- `d` is the record R105 makes of its own raw word, or the FETCHFAULT slot of R144. -/
def Decoded (hasMul : Bool) (d : Ins) : Prop := d = decodeIns hasMul d.raw ∨ d = fetchFaultIns d.raw

/-- The register file after the instruction in MEM/WB commits: WB's `regs1` (R134, R135). -/
def regsAfterWb (s : State) : RegFile := (wbStage s).regs

/-- The register file after the instruction in EX/MEM commits too: the loaded word, or the ALU result. -/
def regsAfterMem (s : State) : RegFile :=
  if s.exmem.ins.op = .nop then regsAfterWb s
  else writeReg (regsAfterWb s) s.exmem.dest
    (if s.exmem.isLoad then archWord (wbStage s).mem s.exmem.res else s.exmem.res)

/-- R185 as an invariant: every latch holds what sequential execution would have computed for its instruction, the
instruction in MEM/WB on the register file, the one in EX/MEM after it, and the one in ID/EX after both. With it stand the
facts of the latches it rests on: bubbles have every field 0 (R35), an instruction is the record its raw word decodes to
(R105), the role bits are those of R110, the markers are where
R144 puts them, a data access that has left MEM did not fault, and nothing is behind a SYSCALL (R175). -/
structure OperandInv (s : State) : Prop where
  wbBubble : s.memwb.ins.op = .nop → s.memwb = .bubble
  wbDecoded : Decoded s.cfg.hasMul s.memwb.ins
  wbDest : s.memwb.dest = destOf s.memwb.ins
  wbNoMarker : ¬isMarker s.memwb.ins
  wbValue : s.memwb.val = seqVal s.regs s.mem s.memwb.ins
  wbAccess : (roles s.memwb.ins.op).isLoad ∨ (roles s.memwb.ins.op).isStore →
    accessFault? s.cfg (seqRes s.regs s.memwb.ins) = none
  memBubble : s.exmem.ins.op = .nop → s.exmem = .bubble
  memDecoded : Decoded s.cfg.hasMul s.exmem.ins
  memDest : s.exmem.dest = destOf s.exmem.ins
  memLoad : s.exmem.isLoad = (roles s.exmem.ins.op).isLoad
  memStore : s.exmem.isStore = (roles s.exmem.ins.op).isStore
  memMarker : s.exmem.fault ≠ none ↔ isMarker s.exmem.ins
  memRes : s.exmem.res = seqRes (regsAfterWb s) s.exmem.ins
  memData : s.exmem.b = seqB (regsAfterWb s) s.exmem.ins
  exBubble : s.idex.ins.op = .nop → s.idex = .bubble
  exDecoded : Decoded s.cfg.hasMul s.idex.ins
  exDest : s.idex.dest = destOf s.idex.ins
  exLoad : s.idex.isLoad = (roles s.idex.ins.op).isLoad
  exStore : s.idex.isStore = (roles s.idex.ins.op).isStore
  exBranch : s.idex.isBranch = (roles s.idex.ins.op).isBr
  exMarker : s.idex.fault ≠ none ↔ isMarker s.idex.ins
  exImm : s.idex.imm = sext16 s.idex.ins.imm16
  exTarget : s.idex.target = targetOf s.idex.ins s.idex.pc
  exA : s.idex.a = seqA (regsAfterMem s) s.idex.ins
  exB : s.idex.b = seqB (regsAfterMem s) s.idex.ins
  syscallInMem : s.exmem.ins.op = .syscall → s.idex = .bubble
  syscallInWb : s.memwb.ins.op = .syscall → s.exmem = .bubble ∧ s.idex = .bubble

/-! ## Fetch order (R48(c), R148, R152) -/

/-- Where the instructions in flight stand to each other and to the fetch address: R48(c) for neighbours, with what keeps
it. What R146 resolved in ID is held in `pending` until the next fetch. -/
structure PathInv (s : State) : Prop where
  /-- `fpc` is the address in IF/ID (R25), unless nothing has been fetched yet. -/
  fetched : s.pending = none → s.ifid = .bubble ∨ s.ifid.pc = s.fpc
  /-- Behind an instruction in EX stands its sequential successor. -/
  behindEx : s.pending = none → s.idex.ins.op ≠ .nop → s.ifid.pc = s.fpc ∧ s.fpc = s.idex.pc + 8#32
  /-- With `BRANCH_STAGE` = ID, a pending target is that of the taken branch or jump now in EX (R151). -/
  redirected : s.cfg.branchStage = .id → ∀ t, s.pending = some t →
    taken s.idex.ins.op s.idex.a s.idex.b = true ∧ t = s.idex.target
  /-- With `BRANCH_STAGE` = ID, no target is pending behind a branch that is not taken (R152). -/
  notTaken : s.cfg.branchStage = .id → s.pending = none → taken s.idex.ins.op s.idex.a s.idex.b = false
  /-- Neighbours in EX and MEM follow each other in memory. -/
  exAfterMem : s.exmem.ins.op ≠ .nop → s.idex.ins.op ≠ .nop → s.idex.pc = s.exmem.pc + 8#32
  /-- Neighbours in MEM and WB follow each other in memory: a taken transfer leaves a bubble behind it (R150, R151). -/
  memAfterWb : s.memwb.ins.op ≠ .nop → s.exmem.ins.op ≠ .nop → s.exmem.pc = s.memwb.pc + 8#32

/-- Register 0 holds 0 (R22, R46). -/
def ZeroInv (s : State) : Prop := s.regs[0] = 0#32

/-- Everything a running state keeps. -/
structure GoodState (s : State) : Prop where
  zero : ZeroInv s
  memory : MemInv s.cfg s.mem
  fetch : FetchInv s
  squash : SquashInv s
  operands : OperandInv s
  path : PathInv s

/-! ## Program order (R12) -/

/-- The state with its next instruction at `p`: the one change is where fetch goes next. -/
def State.atPc (s : State) (p : Word) : State := { s with fpc := p - 8#32, pending := none }

/-- The state whose next instruction would be the one in EX/MEM: MEM/WB has committed, and fetch is at EX/MEM's
instruction. -/
def State.beforeMem (s : State) : State :=
  { s.atPc s.exmem.pc with regs := (wbStage s).regs, mem := (wbStage s).mem, icount := (wbStage s).icount }

/-- The state whose next instruction would be the one in ID/EX: MEM/WB and EX/MEM have committed, and fetch is at ID/EX's
instruction. -/
def State.beforeEx (s : State) : State :=
  { s.atPc s.idex.pc with
    regs := regsAfterMem s
    mem := (memStage s.cfg s.exmem (wbStage s).mem).mem
    icount := nextCount s.exmem.ins.op (wbStage s).icount }


/-! ## What an instruction executed alone changes and leaves unchanged -/

/-- Everything of the pipeline and the configuration is unchanged: no latch, no trace field and no cycle count is part of
an instruction's architectural effect (R12, R45). -/
def SamePipeline (s t : State) : Prop :=
  t.cfg = s.cfg ∧ t.stallFlag = s.stallFlag ∧ t.ifid = s.ifid ∧ t.idex = s.idex ∧ t.exmem = s.exmem ∧ t.memwb = s.memwb ∧
    t.wbc = s.wbc ∧ t.cycle = s.cycle

/-- No byte of memory, no cache line and no counter changes. -/
def SameMemory (s t : State) : Prop := t.mem = s.mem ∧ ∀ a, archByte t.mem a = archByte s.mem a

/-- No register changes. -/
def SameRegs (s t : State) : Prop := t.regs = s.regs ∧ ∀ q, t.reg q = s.reg q

/-- Register `r` holds `v` and every other register is unchanged; nothing is written when `r` is r0 (R22). -/
def OnlyReg (s t : State) (r : RegIdx) (v : Word) : Prop :=
  (r ≠ 0#5 → t.reg r = v) ∧ t.reg 0#5 = 0#32 ∧ ∀ q, q ≠ r → t.reg q = s.reg q

/-- The instruction's successor is the next one in memory (R201). -/
def GoesOn (s t : State) : Prop := t.nextPc = s.nextPc + 8#32 ∧ t.fpc = s.nextPc ∧ t.pending = none

/-- The instruction's successor is at `target` (R230). -/
def GoesTo (s t : State) (target : Word) : Prop := t.nextPc = target ∧ t.fpc = s.nextPc ∧ t.pending = some target

/-- The run ends at `icount` = `n` exactly when the instruction limit is reached (R153). -/
def EndsAtLimit (s t : State) (n : Nat) : Prop :=
  ((∀ k, s.cfg.maxInsns = some k → n < k) → t.status = .running) ∧
    (∀ k, s.cfg.maxInsns = some k → k ≤ n → t.status = .halted .limit)

/-- One more instruction is committed (R136), and the run ends if that reaches the limit (R153). -/
def CountsOne (s t : State) : Prop := t.icount = s.icount + 1 ∧ EndsAtLimit s t (s.icount + 1)

/-- The whole effect of an instruction that writes `v` to `r` and does nothing else. -/
def WritesOnly (s t : State) (r : RegIdx) (v : Word) : Prop :=
  OnlyReg s t r v ∧ SameMemory s t ∧ GoesOn s t ∧ CountsOne s t ∧ SamePipeline s t

/-- A fault is taken and nothing else happens (R253, R254). -/
def TakesFault (s t : State) (k : FaultKind) (pc : Word) (info : DWord) : Prop :=
  t = { s with status := .faulted k pc info }

/-- The order of the tags in every set (R37): which lines are resident, most recently used first. -/
def SameLines (m n : MemSys) : Prop :=
  ∀ i, (getSet n.cache.sets i).map (·.tag) = (getSet m.cache.sets i).map (·.tag)

end Sys2Proof.Machine
end

