-- ==== Sys2Proof/Certificates/Slice0/Obligations.lean ====
section
/-! DEFINITION. The statements for the provers. Each docstring names the rules of spec/ the statement formalises. -/

open Sys2Proof Sys2Proof.Machine

/-! ## Encoding (30_encoding.md) -/

/-- R102, R104, R105: the decoder reads every well-formed instruction back from its word, with every operand at every
value of its field. -/
def Obligations.DecodeOfEncodedInstr : Prop :=
  ∀ (hasMul : Bool) (i : Instr), i.wellFormed hasMul = true → decode hasMul (encode i) = some i

/-- R107: no bit of a word is without meaning. A word that decodes is the encoding of the instruction it decodes to, and
that instruction is one the configuration has. -/
def Obligations.EncodeOfDecodedWord : Prop :=
  ∀ (hasMul : Bool) (w : DWord) (i : Instr), decode hasMul w = some i → encode i = w ∧ i.wellFormed hasMul = true

/-- R106: which words are illegal. -/
def Obligations.IllegalWordsAreExactlyTheListed : Prop :=
  ∀ (hasMul : Bool) (w : DWord),
    (decodeIns hasMul w).op = .illegal ↔
      (w.extractLsb' 0 8 ∉ [0x00#8, 0x01#8, 0x02#8, 0x03#8, 0x04#8, 0x05#8, 0x06#8, 0x10#8, 0x20#8, 0x21#8, 0x30#8, 0x31#8,
          0x32#8, 0x40#8]
        ∨ w.extractLsb' 8 24 ≠ 0#24
        ∨ (w.extractLsb' 0 8 ∈ [0x00#8, 0x40#8] ∧ w.extractLsb' 32 32 ≠ 0#32)
        ∨ (w.extractLsb' 0 8 ∈ [0x01#8, 0x02#8, 0x03#8, 0x04#8, 0x05#8, 0x06#8] ∧
            (w.extractLsb' 58 6 ≠ 0#6 ∨ w.extractLsb' 32 11 ≠ 0#11))
        ∨ (w.extractLsb' 0 8 ∈ [0x10#8, 0x20#8, 0x21#8, 0x30#8, 0x31#8, 0x32#8] ∧ w.extractLsb' 58 6 ≠ 0#6)
        ∨ (w.extractLsb' 0 8 = 0x06#8 ∧ hasMul = false))

/-- R108: NOP is the all-zero word and nothing else. -/
def Obligations.NopIsOnlyTheZeroWord : Prop :=
  ∀ (hasMul : Bool) (w : DWord), (decodeIns hasMul w).op = .nop ↔ w = 0#64

/-- R114 and the words of R202 to R240: a few words written out by the spec decode to the instructions it says, and the
bytes of ADD r1, r2, r3 are those of R114. -/
def Obligations.SpecWordsDecodeAsWritten : Prop :=
  decode true 0x0043080000000001#64 = some (.add 1#5 2#5 3#5) ∧
    decode true 0x0081000000000021#64 = some (.sw 1#5 4#5 0#16) ∧
    decode true 0x0083000800000020#64 = some (.lw 3#5 4#5 8#16) ∧
    decode true 0x0020FFFD00000031#64 = some (.bne 1#5 0#5 0xFFFD#16) ∧
    decode true 0x0000000100000032#64 = some (.j 1#26) ∧
    decode true 0x0000000000000040#64 = some .syscall ∧
    bytesOfInsn 0x0043080000000001#64 = [0x01#8, 0x00#8, 0x00#8, 0x00#8, 0x00#8, 0x08#8, 0x43#8, 0x00#8]

/-- R101: an instruction stored at an 8-aligned address is the word fetch reads there, and the 8 bytes at the address are
its little-endian bytes. -/
def Obligations.StoredInsnReadsBack : Prop :=
  ∀ (m : Memory) (p : Word) (w : DWord), aligned8 p →
    bsReadInsn (bsWriteInsn m p w) p = w ∧
      ∀ k, k < 8 → memByte (bsWriteInsn m p w) (p.toNat + k) = w.extractLsb' (8 * k) 8

/-- R103, R112: the field the assembler makes for a label takes the branch or the jump to that label.
Log entry 21: the label difference is read modulo 2^32, as a signed number. -/
def Obligations.AssembledLabelIsTheTarget : Prop :=
  ∀ (p label : Word),
    (∀ imm, labelField? 16 p label = some imm → branchTarget p imm = label) ∧
      ∀ t26, labelField? 26 p label = some t26 → jumpTarget p t26 = label

/-! ## Construction and reset (10_state.md R46, 60_exceptions.md R261) -/

/-- R46: what construction leaves, for every configuration and image: the whole reset table. -/
def Obligations.ConstructionFollowsResetTable : Prop :=
  ∀ (cfg : Config) (image : Memory),
    let s := State.construct cfg image
    s.status = .running ∧ s.regs[0] = 0#32 ∧ (∀ k (h : k < 32), k ≠ 0 → s.regs[k] = cfg.initRegs[k]) ∧
      s.fpc = cfg.entry - 8#32 ∧ s.nextPc = cfg.entry ∧ s.pending = none ∧ s.stallFlag = false ∧ s.Drained ∧
      s.wbc = .bubble ∧ (∀ i, getSet s.mem.cache.sets i = []) ∧ s.mem.cache.ctr = ⟨0, 0, 0, 0, 0, 0⟩ ∧
      s.mem.bs = image ∧ s.icount = 0 ∧ s.cycle = 0

/-- R68 and R261(d): the start-up check accepts `MEM_VALID` exactly when every 16-byte block is wholly valid or wholly
invalid. -/
def Obligations.UniformCheckIsExact : Prop :=
  ∀ cfg : Config, memValidUniform cfg = true ↔
    ∀ b k : Nat, b % 16 = 0 → b < 2 ^ 32 → k < 16 → validNat cfg (b + k) = validNat cfg b

/-- R261: the checks (a) to (e), (d) spelled out by R68; (f) holds of every configuration by its type. A configuration that
fails one gets no state and no cycle, and no instruction.
Log entry 13: that `step` and `exec` refuse is the model's form of this. -/
def Obligations.FailedCheckRunsNoCycle : Prop :=
  (∀ cfg : Config, configError? cfg = none ↔
    cfg.byteOrder = .little ∧
      (cfg.xlen = 32 ∧ cfg.nregs = 32 ∧ cfg.addrBits = 32 ∧ cfg.insnBytes = 8) ∧
      (cfg.lineBytes = 16 ∧ cfg.nsets = 16 ∧ cfg.nways = 4) ∧
      (∀ b k : Nat, b % 16 = 0 → b < 2 ^ 32 → k < 16 → validNat cfg (b + k) = validNat cfg b) ∧
      cfg.entry.toNat % 8 = 0) ∧
  ∀ (cfg : Config) (e : ConfigError), configError? cfg = some e →
    (∀ image, construct cfg image = .error e) ∧
      ∀ s : State, s.cfg = cfg →
        step s = .refused (.configuration e) ∧ ∀ i, exec i s = .refused (.configuration e)

/-! ## The cache (20_memory.md) -/

/-- R74: a data access faults exactly when its address is misaligned or, aligned, out of range. -/
def Obligations.AccessFaultsExactlyAsChecked : Prop :=
  ∀ (cfg : Config) (kind : AccessKind) (a v : Word) (m : MemSys),
    (a.toNat % 4 ≠ 0 → cacheAccess cfg kind a v m = .fault .misalignedAccess) ∧
      (a.toNat % 4 = 0 → memValid cfg a = false → cacheAccess cfg kind a v m = .fault .outOfRange) ∧
      (a.toNat % 4 = 0 → memValid cfg a = true → ∃ w m', cacheAccess cfg kind a v m = .ok w m')

/-- R79, R87: a read returns `ArchMem` as it stood, and leaves every byte of `ArchMem` as it was. -/
def Obligations.CacheReadReturnsArchMem : Prop :=
  ∀ (cfg : Config) (a v : Word) (m m' : MemSys), MemInv cfg m → cacheRead cfg a m = .ok v m' →
    v = archWord m a ∧ ∀ b, archByte m' b = archByte m b

/-- R80, R87: after a write `ArchMem` holds the word at its four addresses, lowest byte first, and is unchanged elsewhere.
-/
def Obligations.CacheWriteChangesArchMem : Prop :=
  ∀ (cfg : Config) (a v w : Word) (m m' : MemSys), MemInv cfg m → cacheWrite cfg a v m = .ok w m' →
    archWord m' a = v ∧ ∀ b : Word, 4 ≤ (b - a).toNat → archByte m' b = archByte m b

/-- R75, R78, R81, R82, R84: what one access to an enabled cache counts. -/
def Obligations.AccessCountsOnce : Prop :=
  ∀ (cfg : Config) (kind : AccessKind) (a v w : Word) (m m' : MemSys), cfg.cacheEnabled = true →
    cacheAccess cfg kind a v m = .ok w m' →
    let c := m.cache.ctr
    let c' := m'.cache.ctr
    let ls := getSet m.cache.sets (indexOf a)
    c'.accesses = c.accesses + 1 ∧
      (findLine ls (tagOf a) ≠ none →
        c'.hits = c.hits + 1 ∧ c'.misses = c.misses ∧ c'.latency = c.latency + cfg.hitLatency ∧
          c'.replacements = c.replacements ∧ c'.writebacks = c.writebacks) ∧
      (findLine ls (tagOf a) = none →
        c'.hits = c.hits ∧ c'.misses = c.misses + 1 ∧ c'.latency = c.latency + cfg.missLatency ∧
          c'.replacements = (if ls.length = 4 then c.replacements + 1 else c.replacements) ∧
          c'.writebacks = (if ls.length = 4 ∧ (ls.getLast?.map (·.dirty)) = some true then c.writebacks + 1 else c.writebacks))

/-- R77 to R84: the lines and the backing store after an access to an enabled cache. The accessed line comes to the front
of its set and only a miss in a full set drops a line, the last one (R78, R82, R83). The others are as they were. The
accessed line is the matching one, or a clean one filled from the backing store (R83), and a write puts its word into it
and makes it dirty (R80). The backing store takes the block of a dirty line that is dropped and nothing else (R80, R82). -/
def Obligations.AccessKeepsRecencyOrder : Prop :=
  ∀ (cfg : Config) (kind : AccessKind) (a v w : Word) (m m' : MemSys), cfg.cacheEnabled = true →
    cacheAccess cfg kind a v m = .ok w m' →
    let ls := getSet m.cache.sets (indexOf a)
    let ts := ls.map (·.tag)
    (getSet m'.cache.sets (indexOf a)).map (·.tag) =
        (if tagOf a ∈ ts then tagOf a :: ts.erase (tagOf a)
          else if ts.length = 4 then tagOf a :: ts.dropLast else tagOf a :: ts) ∧
      (∀ i, i ≠ indexOf a → getSet m'.cache.sets i = getSet m.cache.sets i) ∧
      (∃ l0 l others, getSet m'.cache.sets (indexOf a) = l :: others ∧
        (∀ x, findLine ls (tagOf a) = some x → l0 = x ∧ others = withoutLine ls (tagOf a)) ∧
        (findLine ls (tagOf a) = none →
          l0 = ⟨tagOf a, false, bsReadBlock m'.bs (blockAddr (tagOf a) (indexOf a))⟩ ∧
            others = if ls.length = 4 then ls.dropLast else ls) ∧
        l.tag = l0.tag ∧
        (kind = .read → l = l0) ∧
        (kind = .write → l.dirty = true ∧ l.data = setLineWord l0.data (offsetOf a) v)) ∧
      (∀ x, findLine ls (tagOf a) = none → ls.length = 4 → ls.getLast? = some x → x.dirty = true →
        m'.bs = bsWriteBlock m.bs (blockAddr x.tag (indexOf a)) x.data) ∧
      ((findLine ls (tagOf a) ≠ none ∨ ls.length ≠ 4 ∨ ∀ x, ls.getLast? = some x → x.dirty = false) → m'.bs = m.bs)

/-- R76: with the cache disabled every access passes straight through and counts only itself. -/
def Obligations.DisabledCachePassesThrough : Prop :=
  ∀ (cfg : Config) (a v : Word) (m : MemSys), cfg.cacheEnabled = false → accessFault? cfg a = none →
    let m1 : MemSys := { m with cache := { m.cache with ctr := { m.cache.ctr with accesses := m.cache.ctr.accesses + 1 } } }
    cacheRead cfg a m = .ok (bsReadWord m.bs a) m1 ∧
      ∃ w, cacheWrite cfg a v m = .ok w { m1 with bs := bsWriteWord m.bs a v }

/-- R85, R89, R289: a flush leaves `ArchMem` and the lines as they were, makes every line clean, and then the backing
store alone is `ArchMem`. The driver's end of a run is that flush and nothing else, and comes only once the run has
ended. -/
def Obligations.FlushWritesBackEverything : Prop :=
  ∀ (cfg : Config) (m : MemSys), MemInv cfg m →
    let m' := cacheFlush m
    (∀ a : Word, archByte m' a = archByte m a ∧ memByte m'.bs a.toNat = archByte m a) ∧ SameLines m m' ∧
      (∀ i, ∀ l ∈ getSet m'.cache.sets i, l.dirty = false) ∧
      m'.cache.ctr = { m.cache.ctr with
        writebacks := m.cache.ctr.writebacks
          + (setIndices.map fun i => (getSet m.cache.sets i).countP fun l => l.dirty).sum } ∧
      ∀ s : State, s.mem = m → (s.status ≠ .running → endOfRun s = { s with mem := m' }) ∧
        (s.status = .running → endOfRun s = s)

/-- R47, R68, R76, R84: every data access keeps the invariants of the memory. -/
def Obligations.AccessKeepsMemInv : Prop :=
  ∀ (cfg : Config) (kind : AccessKind) (a v w : Word) (m m' : MemSys), configError? cfg = none → MemInv cfg m →
    cacheAccess cfg kind a v m = .ok w m' → MemInv cfg m'

/-! ## Instructions executed alone, in program order (42_alu.md to 45_system.md) -/

/-- R201: NOP changes nothing but the address of the next instruction; it is not counted.
Log entries 11 and 19: `exec`'s fetch state and its limit check are the model's reading. -/
def Obligations.NopChangesNothing : Prop :=
  ∀ s : State, s.Ready → s.BelowLimit → ∃ t, exec .nop s = .next t ∧ SameRegs s t ∧ SameMemory s t ∧ GoesOn s t ∧
    t.icount = s.icount ∧ t.status = .running ∧ SamePipeline s t

/-- R202: ADD writes the sum modulo 2^32.
Log entries 11 and 19: `exec`'s fetch state and its limit check are the model's reading. -/
def Obligations.AddWritesSum : Prop :=
  ∀ (s : State) (rd rs rt : RegIdx), s.Ready →
    ∃ t, exec (.add rd rs rt) s = .next t ∧
      WritesOnly s t rd (BitVec.ofNat 32 ((s.reg rs).toNat + (s.reg rt).toNat))

/-- R203: SUB writes the difference modulo 2^32.
Log entries 11 and 19: `exec`'s fetch state and its limit check are the model's reading. -/
def Obligations.SubWritesDifference : Prop :=
  ∀ (s : State) (rd rs rt : RegIdx), s.Ready →
    ∃ t, exec (.sub rd rs rt) s = .next t ∧
      WritesOnly s t rd (BitVec.ofInt 32 ((s.reg rs).toInt - (s.reg rt).toInt))

/-- R204: AND writes the bitwise and.
Log entries 11 and 19: `exec`'s fetch state and its limit check are the model's reading. -/
def Obligations.AndWritesConjunction : Prop :=
  ∀ (s : State) (rd rs rt : RegIdx), s.Ready →
    ∃ t, exec (.and rd rs rt) s = .next t ∧ WritesOnly s t rd (s.reg rs &&& s.reg rt)

/-- R205: SLL shifts left by the low five bits of rt.
Log entries 11 and 19: `exec`'s fetch state and its limit check are the model's reading. -/
def Obligations.SllShiftsByLowFiveBits : Prop :=
  ∀ (s : State) (rd rs rt : RegIdx), s.Ready →
    ∃ t, exec (.sll rd rs rt) s = .next t ∧
      WritesOnly s t rd (BitVec.ofNat 32 ((s.reg rs).toNat * 2 ^ ((s.reg rt).toNat % 32)))

/-- R206: SLT writes 1 or 0 by the signed comparison.
Log entries 11 and 19: `exec`'s fetch state and its limit check are the model's reading. -/
def Obligations.SltComparesSigned : Prop :=
  ∀ (s : State) (rd rs rt : RegIdx), s.Ready →
    ∃ t, exec (.slt rd rs rt) s = .next t ∧
      WritesOnly s t rd (if (s.reg rs).toInt < (s.reg rt).toInt then 1#32 else 0#32)

/-- R207: with `HAS_MUL`, MUL writes the low 32 bits of the unsigned product.
Log entries 11 and 19: `exec`'s fetch state and its limit check are the model's reading. -/
def Obligations.MulWritesLowProduct : Prop :=
  ∀ (s : State) (rd rs rt : RegIdx), s.Ready → s.cfg.hasMul = true →
    ∃ t, exec (.mul rd rs rt) s = .next t ∧
      WritesOnly s t rd (BitVec.ofNat 32 ((s.reg rs).toNat * (s.reg rt).toNat))

/-- R106, R207, R254: without `HAS_MUL` the word of a MUL is illegal, and the instruction takes IllegalInstruction with the
raw word and changes nothing else.
Log entry 11: `exec`'s fetch state is the model's reading. -/
def Obligations.MulAbsentIsIllegal : Prop :=
  ∀ (s : State) (rd rs rt : RegIdx), s.Ready → s.cfg.hasMul = false →
    decode s.cfg.hasMul (encode (.mul rd rs rt)) = none ∧
      ∃ t, exec (.mul rd rs rt) s = .next t ∧ TakesFault s t .illegalInstruction s.nextPc (encode (.mul rd rs rt))

/-- R208: ADDI adds the sign-extended immediate.
Log entries 11 and 19: `exec`'s fetch state and its limit check are the model's reading. -/
def Obligations.AddiAddsSignedImmediate : Prop :=
  ∀ (s : State) (rt rs : RegIdx) (imm : BitVec 16), s.Ready →
    ∃ t, exec (.addi rt rs imm) s = .next t ∧
      WritesOnly s t rt (BitVec.ofInt 32 ((s.reg rs).toInt + imm.toInt))

/-- R220: an aligned LW in range writes the word of `ArchMem` to rt, makes one read access, which is all it does to the
cache, the counters and the backing store, and changes no byte a program observes.
Log entries 11 and 19: `exec`'s fetch state and its limit check are the model's reading. -/
def Obligations.LwLoadsArchMem : Prop :=
  ∀ (s : State) (rt rs : RegIdx) (imm : BitVec 16) (ea : Word), s.Ready → MemInv s.cfg s.mem →
    ea = s.reg rs + imm.signExtend 32 → ea.toNat % 4 = 0 → memValid s.cfg ea = true →
    ∃ t, exec (.lw rt rs imm) s = .next t ∧ OnlyReg s t rt (archWord s.mem ea) ∧
      cacheRead s.cfg ea s.mem = .ok (archWord s.mem ea) t.mem ∧ (∀ a, archByte t.mem a = archByte s.mem a) ∧
      t.mem.cache.ctr.accesses = s.mem.cache.ctr.accesses + 1 ∧ GoesOn s t ∧ CountsOne s t ∧ SamePipeline s t

/-- R221: an aligned SW in range puts the bytes of rt at its four addresses, lowest first, changes no other byte a program
observes, and writes no register; one write access is all it does to the cache, the counters and the backing store.
Log entries 11 and 19: `exec`'s fetch state and its limit check are the model's reading. -/
def Obligations.SwStoresWord : Prop :=
  ∀ (s : State) (rt rs : RegIdx) (imm : BitVec 16) (ea : Word), s.Ready → MemInv s.cfg s.mem →
    ea = s.reg rs + imm.signExtend 32 → ea.toNat % 4 = 0 → memValid s.cfg ea = true →
    ∃ t, exec (.sw rt rs imm) s = .next t ∧ SameRegs s t ∧
      (∃ w, cacheWrite s.cfg ea (s.reg rt) s.mem = .ok w t.mem) ∧
      (∀ k, k < 4 → archByte t.mem (ea + BitVec.ofNat 32 k) = (s.reg rt).extractLsb' (8 * k) 8) ∧
      (∀ a : Word, 4 ≤ (a - ea).toNat → archByte t.mem a = archByte s.mem a) ∧
      t.mem.cache.ctr.accesses = s.mem.cache.ctr.accesses + 1 ∧ GoesOn s t ∧ CountsOne s t ∧ SamePipeline s t

/-- R65, R67, R74, R220, R221, R254: a LW or SW at a misaligned address, or at an aligned one out of range, takes its fault
with the effective address and changes nothing else.
Log entries 11 and 16: `exec`'s fetch state and the zero-extended record are the model's reading. -/
def Obligations.LoadStoreTakeDataFaults : Prop :=
  ∀ (s : State) (rt rs : RegIdx) (imm : BitVec 16) (ea : Word), s.Ready → ea = s.reg rs + imm.signExtend 32 →
    (ea.toNat % 4 ≠ 0 →
      (∃ t, exec (.lw rt rs imm) s = .next t ∧ TakesFault s t .misalignedAccess s.nextPc (ea.setWidth 64)) ∧
        ∃ t, exec (.sw rt rs imm) s = .next t ∧ TakesFault s t .misalignedAccess s.nextPc (ea.setWidth 64)) ∧
      (ea.toNat % 4 = 0 → memValid s.cfg ea = false →
        (∃ t, exec (.lw rt rs imm) s = .next t ∧ TakesFault s t .outOfRange s.nextPc (ea.setWidth 64)) ∧
          ∃ t, exec (.sw rt rs imm) s = .next t ∧ TakesFault s t .outOfRange s.nextPc (ea.setWidth 64))

/-- R103, R230, R231: BEQ goes to `pc + 8 + 8 * offset` if its operands are equal, BNE if they differ, else on; they change
no register and no memory.
Log entries 11 and 19: `exec`'s fetch state and its limit check are the model's reading. -/
def Obligations.BeqAndBneBranch : Prop :=
  ∀ (s : State) (rs rt : RegIdx) (imm : BitVec 16), s.Ready →
    let target := s.nextPc + 8#32 + BitVec.ofInt 32 (8 * imm.toInt)
    (∃ t, exec (.beq rs rt imm) s = .next t ∧ SameRegs s t ∧ SameMemory s t ∧ CountsOne s t ∧ SamePipeline s t ∧
      (s.reg rs = s.reg rt → GoesTo s t target) ∧ (s.reg rs ≠ s.reg rt → GoesOn s t)) ∧
    ∃ t, exec (.bne rs rt imm) s = .next t ∧ SameRegs s t ∧ SameMemory s t ∧ CountsOne s t ∧ SamePipeline s t ∧
      (s.reg rs ≠ s.reg rt → GoesTo s t target) ∧ (s.reg rs = s.reg rt → GoesOn s t)

/-- R103, R232: J goes to `pc + 8 + 8 * offset`; it changes no register and no memory.
Log entries 11 and 19: `exec`'s fetch state and its limit check are the model's reading. -/
def Obligations.JumpGoesToTarget : Prop :=
  ∀ (s : State) (t26 : BitVec 26), s.Ready →
    ∃ t, exec (.j t26) s = .next t ∧ SameRegs s t ∧ SameMemory s t ∧ CountsOne s t ∧ SamePipeline s t ∧
      GoesTo s t (s.nextPc + 8#32 + BitVec.ofInt 32 (8 * t26.toInt))

/-- R240 to R243: SYSCALL takes the handler's registers but for r0, and its bytes at every valid address; no line moves and
no counter changes; the run ends if the handler says so. It holds for every handler.
Log entries 11 and 19: `exec`'s fetch state and its limit check are the model's reading. -/
def Obligations.SyscallAppliesHandler : Prop :=
  ∀ s : State, s.Ready →
    let r := handlerAnswer s.cfg.handler (s.regs.set 0 0#32) (archByte s.mem) s.nextPc
    ∃ t, exec .syscall s = .next t ∧
      (∀ q, q ≠ 0#5 → t.reg q = readReg r.regs q) ∧ t.reg 0#5 = 0#32 ∧
      (∀ a, archByte t.mem a =
        if memValid s.cfg a = true then handlerByte r.mem (archByte s.mem) a else archByte s.mem a) ∧
      SameLines s.mem t.mem ∧ t.mem.cache.ctr = s.mem.cache.ctr ∧ t.icount = s.icount + 1 ∧
      (r.halt = true → t.status = .halted .syscall) ∧ (r.halt = false → EndsAtLimit s t (s.icount + 1)) ∧
      GoesOn s t ∧ SamePipeline s t

/-- R209: ADDI, ADDI, SLL, ADDI, executed one after the other, leave any 32-bit constant in a register.
Log entry 11: `exec`'s fetch state is the model's reading. -/
def Obligations.FourInstrsBuildAnyConstant : Prop :=
  ∀ (s : State) (r x : RegIdx) (v : Word), s.Ready → s.cfg.maxInsns = none → r ≠ 0#5 → x ≠ 0#5 → r ≠ x →
    ∃ s1 s2 s3 s4,
      exec (.addi r 0#5 ((v + 0x8000#32).extractLsb' 16 16)) s = .next s1 ∧
      exec (.addi x 0#5 16#16) s1 = .next s2 ∧
      exec (.sll r r x) s2 = .next s3 ∧
      exec (.addi r r (v.extractLsb' 0 16)) s3 = .next s4 ∧
      s4.reg r = v ∧ s4.nextPc = s.nextPc + 32#32 ∧ s4.icount = s.icount + 4

/-! ## Hazards and forwarding (41_hazard_forwarding.md) -/

/-- R173, R174, R176: when an instruction in ID stalls, source by source. -/
def Obligations.StallExactlyOnHazard : Prop :=
  ∀ (s : State) (d : Ins),
    stallOf s d = true ↔
      d.op ≠ .nop ∧
        ((s.cfg.hazardPolicy = .forward ∧ ∃ r ∈ srcsOf d, r ≠ 0#5 ∧ r = s.idex.dest ∧ s.idex.isLoad = true) ∨
          (s.cfg.hazardPolicy = .stall ∧ ∃ r ∈ srcsOf d, r ≠ 0#5 ∧ (r = s.idex.dest ∨ r = s.exmem.dest)) ∨
          s.idex.ins.op = .syscall ∨ s.exmem.ins.op = .syscall)

/-- R180: a stall holds IF/ID and the fetch address, and sends a bubble to EX. -/
def Obligations.StallHoldsFetchAndDecode : Prop :=
  ∀ s s' : State, s.Ready → step s = .next s' → s'.status = .running → s.pending = none → exTaken s.cfg s.idex = false →
    stallOf s (idIns s.cfg s.ifid) = true →
    s'.idex = .bubble ∧ s'.ifid = s.ifid ∧ s'.fpc = s.fpc ∧ s'.stallFlag = true ∧ s'.pending = none

/-- R186: a consumer right behind its load waits one cycle under FORWARD and two under STALL: the stall is seen now, after
one cycle only under STALL, and not after two. -/
def Obligations.LoadUseStallLength : Prop :=
  ∀ (s s1 s2 : State) (r : RegIdx), s.Ready → OperandInv s → s.pending = none →
    let d := idIns s.cfg s.ifid
    r ∈ srcsOf d → r ≠ 0#5 → s.idex.ins.op = .lw → r = s.idex.dest →
    step s = .next s1 → s1.status = .running → step s1 = .next s2 → s2.status = .running →
    stallOf s d = true ∧ s1.ifid = s.ifid ∧
      (s.cfg.hazardPolicy = .forward → stallOf s1 d = false) ∧
      (s.cfg.hazardPolicy = .stall → stallOf s1 d = true ∧ s2.ifid = s.ifid ∧ stallOf s2 d = false)

/-- R158: an instruction that reads no destination of the two before it, with no SYSCALL among them, leaves ID at once,
under either policy. -/
def Obligations.IndependentInstructionDoesNotStall : Prop :=
  ∀ s s' : State, s.Ready → step s = .next s' → s'.status = .running →
    (∀ r ∈ srcsOf (idIns s.cfg s.ifid), r ≠ 0#5 → r ≠ s.idex.dest ∧ r ≠ s.exmem.dest) →
    s.idex.ins.op ≠ .syscall → s.exmem.ins.op ≠ .syscall → exTaken s.cfg s.idex = false →
    (idIns s.cfg s.ifid).op ≠ .nop → s'.stallFlag = false ∧ s'.idex.ins = idIns s.cfg s.ifid ∧ s'.idex.pc = s.ifid.pc

/-- R177 to R179: each operand bus of what leaves ID holds the value of its source register, or 0 if it has none; a NOP has
none. Under FORWARD that value is the result of EX if EX's instruction writes the register, else the value of MEM if MEM's
instruction writes it, else the register after this cycle's commit. Under STALL it is always the last. r0 is 0. -/
def Obligations.OperandsAreForwarded : Prop :=
  ∀ s s' : State, s.Ready → step s = .next s' → s'.status = .running → exTaken s.cfg s.idex = false →
    let d := idIns s.cfg s.ifid
    stallOf s d = false →
    ∃ val : RegIdx → Word,
      s'.idex.a = (if (roles d.op).srcRs then val d.rs else 0#32) ∧
      s'.idex.b = (if (roles d.op).srcRt then val d.rt else 0#32) ∧
      val 0#5 = 0#32 ∧
      (s.cfg.hazardPolicy = .stall → ∀ r, val r = s'.reg r) ∧
      (s.cfg.hazardPolicy = .forward → ∀ r, r ≠ 0#5 →
        (r = s.idex.dest → val r = s'.exmem.res) ∧
        (r ≠ s.idex.dest → r = s.exmem.dest → val r = s'.memwb.val) ∧
        (r ≠ s.idex.dest → r ≠ s.exmem.dest → val r = s'.reg r))

/-! ## The cycle (40_pipeline.md, 60_exceptions.md) -/

/-- R131, R153, R155, R256, R265: under an accepted configuration a running state takes its cycle, whatever is in flight,
and the run goes on after it exactly when the commit asks for no halt, leaves the count below the limit, and nothing
faults in MEM: neither a marker slot nor the address of a load or store. An ended run takes no further cycle and no
further instruction.
Log entry 12: that `step` and `exec` stop with this fault is the model's form of this. -/
def Obligations.OnlyARunningStateTakesACycle : Prop :=
  ∀ s : State, configError? s.cfg = none →
    (s.status = .running →
      let w := wbStage s
      ∃ s', step s = .next s' ∧
        (s'.status = .running ↔
          w.haltReq = false ∧ (∀ n, s.cfg.maxInsns = some n → w.icount < n) ∧
            (memStage s.cfg s.exmem w.mem).fault = none) ∧
        ((memStage s.cfg s.exmem w.mem).fault = none ↔
          s.exmem.ins.op = .nop ∨
            (s.exmem.fault = none ∧
              (s.exmem.isLoad = true ∨ s.exmem.isStore = true → accessFault? s.cfg s.exmem.res = none)))) ∧
      (s.status ≠ .running → step s = .fault (.runEnded s.status) ∧ ∀ i, exec i s = .fault (.runEnded s.status))

/-- R136, R137, R156, R7: what every cycle does to the counts, the trace latch and the configuration. -/
def Obligations.EveryCycleCounts : Prop :=
  ∀ s s' : State, step s = .next s' →
    s'.cycle = s.cycle + 1 ∧ s'.wbc = s.memwb ∧ s'.cfg = s.cfg ∧
      s'.icount = (if s.memwb.ins.op = .nop then s.icount else s.icount + 1)

/-- R134: WB writes the value of MEM/WB to its destination register and no other, unless a SYSCALL commits. -/
def Obligations.WbWritesDestination : Prop :=
  ∀ s s' : State, step s = .next s' → s.memwb.ins.op ≠ .nop → s.memwb.ins.op ≠ .syscall →
    OnlyReg s s' s.memwb.dest s.memwb.val

/-- R153, R154, R257: a cycle whose commit asks for a halt ends the run as halted, the handler's answer before the limit,
and keeps only WB's part, whatever MEM does. -/
def Obligations.HaltBeatsFault : Prop :=
  ∀ s : State, s.Ready →
    let w := wbStage s
    w.haltReq = true ∨ (∃ n, s.cfg.maxInsns = some n ∧ n ≤ w.icount) →
    step s = .next { s with
      status := .halted (if w.haltReq then .syscall else .limit)
      regs := w.regs, wbc := s.memwb, mem := w.mem, icount := w.icount, cycle := s.cycle + 1 }

/-- R252 to R254, R154: a marker slot in MEM, or a load or store in MEM whose address fails the check, faults with its
record, and only WB's part of the cycle is kept.
Log entry 16: the zero-extended record is the model's reading. -/
def Obligations.FaultIsTakenInMem : Prop :=
  ∀ (s : State) (k : FaultKind) (info : DWord), s.Ready → s.exmem.ins.op ≠ .nop →
    let w := wbStage s
    w.haltReq = false → (∀ n, s.cfg.maxInsns = some n → w.icount < n) →
    ((s.exmem.fault = some k ∧ info = (if k = .illegalInstruction then s.exmem.ins.raw else s.exmem.pc.setWidth 64)) ∨
      (s.exmem.fault = none ∧ (s.exmem.isLoad = true ∨ s.exmem.isStore = true) ∧
        accessFault? s.cfg s.exmem.res = some k ∧ info = s.exmem.res.setWidth 64)) →
    step s = .next { s with
      status := .faulted k s.exmem.pc info
      regs := w.regs, wbc := s.memwb, mem := w.mem, icount := w.icount, cycle := s.cycle + 1 }

/-- R146, R148, R149, R152: unless it is squashed or held, the fetch of a cycle is at the pending target or at `fpc + 8`,
from the backing store as MEM left it, with the marks of a misaligned and of an out-of-range address. With branches
resolved in EX nothing in ID can squash it; with branches resolved in ID, a taken one would. -/
def Obligations.FetchReadsBackingStore : Prop :=
  ∀ s s' : State, s.Ready → step s = .next s' → s'.status = .running → exTaken s.cfg s.idex = false →
    let d := idIns s.cfg s.ifid
    (s.cfg.branchStage = .id → stallOf s d = false → taken d.op s'.idex.a s'.idex.b = false) →
    (stallOf s d = false ∨ s.pending ≠ none) →
    s'.fpc = s.nextPc ∧ s'.pending = none ∧ s'.ifid.pc = s.nextPc ∧
      (s.nextPc.toNat % 8 ≠ 0 → s'.ifid.ffault = some .misaligned ∧ s'.ifid.word = 0#64) ∧
      (s.nextPc.toNat % 8 = 0 → memValid s.cfg s.nextPc = false →
        s'.ifid.ffault = some .outOfRange ∧ s'.ifid.word = 0#64) ∧
      (s.nextPc.toNat % 8 = 0 → memValid s.cfg s.nextPc = true →
        s'.ifid.ffault = none ∧ s'.ifid.word = bsReadInsn s'.mem.bs s.nextPc)

/-- R144, R105: the step decodes the fetched word: an instruction `i` in IF/ID that is neither stalled nor squashed goes to
ID/EX as the record of `i`, with its address, its destination and its target. -/
def Obligations.StepIssuesDecodedInstr : Prop :=
  ∀ (s s' : State) (i : Instr), s.Ready → step s = .next s' → s'.status = .running → s.ifid.ffault = none →
    decode s.cfg.hasMul s.ifid.word = some i → i ≠ .nop → stallOf s (idIns s.cfg s.ifid) = false →
    exTaken s.cfg s.idex = false →
    s'.idex.ins = decodeIns s.cfg.hasMul (encode i) ∧ s'.idex.ins.toInstr? = some i ∧ s'.idex.pc = s.ifid.pc ∧
      s'.idex.dest = destOf s'.idex.ins ∧ s'.idex.target = targetOf s'.idex.ins s.ifid.pc ∧ s'.idex.fault = none

/-- R150: a branch or jump taken in EX empties IF/ID and ID/EX and leaves its target for the next fetch. -/
def Obligations.TakenInExSquashesTwo : Prop :=
  ∀ s s' : State, s.Ready → step s = .next s' → s'.status = .running → s.cfg.branchStage = .ex →
    taken s.idex.ins.op s.idex.a s.idex.b = true →
    s'.ifid = .bubble ∧ s'.idex = .bubble ∧ s'.pending = some s.idex.target ∧ s'.nextPc = s.idex.target

/-- R151: a branch or jump taken in ID empties IF/ID, goes on to EX itself, and leaves its target for the next fetch. Here
for J, and for BEQ and BNE by the operands they took. -/
def Obligations.TakenInIdSquashesOne : Prop :=
  ∀ s s' : State, s.Ready → step s = .next s' → s'.status = .running → s.cfg.branchStage = .id →
    let d := idIns s.cfg s.ifid
    stallOf s d = false → taken d.op s'.idex.a s'.idex.b = true →
    s'.ifid = .bubble ∧ s'.idex.ins = d ∧ s'.pending = some (targetOf d s.ifid.pc) ∧
      s'.nextPc = targetOf d s.ifid.pc

/-- R146, R152: where no branch is taken in EX or in ID, nothing is squashed: no target is pending, EX/MEM takes what EX
made, ID/EX what ID made (a bubble for a stall or a NOP), and IF/ID what IF made (the slot it holds on a stall, else the
fetch of this cycle). -/
def Obligations.NotTakenSquashesNothing : Prop :=
  ∀ s s' : State, s.Ready → step s = .next s' → s'.status = .running →
    let d := idIns s.cfg s.ifid
    (s.cfg.branchStage = .ex → taken s.idex.ins.op s.idex.a s.idex.b = false) →
    (s.cfg.branchStage = .id → stallOf s d = false → taken d.op s'.idex.a s'.idex.b = false) →
    s'.pending = none ∧ s'.exmem = exStage s.idex ∧
      s'.idex = (if stallOf s d = true ∨ d.op = .nop then .bubble
        else issueLatch d s.ifid.pc s'.idex.a s'.idex.b (idMarker s.cfg s.ifid)) ∧
      (stallOf s d = true → s.pending = none → s'.ifid = s.ifid ∧ s'.fpc = s.fpc) ∧
      (stallOf s d = false ∨ s.pending ≠ none → s'.ifid = fetchLatch s.cfg s'.mem.bs s.nextPc ∧ s'.fpc = s.nextPc)

/-! ## Invariants -/

/-- R46, R47, R48, R185: construction from an accepted configuration and an image in canonical form gives a good state. -/
def Obligations.ConstructionIsGood : Prop :=
  ∀ (cfg : Config) (image : Memory), configError? cfg = none → Memory.wf image = true →
    GoodState (State.construct cfg image)

/-- R47, R68, R76, R84 and the canonical form of the backing store are kept by every cycle, also one that ends the run. -/
def Obligations.StepKeepsMemInv : Prop :=
  ∀ s s' : State, MemInv s.cfg s.mem → step s = .next s' → MemInv s'.cfg s'.mem

/-- R22: register 0 holds 0 after every cycle and every instruction. -/
def Obligations.RegisterZeroStaysZero : Prop :=
  ∀ s s' : State, ZeroInv s → (step s = .next s' → ZeroInv s') ∧ ∀ i, exec i s = .next s' → ZeroInv s'

/-- R25, R66: the fetch address and every target in flight stay multiples of 8, so no fetch is misaligned. -/
def Obligations.StepKeepsFetchAligned : Prop :=
  ∀ s s' : State, FetchInv s → step s = .next s' → FetchInv s'

/-- R48(a), (b): a pending target means squashed latches, and no marker slot reaches WB. -/
def Obligations.StepKeepsSquashInv : Prop :=
  ∀ s s' : State, OperandInv s → SquashInv s → step s = .next s' → SquashInv s'

/-- R185: a running pipeline holds, for every instruction in flight, the operands and results of sequential execution, in
every configuration. -/
def Obligations.StepKeepsGoodState : Prop :=
  ∀ s s' : State, GoodState s → step s = .next s' → s'.status = .running → GoodState s'

/-! ## The pipeline runs the instructions (00_scope.md R12) -/

/-- R12, R45, R134, R135, R142, R146, R185: the instruction that commits in a cycle leaves the registers, the count and the
halt that executing it alone at its address leaves (and the memory, for a SYSCALL; MemStageIsExec has the others). The
cycle halts the run exactly if executing it alone does. The address of the instruction after it, R45's third part, is
settled where branches resolve. In EX, the target of a taken one is fetched next, and what is not taken has that address
behind it in IF/ID already. In ID, the pending target or else the address in IF/ID is it, when the instruction has left ID.
Log entries 11 and 19: `exec`'s fetch state and its limit check are the model's reading. -/
def Obligations.CommitIsExec : Prop :=
  (∀ (s s' : State) (i : Instr), s.Ready → GoodState s → s.memwb.ins.toInstr? = some i → step s = .next s' →
    ∃ t, exec i (s.atPc s.memwb.pc) = .next t ∧ s'.regs = t.regs ∧ s'.icount = t.icount ∧
      (t.status ≠ .running → s'.status = t.status) ∧
      (∀ r, s'.status = .halted r → t.status = .halted r) ∧
      (i = .syscall → s'.mem = t.mem)) ∧
  ∀ (s s' : State) (i : Instr), s.Ready → GoodState s → i ≠ .nop → step s = .next s' → s'.status = .running →
    (s.cfg.branchStage = .ex → s.idex.ins.toInstr? = some i →
      ∃ t, exec i s.beforeEx = .next t ∧
        ((∀ k p n, t.status ≠ .faulted k p n) →
          (taken s.idex.ins.op s.idex.a s.idex.b = true → s'.nextPc = t.nextPc) ∧
          (taken s.idex.ins.op s.idex.a s.idex.b = false → s'.pending = none ∧ s.ifid.pc = t.nextPc))) ∧
    (s.cfg.branchStage = .id → s'.idex.ins.toInstr? = some i →
      ∃ t, exec i s'.beforeEx = .next t ∧
        ((∀ k p n, t.status ≠ .faulted k p n) →
          (∀ target, s'.pending = some target → target = t.nextPc) ∧
          (s'.pending = none → s'.ifid.pc = t.nextPc)))

/-- R12, R139, R185: the instruction in MEM has, on the cache, the counters and the backing store, exactly the effect of
executing it alone after the one before it has committed; a SYSCALL acts in WB instead.
Log entries 11 and 19: `exec`'s fetch state and its limit check are the model's reading. -/
def Obligations.MemStageIsExec : Prop :=
  ∀ (s s' : State) (i : Instr), s.Ready → GoodState s → s.exmem.ins.toInstr? = some i → i ≠ .syscall →
    step s = .next s' → s'.status = .running →
    ∃ t, exec i s.beforeMem = .next t ∧ s'.mem = t.mem

/-- R12, R157, R283: from a state with nothing in flight, the next instruction in memory is fetched by the first cycle and
has committed after five, with the registers, the count and the status it has when executed alone, whatever follows it in
memory. The memory is as executing it alone leaves it when it has left MEM, after four cycles, or for a SYSCALL when it
has committed.
Log entries 11 and 19: `exec`'s fetch state and its limit check are the model's reading. -/
def Obligations.FiveCyclesRunOneInstr : Prop :=
  ∀ (s t : State) (i : Instr), s.Ready → s.Drained → s.BelowLimit → aligned8 s.nextPc →
    memValid s.cfg s.nextPc = true → decode s.cfg.hasMul (bsReadInsn s.mem.bs s.nextPc) = some i →
    exec i s = .next t → (∀ k p n, t.status ≠ .faulted k p n) →
    ∃ s1 s4 s5, step s = .next s1 ∧ s1.ifid = ⟨s.nextPc, encode i, none⟩ ∧
      Host.Core.run Sys2Proof.core 4 s = .next s4 ∧ s4.memwb.ins.toInstr? = some i ∧ (i ≠ .syscall → s4.mem = t.mem) ∧
      Host.Core.run Sys2Proof.core 5 s = .next s5 ∧ s5.regs = t.regs ∧ s5.icount = t.icount ∧
      (t.status ≠ .running → s5.status = t.status) ∧ (i = .syscall → s5.mem = t.mem)

/-- R252, R253, R283: from a state with nothing in flight, an instruction that faults when executed alone, an illegal word
and a failed fetch fault in the fourth cycle with the same record, and leave the registers, the memory and the counts as
they were.
Log entries 11, 12, 16 and 19 name what of `archStep`, of the record and of the last stop is the model's reading. -/
def Obligations.FourthCycleTakesTheFault : Prop :=
  ∀ (s t : State) (k : FaultKind) (p : Word) (n : DWord), s.Ready → s.Drained → s.BelowLimit →
    archStep s = .next t → t.status = .faulted k p n →
    ∃ s4, Host.Core.run Sys2Proof.core 4 s = .next s4 ∧ s4.status = .faulted k p n ∧ s4.regs = s.regs ∧ s4.mem = s.mem ∧
      s4.icount = s.icount ∧ step s4 = .fault (.runEnded s4.status)

/-- R101, R148, R157, R252, R281, R283: a word placed by `withFetchWord` in a state with nothing in flight, State.reset
among them, is the word the next cycle fetches, and nothing but the backing store is changed by placing it. The instruction
it decodes to has run after five cycles, or has taken its fault after four, as when it is executed alone.
Log entries 11, 14, 15 and 19: placing a word is the model's own operation, and a step is a cycle of the five. -/
def Obligations.PlacedWordIsFetched : Prop :=
  ∀ (s : State) (w : DWord), s.Ready → s.Drained → s.BelowLimit → aligned8 s.nextPc → memValid s.cfg s.nextPc = true →
    let p := s.withFetchWord 64 w.toNat
    p = { s with mem := { s.mem with bs := p.mem.bs } } ∧
      (∃ s1, step p = .next s1 ∧ s1.ifid = ⟨s.nextPc, w, none⟩ ∧ s1.fpc = s.nextPc) ∧
      ∀ i, decode s.cfg.hasMul w = some i →
        ∃ t, exec i p = .next t ∧
          ((∀ k a n, t.status ≠ .faulted k a n) →
            ∃ s5, Host.Core.run Sys2Proof.core 5 p = .next s5 ∧ s5.regs = t.regs ∧ s5.icount = t.icount ∧
              (t.status ≠ .running → s5.status = t.status)) ∧
          (∀ k a n, t.status = .faulted k a n →
            ∃ s4, Host.Core.run Sys2Proof.core 4 p = .next s4 ∧ s4.status = t.status ∧ s4.regs = t.regs ∧ s4.mem = t.mem)
end

