-- ==== Sys2Proof/Laws/State.lean ====
section
/-! SUPPORT. One lemma per field and update of the state, each true by unfolding, so that no later proof unfolds a record
update. -/

namespace Sys2Proof.Machine

/-! ## Writing a register -/

@[simp] theorem setReg_cfg (s : State) (r : RegIdx) (v : Word) : (s.setReg r v).cfg = s.cfg := rfl
@[simp] theorem setReg_status (s : State) (r : RegIdx) (v : Word) : (s.setReg r v).status = s.status := rfl
@[simp] theorem setReg_regs (s : State) (r : RegIdx) (v : Word) : (s.setReg r v).regs = writeReg s.regs r v := rfl
@[simp] theorem setReg_fpc (s : State) (r : RegIdx) (v : Word) : (s.setReg r v).fpc = s.fpc := rfl
@[simp] theorem setReg_pending (s : State) (r : RegIdx) (v : Word) : (s.setReg r v).pending = s.pending := rfl
@[simp] theorem setReg_stallFlag (s : State) (r : RegIdx) (v : Word) : (s.setReg r v).stallFlag = s.stallFlag := rfl
@[simp] theorem setReg_ifid (s : State) (r : RegIdx) (v : Word) : (s.setReg r v).ifid = s.ifid := rfl
@[simp] theorem setReg_idex (s : State) (r : RegIdx) (v : Word) : (s.setReg r v).idex = s.idex := rfl
@[simp] theorem setReg_exmem (s : State) (r : RegIdx) (v : Word) : (s.setReg r v).exmem = s.exmem := rfl
@[simp] theorem setReg_memwb (s : State) (r : RegIdx) (v : Word) : (s.setReg r v).memwb = s.memwb := rfl
@[simp] theorem setReg_wbc (s : State) (r : RegIdx) (v : Word) : (s.setReg r v).wbc = s.wbc := rfl
@[simp] theorem setReg_mem (s : State) (r : RegIdx) (v : Word) : (s.setReg r v).mem = s.mem := rfl
@[simp] theorem setReg_icount (s : State) (r : RegIdx) (v : Word) : (s.setReg r v).icount = s.icount := rfl
@[simp] theorem setReg_cycle (s : State) (r : RegIdx) (v : Word) : (s.setReg r v).cycle = s.cycle := rfl

/-! ## Taking a fault -/

@[simp] theorem takeFault_cfg (k : FaultKind) (p : Word) (n : DWord) (s : State) : (takeFault k p n s).cfg = s.cfg := rfl
@[simp] theorem takeFault_status (k : FaultKind) (p : Word) (n : DWord) (s : State) : (takeFault k p n s).status = .faulted k p n := rfl
@[simp] theorem takeFault_regs (k : FaultKind) (p : Word) (n : DWord) (s : State) : (takeFault k p n s).regs = s.regs := rfl
@[simp] theorem takeFault_fpc (k : FaultKind) (p : Word) (n : DWord) (s : State) : (takeFault k p n s).fpc = s.fpc := rfl
@[simp] theorem takeFault_pending (k : FaultKind) (p : Word) (n : DWord) (s : State) : (takeFault k p n s).pending = s.pending := rfl
@[simp] theorem takeFault_stallFlag (k : FaultKind) (p : Word) (n : DWord) (s : State) : (takeFault k p n s).stallFlag = s.stallFlag := rfl
@[simp] theorem takeFault_ifid (k : FaultKind) (p : Word) (n : DWord) (s : State) : (takeFault k p n s).ifid = s.ifid := rfl
@[simp] theorem takeFault_idex (k : FaultKind) (p : Word) (n : DWord) (s : State) : (takeFault k p n s).idex = s.idex := rfl
@[simp] theorem takeFault_exmem (k : FaultKind) (p : Word) (n : DWord) (s : State) : (takeFault k p n s).exmem = s.exmem := rfl
@[simp] theorem takeFault_memwb (k : FaultKind) (p : Word) (n : DWord) (s : State) : (takeFault k p n s).memwb = s.memwb := rfl
@[simp] theorem takeFault_wbc (k : FaultKind) (p : Word) (n : DWord) (s : State) : (takeFault k p n s).wbc = s.wbc := rfl
@[simp] theorem takeFault_mem (k : FaultKind) (p : Word) (n : DWord) (s : State) : (takeFault k p n s).mem = s.mem := rfl
@[simp] theorem takeFault_icount (k : FaultKind) (p : Word) (n : DWord) (s : State) : (takeFault k p n s).icount = s.icount := rfl
@[simp] theorem takeFault_cycle (k : FaultKind) (p : Word) (n : DWord) (s : State) : (takeFault k p n s).cycle = s.cycle := rfl

/-! ## Committing an instruction executed alone -/

@[simp] theorem retire_cfg (op : Op) (t : Option Word) (h : Bool) (s : State) : (retire op t h s).cfg = s.cfg := rfl
@[simp] theorem retire_status (op : Op) (t : Option Word) (h : Bool) (s : State) : (retire op t h s).status = haltedStatus (haltReason? s.cfg h (nextCount op s.icount)) s.status := rfl
@[simp] theorem retire_regs (op : Op) (t : Option Word) (h : Bool) (s : State) : (retire op t h s).regs = s.regs := rfl
@[simp] theorem retire_fpc (op : Op) (t : Option Word) (h : Bool) (s : State) : (retire op t h s).fpc = s.nextPc := rfl
@[simp] theorem retire_pending (op : Op) (t : Option Word) (h : Bool) (s : State) : (retire op t h s).pending = t := rfl
@[simp] theorem retire_stallFlag (op : Op) (t : Option Word) (h : Bool) (s : State) : (retire op t h s).stallFlag = s.stallFlag := rfl
@[simp] theorem retire_ifid (op : Op) (t : Option Word) (h : Bool) (s : State) : (retire op t h s).ifid = s.ifid := rfl
@[simp] theorem retire_idex (op : Op) (t : Option Word) (h : Bool) (s : State) : (retire op t h s).idex = s.idex := rfl
@[simp] theorem retire_exmem (op : Op) (t : Option Word) (h : Bool) (s : State) : (retire op t h s).exmem = s.exmem := rfl
@[simp] theorem retire_memwb (op : Op) (t : Option Word) (h : Bool) (s : State) : (retire op t h s).memwb = s.memwb := rfl
@[simp] theorem retire_wbc (op : Op) (t : Option Word) (h : Bool) (s : State) : (retire op t h s).wbc = s.wbc := rfl
@[simp] theorem retire_mem (op : Op) (t : Option Word) (h : Bool) (s : State) : (retire op t h s).mem = s.mem := rfl
@[simp] theorem retire_icount (op : Op) (t : Option Word) (h : Bool) (s : State) : (retire op t h s).icount = nextCount op s.icount := rfl
@[simp] theorem retire_cycle (op : Op) (t : Option Word) (h : Bool) (s : State) : (retire op t h s).cycle = s.cycle := rfl

/-! ## A cycle that ends the run (R154) -/

@[simp] theorem endRun_cfg (s : State) (w : WbOut) (st : Status) : (endRun s w st).cfg = s.cfg := rfl
@[simp] theorem endRun_status (s : State) (w : WbOut) (st : Status) : (endRun s w st).status = st := rfl
@[simp] theorem endRun_regs (s : State) (w : WbOut) (st : Status) : (endRun s w st).regs = w.regs := rfl
@[simp] theorem endRun_fpc (s : State) (w : WbOut) (st : Status) : (endRun s w st).fpc = s.fpc := rfl
@[simp] theorem endRun_pending (s : State) (w : WbOut) (st : Status) : (endRun s w st).pending = s.pending := rfl
@[simp] theorem endRun_stallFlag (s : State) (w : WbOut) (st : Status) : (endRun s w st).stallFlag = s.stallFlag := rfl
@[simp] theorem endRun_ifid (s : State) (w : WbOut) (st : Status) : (endRun s w st).ifid = s.ifid := rfl
@[simp] theorem endRun_idex (s : State) (w : WbOut) (st : Status) : (endRun s w st).idex = s.idex := rfl
@[simp] theorem endRun_exmem (s : State) (w : WbOut) (st : Status) : (endRun s w st).exmem = s.exmem := rfl
@[simp] theorem endRun_memwb (s : State) (w : WbOut) (st : Status) : (endRun s w st).memwb = s.memwb := rfl
@[simp] theorem endRun_wbc (s : State) (w : WbOut) (st : Status) : (endRun s w st).wbc = s.memwb := rfl
@[simp] theorem endRun_mem (s : State) (w : WbOut) (st : Status) : (endRun s w st).mem = w.mem := rfl
@[simp] theorem endRun_icount (s : State) (w : WbOut) (st : Status) : (endRun s w st).icount = w.icount := rfl
@[simp] theorem endRun_cycle (s : State) (w : WbOut) (st : Status) : (endRun s w st).cycle = s.cycle + 1 := rfl

/-! ## A cycle that goes on (R155) -/

@[simp] theorem carryOn_cfg (s : State) (w : WbOut) (m : MemOut) (x : ExMemLatch) (d : IdOut) : (carryOn s w m x d).cfg = s.cfg := rfl
@[simp] theorem carryOn_status (s : State) (w : WbOut) (m : MemOut) (x : ExMemLatch) (d : IdOut) : (carryOn s w m x d).status = s.status := rfl
@[simp] theorem carryOn_regs (s : State) (w : WbOut) (m : MemOut) (x : ExMemLatch) (d : IdOut) : (carryOn s w m x d).regs = w.regs := rfl
@[simp] theorem carryOn_fpc (s : State) (w : WbOut) (m : MemOut) (x : ExMemLatch) (d : IdOut) : (carryOn s w m x d).fpc = (ifStage s d.stall m.mem.bs).1 := rfl
@[simp] theorem carryOn_pending (s : State) (w : WbOut) (m : MemOut) (x : ExMemLatch) (d : IdOut) : (carryOn s w m x d).pending = (if exTaken s.cfg s.idex then some s.idex.target else if d.taken then some d.target else none) := rfl
@[simp] theorem carryOn_stallFlag (s : State) (w : WbOut) (m : MemOut) (x : ExMemLatch) (d : IdOut) : (carryOn s w m x d).stallFlag = d.stall := rfl
@[simp] theorem carryOn_ifid (s : State) (w : WbOut) (m : MemOut) (x : ExMemLatch) (d : IdOut) : (carryOn s w m x d).ifid = (if exTaken s.cfg s.idex || d.taken then .bubble else (ifStage s d.stall m.mem.bs).2) := rfl
@[simp] theorem carryOn_idex (s : State) (w : WbOut) (m : MemOut) (x : ExMemLatch) (d : IdOut) : (carryOn s w m x d).idex = (if exTaken s.cfg s.idex then .bubble else d.idex) := rfl
@[simp] theorem carryOn_exmem (s : State) (w : WbOut) (m : MemOut) (x : ExMemLatch) (d : IdOut) : (carryOn s w m x d).exmem = x := rfl
@[simp] theorem carryOn_memwb (s : State) (w : WbOut) (m : MemOut) (x : ExMemLatch) (d : IdOut) : (carryOn s w m x d).memwb = m.memwb := rfl
@[simp] theorem carryOn_wbc (s : State) (w : WbOut) (m : MemOut) (x : ExMemLatch) (d : IdOut) : (carryOn s w m x d).wbc = s.memwb := rfl
@[simp] theorem carryOn_mem (s : State) (w : WbOut) (m : MemOut) (x : ExMemLatch) (d : IdOut) : (carryOn s w m x d).mem = m.mem := rfl
@[simp] theorem carryOn_icount (s : State) (w : WbOut) (m : MemOut) (x : ExMemLatch) (d : IdOut) : (carryOn s w m x d).icount = w.icount := rfl
@[simp] theorem carryOn_cycle (s : State) (w : WbOut) (m : MemOut) (x : ExMemLatch) (d : IdOut) : (carryOn s w m x d).cycle = s.cycle + 1 := rfl

/-! ## Emptying the front latches -/

@[simp] theorem drainFront_cfg (s : State) : (s.drainFront).cfg = s.cfg := rfl
@[simp] theorem drainFront_status (s : State) : (s.drainFront).status = s.status := rfl
@[simp] theorem drainFront_regs (s : State) : (s.drainFront).regs = s.regs := rfl
@[simp] theorem drainFront_fpc (s : State) : (s.drainFront).fpc = s.fpc := rfl
@[simp] theorem drainFront_pending (s : State) : (s.drainFront).pending = s.pending := rfl
@[simp] theorem drainFront_stallFlag (s : State) : (s.drainFront).stallFlag = s.stallFlag := rfl
@[simp] theorem drainFront_ifid (s : State) : (s.drainFront).ifid = .bubble := rfl
@[simp] theorem drainFront_idex (s : State) : (s.drainFront).idex = .bubble := rfl
@[simp] theorem drainFront_exmem (s : State) : (s.drainFront).exmem = s.exmem := rfl
@[simp] theorem drainFront_memwb (s : State) : (s.drainFront).memwb = s.memwb := rfl
@[simp] theorem drainFront_wbc (s : State) : (s.drainFront).wbc = s.wbc := rfl
@[simp] theorem drainFront_mem (s : State) : (s.drainFront).mem = s.mem := rfl
@[simp] theorem drainFront_icount (s : State) : (s.drainFront).icount = s.icount := rfl
@[simp] theorem drainFront_cycle (s : State) : (s.drainFront).cycle = s.cycle := rfl

/-! ## Moving the next instruction's address -/

@[simp] theorem atPc_cfg (s : State) (p : Word) : (s.atPc p).cfg = s.cfg := rfl
@[simp] theorem atPc_status (s : State) (p : Word) : (s.atPc p).status = s.status := rfl
@[simp] theorem atPc_regs (s : State) (p : Word) : (s.atPc p).regs = s.regs := rfl
@[simp] theorem atPc_fpc (s : State) (p : Word) : (s.atPc p).fpc = p - 8#32 := rfl
@[simp] theorem atPc_pending (s : State) (p : Word) : (s.atPc p).pending = none := rfl
@[simp] theorem atPc_stallFlag (s : State) (p : Word) : (s.atPc p).stallFlag = s.stallFlag := rfl
@[simp] theorem atPc_ifid (s : State) (p : Word) : (s.atPc p).ifid = s.ifid := rfl
@[simp] theorem atPc_idex (s : State) (p : Word) : (s.atPc p).idex = s.idex := rfl
@[simp] theorem atPc_exmem (s : State) (p : Word) : (s.atPc p).exmem = s.exmem := rfl
@[simp] theorem atPc_memwb (s : State) (p : Word) : (s.atPc p).memwb = s.memwb := rfl
@[simp] theorem atPc_wbc (s : State) (p : Word) : (s.atPc p).wbc = s.wbc := rfl
@[simp] theorem atPc_mem (s : State) (p : Word) : (s.atPc p).mem = s.mem := rfl
@[simp] theorem atPc_icount (s : State) (p : Word) : (s.atPc p).icount = s.icount := rfl
@[simp] theorem atPc_cycle (s : State) (p : Word) : (s.atPc p).cycle = s.cycle := rfl

/-! ## The state before EX/MEM's instruction -/

@[simp] theorem beforeMem_cfg (s : State) : (s.beforeMem).cfg = s.cfg := rfl
@[simp] theorem beforeMem_status (s : State) : (s.beforeMem).status = s.status := rfl
@[simp] theorem beforeMem_regs (s : State) : (s.beforeMem).regs = (wbStage s).regs := rfl
@[simp] theorem beforeMem_fpc (s : State) : (s.beforeMem).fpc = s.exmem.pc - 8#32 := rfl
@[simp] theorem beforeMem_pending (s : State) : (s.beforeMem).pending = none := rfl
@[simp] theorem beforeMem_stallFlag (s : State) : (s.beforeMem).stallFlag = s.stallFlag := rfl
@[simp] theorem beforeMem_ifid (s : State) : (s.beforeMem).ifid = s.ifid := rfl
@[simp] theorem beforeMem_idex (s : State) : (s.beforeMem).idex = s.idex := rfl
@[simp] theorem beforeMem_exmem (s : State) : (s.beforeMem).exmem = s.exmem := rfl
@[simp] theorem beforeMem_memwb (s : State) : (s.beforeMem).memwb = s.memwb := rfl
@[simp] theorem beforeMem_wbc (s : State) : (s.beforeMem).wbc = s.wbc := rfl
@[simp] theorem beforeMem_mem (s : State) : (s.beforeMem).mem = (wbStage s).mem := rfl
@[simp] theorem beforeMem_icount (s : State) : (s.beforeMem).icount = (wbStage s).icount := rfl
@[simp] theorem beforeMem_cycle (s : State) : (s.beforeMem).cycle = s.cycle := rfl

/-! ## The state before ID/EX's instruction -/

@[simp] theorem beforeEx_cfg (s : State) : (s.beforeEx).cfg = s.cfg := rfl
@[simp] theorem beforeEx_status (s : State) : (s.beforeEx).status = s.status := rfl
@[simp] theorem beforeEx_regs (s : State) : (s.beforeEx).regs = regsAfterMem s := rfl
@[simp] theorem beforeEx_fpc (s : State) : (s.beforeEx).fpc = s.idex.pc - 8#32 := rfl
@[simp] theorem beforeEx_pending (s : State) : (s.beforeEx).pending = none := rfl
@[simp] theorem beforeEx_stallFlag (s : State) : (s.beforeEx).stallFlag = s.stallFlag := rfl
@[simp] theorem beforeEx_ifid (s : State) : (s.beforeEx).ifid = s.ifid := rfl
@[simp] theorem beforeEx_idex (s : State) : (s.beforeEx).idex = s.idex := rfl
@[simp] theorem beforeEx_exmem (s : State) : (s.beforeEx).exmem = s.exmem := rfl
@[simp] theorem beforeEx_memwb (s : State) : (s.beforeEx).memwb = s.memwb := rfl
@[simp] theorem beforeEx_wbc (s : State) : (s.beforeEx).wbc = s.wbc := rfl
@[simp] theorem beforeEx_mem (s : State) : (s.beforeEx).mem = (memStage s.cfg s.exmem (wbStage s).mem).mem := rfl
@[simp] theorem beforeEx_icount (s : State) : (s.beforeEx).icount = nextCount s.exmem.ins.op (wbStage s).icount := rfl
@[simp] theorem beforeEx_cycle (s : State) : (s.beforeEx).cycle = s.cycle := rfl

/-! ## Construction (R46) -/

@[simp] theorem construct_cfg (cfg : Config) (image : Memory) : (State.construct cfg image).cfg = cfg := rfl
@[simp] theorem construct_status (cfg : Config) (image : Memory) : (State.construct cfg image).status = .running := rfl
@[simp] theorem construct_regs (cfg : Config) (image : Memory) : (State.construct cfg image).regs = cfg.initRegs.set 0 0#32 := rfl
@[simp] theorem construct_fpc (cfg : Config) (image : Memory) : (State.construct cfg image).fpc = cfg.entry - 8#32 := rfl
@[simp] theorem construct_pending (cfg : Config) (image : Memory) : (State.construct cfg image).pending = none := rfl
@[simp] theorem construct_stallFlag (cfg : Config) (image : Memory) : (State.construct cfg image).stallFlag = false := rfl
@[simp] theorem construct_ifid (cfg : Config) (image : Memory) : (State.construct cfg image).ifid = .bubble := rfl
@[simp] theorem construct_idex (cfg : Config) (image : Memory) : (State.construct cfg image).idex = .bubble := rfl
@[simp] theorem construct_exmem (cfg : Config) (image : Memory) : (State.construct cfg image).exmem = .bubble := rfl
@[simp] theorem construct_memwb (cfg : Config) (image : Memory) : (State.construct cfg image).memwb = .bubble := rfl
@[simp] theorem construct_wbc (cfg : Config) (image : Memory) : (State.construct cfg image).wbc = .bubble := rfl
@[simp] theorem construct_mem (cfg : Config) (image : Memory) : (State.construct cfg image).mem = ⟨.empty, image⟩ := rfl
@[simp] theorem construct_icount (cfg : Config) (image : Memory) : (State.construct cfg image).icount = 0 := rfl
@[simp] theorem construct_cycle (cfg : Config) (image : Memory) : (State.construct cfg image).cycle = 0 := rfl

/-! ## The next instruction's address -/

/-- After a state is moved to `p`, its next instruction is at `p`. -/
@[simp] theorem atPc_nextPc (s : State) (p : Word) : (s.atPc p).nextPc = p := by
  simp [State.nextPc, State.atPc]

@[simp] theorem beforeMem_nextPc (s : State) : s.beforeMem.nextPc = s.exmem.pc := by
  simp [State.nextPc]

@[simp] theorem beforeEx_nextPc (s : State) : s.beforeEx.nextPc = s.idex.pc := by
  simp [State.nextPc]

@[simp] theorem setReg_nextPc (s : State) (r : RegIdx) (v : Word) : (s.setReg r v).nextPc = s.nextPc := rfl

/-- An instruction that transfers no control is followed by the one 8 bytes on. -/
@[simp] theorem retire_nextPc_none (op : Op) (h : Bool) (s : State) : (retire op none h s).nextPc = s.nextPc + 8#32 := rfl

/-- A taken transfer is followed by the instruction at its target. -/
@[simp] theorem retire_nextPc_some (op : Op) (t : Word) (h : Bool) (s : State) : (retire op (some t) h s).nextPc = t := rfl

/-- A fault leaves the next instruction's address as it was. -/
@[simp] theorem takeFault_nextPc (k : FaultKind) (p : Word) (n : DWord) (s : State) :
    (takeFault k p n s).nextPc = s.nextPc := rfl

end Sys2Proof.Machine
end

