-- ==== Sys2Proof/Laws/Registers.lean ====
section
/-! SUPPORT. Reading after writing a register, and r0 (10_state.md R22). -/

namespace Sys2Proof.Machine

/-- Register 0 reads 0 whatever is stored (R22). -/
@[simp] theorem readReg_zero (regs : RegFile) : readReg regs 0#5 = 0#32 := rfl

/-- A write to register 0 is discarded (R22). -/
@[simp] theorem writeReg_zero (regs : RegFile) (v : Word) : writeReg regs 0#5 v = regs := rfl

/-- Reading after writing, in one equation. -/
theorem readReg_writeReg (regs : RegFile) (r q : RegIdx) (v : Word) :
    readReg (writeReg regs r v) q = if q = r ∧ r ≠ 0#5 then v else readReg regs q := by
  unfold readReg writeReg
  by_cases h : q = r
  · subst h
    by_cases h0 : q = 0#5 <;> simp [h0]
  · have hn : r.toNat ≠ q.toNat := fun e => h (BitVec.eq_of_toNat_eq e.symm)
    by_cases h0 : r = 0#5 <;> simp [h, h0, Vector.getElem_set_ne, hn]

/-- A register but r0 reads what was last written to it. -/
@[simp] theorem readReg_writeReg_same (regs : RegFile) (r : RegIdx) (v : Word) (h : r ≠ 0#5) :
    readReg (writeReg regs r v) r = v := by
  simp [readReg_writeReg, h]

/-- A write leaves every other register alone. -/
@[simp] theorem readReg_writeReg_other (regs : RegFile) (r q : RegIdx) (v : Word) (h : q ≠ r) :
    readReg (writeReg regs r v) q = readReg regs q := by
  simp [readReg_writeReg, h]

@[simp] theorem reg_zero (s : State) : s.reg 0#5 = 0#32 := rfl

/-- A register of a state after writing one. -/
theorem setReg_reg (s : State) (r q : RegIdx) (v : Word) :
    (s.setReg r v).reg q = if q = r ∧ r ≠ 0#5 then v else s.reg q := readReg_writeReg s.regs r q v

/-- Two register files whose slot 0 holds 0 and whose registers read alike are equal. -/
theorem regs_ext (x y : RegFile) (hx : x[0] = 0#32) (hy : y[0] = 0#32) (h : ∀ r, readReg x r = readReg y r) : x = y := by
  apply Vector.ext
  intro k hk
  by_cases h0 : k = 0
  · subst h0; rw [hx, hy]
  · have := h (BitVec.ofNat 5 k)
    have hb : BitVec.ofNat 5 k ≠ 0#5 := by
      intro e
      have := congrArg BitVec.toNat e
      simp at this
      omega
    have hm : k % 32 = k := Nat.mod_eq_of_lt hk
    simpa [readReg, hb, hm] using this

/-- A write keeps slot 0. -/
@[simp] theorem writeReg_slot_zero (regs : RegFile) (r : RegIdx) (v : Word) : (writeReg regs r v)[0] = regs[0] := by
  unfold writeReg
  split
  · rfl
  · next h =>
    have : r.toNat ≠ 0 := fun e => h (BitVec.eq_of_toNat_eq e)
    simp [Vector.getElem_set_ne, this]

/-- The scripted handler's writes keep slot 0. -/
theorem writeRegs_slot_zero (ws : List (RegIdx × Word)) (regs : RegFile) : (writeRegs regs ws)[0] = regs[0] := by
  induction ws generalizing regs with
  | nil => rfl
  | cons w rest ih => rw [writeRegs, ih, writeReg_slot_zero]

end Sys2Proof.Machine
end

