-- ==== Sys2Proof/Laws/Memory.lean ====
section
/-! SUPPORT. The backing store: reading after writing, and that every operation keeps the canonical form. -/

namespace Sys2Proof.Machine

/-! ## Reading after writing -/

theorem memByte_memErase (m : Memory) (a b : Nat) :
    memByte (memErase m a) b = if b = a then unlistedByte else memByte m b := by
  induction m with
  | nil => simp [memErase, memByte]
  | cons c rest ih =>
    obtain ⟨x, v⟩ := c
    simp only [memErase] at ih ⊢
    by_cases hx : x = a
    · subst hx
      by_cases hb : b = x <;> simp_all [memByte]
    · by_cases hb : b = x
      · subst hb; simp [memByte, hx]
      · simp_all [memByte]

theorem memByte_memInsert_other (m : Memory) (a b : Nat) (v : Byte) (h : b ≠ a) :
    memByte (memInsert a v m) b = memByte m b := by
  induction m with
  | nil => simp [memInsert, memByte, h]
  | cons c rest ih =>
    unfold memInsert
    split
    · simp [memByte, h]
    · simp [memByte, ih]

theorem memByte_memInsert_same (m : Memory) (a : Nat) (v : Byte) (h : ∀ c ∈ m, c.1 ≠ a) :
    memByte (memInsert a v m) a = v := by
  induction m with
  | nil => simp [memInsert, memByte]
  | cons c rest ih =>
    unfold memInsert
    split
    · simp [memByte]
    · have hc : a ≠ c.1 := fun e => h c (by simp) e.symm
      simp [memByte, hc, ih fun d hd => h d (by simp [hd])]

/-- A byte of the backing store after one byte is written. -/
theorem memByte_memSet (m : Memory) (a b : Nat) (v : Byte) :
    memByte (memSet m a v) b = if b = a then v else memByte m b := by
  unfold memSet
  split
  · next hv => rw [memByte_memErase, hv]
  · by_cases h : b = a
    · subst h
      rw [memByte_memInsert_same _ _ _ fun c hc => by simpa [memErase] using (List.mem_filter.mp hc).2]
      simp
    · rw [memByte_memInsert_other _ _ _ _ h, memByte_memErase, if_neg h, if_neg h]

/-- A byte of the backing store after a run of bytes is written. -/
theorem memByte_memWriteBytes (vs : List Byte) (m : Memory) (a b : Nat) :
    memByte (memWriteBytes m a vs) b = if h : a ≤ b ∧ b < a + vs.length then vs[b - a] else memByte m b := by
  induction vs generalizing m a with
  | nil => simp [memWriteBytes]
  | cons v vs ih =>
    rw [memWriteBytes, ih, memByte_memSet]
    by_cases h0 : b = a
    · subst h0; simp
    · by_cases h1 : a + 1 ≤ b ∧ b < a + 1 + vs.length
      · have h2 : a ≤ b ∧ b < a + (v :: vs).length := by simp; omega
        rw [dif_pos h1, dif_pos h2, List.getElem_cons]
        have : b - a ≠ 0 := by omega
        simp only [this, dite_false, Nat.sub_sub]
      · have h2 : ¬(a ≤ b ∧ b < a + (v :: vs).length) := by simp; omega
        rw [dif_neg h1, dif_neg h2, if_neg h0]

/-- Bytes outside a written run are unchanged. -/
theorem memByte_memWriteBytes_outside (vs : List Byte) (m : Memory) (a b : Nat) (h : b < a ∨ a + vs.length ≤ b) :
    memByte (memWriteBytes m a vs) b = memByte m b := by
  rw [memByte_memWriteBytes, dif_neg (by omega)]

/-- The bytes of a word give it back (R61). -/
theorem wordOfBytes_bytes (v : Word) :
    wordOfBytes (v.extractLsb' 0 8) (v.extractLsb' 8 8) (v.extractLsb' 16 8) (v.extractLsb' 24 8) = v := by
  unfold wordOfBytes
  ext i hi
  simp only [BitVec.getElem_append, BitVec.getElem_extractLsb']
  split <;> [skip; split <;> [skip; split]] <;> (rw [← BitVec.getLsbD_eq_getElem]; congr 1; omega)

/-- A word reads back as written (R61). -/
theorem bsReadWord_bsWriteWord_same (m : Memory) (a v : Word) : bsReadWord (bsWriteWord m a v) a = v := by
  simp [bsReadWord, bsWriteWord, memByte_memWriteBytes, bytesOfWord, wordOfBytes_bytes]

/-- A byte of the backing store after a word is written (R61). -/
theorem memByte_bsWriteWord_outside (m : Memory) (a v : Word) (b : Nat) (h : b < a.toNat ∨ a.toNat + 4 ≤ b) :
    memByte (bsWriteWord m a v) b = memByte m b :=
  memByte_memWriteBytes_outside _ _ _ _ (by simpa [bytesOfWord] using h)

/-- A byte of the backing store after a block is written (R61). -/
theorem memByte_bsWriteBlock (m : Memory) (p : Word) (d : Vector Byte 16) (b : Nat) :
    memByte (bsWriteBlock m p d) b = if h : p.toNat ≤ b ∧ b < p.toNat + 16 then d[b - p.toNat] else memByte m b := by
  simp [bsWriteBlock, memByte_memWriteBytes]

/-- Byte `o` of a block read is the byte at its address (R61). -/
theorem lineByte_bsReadBlock (m : Memory) (p : Word) (o : BitVec 4) :
    lineByte (bsReadBlock m p) o = memByte m (p.toNat + o.toNat) := by
  have key : ∀ k (h : k < 16), (bsReadBlock m p)[k] = memByte m (p.toNat + k) := by
    intro k h
    interval_cases k <;> rfl
  exact key o.toNat o.isLt

/-! ## The canonical form -/

/-- The addresses of the list all lie above `a`. -/
def above (a : Nat) (m : Memory) : Prop := ∀ c ∈ m, a < c.1

/-- The canonical form, with the tail's addresses all above the head's. -/
theorem wf_cons (c : Host.Cell) (m : Memory) :
    Memory.wf (c :: m) = true ↔ c.1 < 2 ^ 32 ∧ c.2 ≠ unlistedByte ∧ above c.1 m ∧ Memory.wf m = true := by
  induction m generalizing c with
  | nil => simp [Memory.wf, above]
  | cons d rest ih =>
    have hd := ih d
    constructor
    · intro h
      simp only [Memory.wf, Bool.and_eq_true, decide_eq_true_eq] at h
      obtain ⟨⟨h1, h2⟩, h3⟩ := h
      obtain ⟨e1, e2, e3, e4⟩ := hd.mp h3
      refine ⟨by omega, h2, ?_, h3⟩
      intro x hx
      rcases List.mem_cons.mp hx with rfl | hx
      · exact h1
      · exact lt_trans h1 (e3 x hx)
    · rintro ⟨_, h2, h3, h4⟩
      simp only [Memory.wf, Bool.and_eq_true, decide_eq_true_eq]
      exact ⟨⟨h3 d (by simp), h2⟩, h4⟩

theorem memErase_wf (m : Memory) (a : Nat) (h : Memory.wf m = true) : Memory.wf (memErase m a) = true := by
  induction m with
  | nil => exact h
  | cons c rest ih =>
    obtain ⟨h1, h2, h3, h4⟩ := (wf_cons c rest).mp h
    simp only [memErase, List.filter_cons] at ih ⊢
    split
    · exact (wf_cons _ _).mpr ⟨h1, h2, fun x hx => h3 x (List.mem_of_mem_filter hx), ih h4⟩
    · exact ih h4

theorem memInsert_mem (m : Memory) (a : Nat) (v : Byte) (c : Host.Cell) :
    c ∈ memInsert a v m → c = (a, v) ∨ c ∈ m := by
  induction m with
  | nil => simp [memInsert]
  | cons d rest ih =>
    unfold memInsert
    split
    · simp
    · intro h
      rcases List.mem_cons.mp h with rfl | h
      · simp
      · rcases ih h with h | h <;> simp [h]

theorem memInsert_wf (m : Memory) (a : Nat) (v : Byte) (h : Memory.wf m = true) (ha : a < 2 ^ 32) (hv : v ≠ unlistedByte)
    (hn : ∀ c ∈ m, c.1 ≠ a) : Memory.wf (memInsert a v m) = true := by
  induction m with
  | nil => simpa [memInsert, Memory.wf, hv] using ha
  | cons c rest ih =>
    obtain ⟨h1, h2, h3, h4⟩ := (wf_cons c rest).mp h
    unfold memInsert
    split
    · next hlt =>
      refine (wf_cons _ _).mpr ⟨ha, hv, ?_, h⟩
      intro x hx
      rcases List.mem_cons.mp hx with rfl | hx
      · exact hlt
      · exact lt_trans hlt (h3 x hx)
    · next hlt =>
      have hne := hn c (by simp)
      refine (wf_cons _ _).mpr ⟨h1, h2, ?_, ih h4 fun d hd => hn d (by simp [hd])⟩
      intro x hx
      rcases memInsert_mem _ _ _ _ hx with rfl | hx
      · show c.1 < a; omega
      · exact h3 x hx

/-- Writing a byte keeps the canonical form. -/
theorem memSet_wf (m : Memory) (a : Nat) (v : Byte) (h : Memory.wf m = true) (ha : a < 2 ^ 32) :
    Memory.wf (memSet m a v) = true := by
  unfold memSet
  split
  · exact memErase_wf m a h
  · next hv =>
    exact memInsert_wf _ a v (memErase_wf m a h) ha hv fun c hc => by simpa [memErase] using (List.mem_filter.mp hc).2

/-- Writing a run of bytes inside the address space keeps the canonical form. -/
theorem memWriteBytes_wf (vs : List Byte) (m : Memory) (a : Nat) (h : Memory.wf m = true) (ha : a + vs.length ≤ 2 ^ 32) :
    Memory.wf (memWriteBytes m a vs) = true := by
  induction vs generalizing m a with
  | nil => exact h
  | cons v vs ih =>
    simp only [List.length_cons] at ha
    exact ih _ _ (memSet_wf m a v h (by omega)) (by omega)

/-- A 4-aligned address leaves room for a word. -/
theorem aligned4_room (a : Word) (h : a.extractLsb' 0 2 = 0#2) : a.toNat % 4 = 0 ∧ a.toNat + 4 ≤ 2 ^ 32 := by
  have := congrArg BitVec.toNat h
  simp [BitVec.extractLsb'_toNat] at this
  omega

/-- `BSWriteWord` keeps the canonical form (R61). -/
theorem bsWriteWord_wf (m : Memory) (a v : Word) (h : Memory.wf m = true) (ha : a.extractLsb' 0 2 = 0#2) :
    Memory.wf (bsWriteWord m a v) = true :=
  memWriteBytes_wf _ _ _ h (by simpa [bytesOfWord] using (aligned4_room a ha).2)

/-- A block address is a multiple of 16 and leaves room for the block (R73). -/
theorem blockAddr_toNat (t : BitVec 24) (i : BitVec 4) : (blockAddr t i).toNat = t.toNat * 256 + i.toNat * 16 := by
  unfold blockAddr
  have hi := i.isLt
  rw [BitVec.toNat_append, BitVec.toNat_append]
  simp only [BitVec.toNat_ofNat, Nat.zero_mod, Nat.or_zero]
  rw [← Nat.shiftLeft_add_eq_or_of_lt (by simpa using hi)]
  simp [Nat.shiftLeft_eq]
  omega

theorem blockAddr_room (t : BitVec 24) (i : BitVec 4) :
    (blockAddr t i).toNat % 16 = 0 ∧ (blockAddr t i).toNat + 16 ≤ 2 ^ 32 := by
  have := t.isLt
  have := i.isLt
  rw [blockAddr_toNat]
  omega

/-- `BSWriteBlock` of a line keeps the canonical form (R61). -/
theorem bsWriteBlock_wf (m : Memory) (t : BitVec 24) (i : BitVec 4) (d : Vector Byte 16) (h : Memory.wf m = true) :
    Memory.wf (bsWriteBlock m (blockAddr t i) d) = true :=
  memWriteBytes_wf _ _ _ h (by simpa using (blockAddr_room t i).2)

/-- An 8-aligned address leaves room for an instruction. -/
theorem aligned8_room (p : Word) (h : aligned8 p) : p.toNat % 8 = 0 ∧ p.toNat + 8 ≤ 2 ^ 32 := by
  have := congrArg BitVec.toNat h
  simp [BitVec.extractLsb'_toNat] at this
  omega

/-- Storing an instruction word keeps the canonical form (R101). -/
theorem bsWriteInsn_wf (m : Memory) (p : Word) (insn : DWord) (h : Memory.wf m = true) (hp : aligned8 p) :
    Memory.wf (bsWriteInsn m p insn) = true :=
  memWriteBytes_wf _ _ _ h (by simpa [bytesOfInsn] using (aligned8_room p hp).2)

/-- Loading an image inside the address space keeps the canonical form (R281). -/
theorem memOfImage_wf (image : List Host.Cell) (m : Memory) (h : Memory.wf m = true) (ha : ∀ c ∈ image, c.1 < 2 ^ 32) :
    Memory.wf (memOfImage m image) = true := by
  induction image generalizing m with
  | nil => exact h
  | cons c rest ih =>
    obtain ⟨a, v⟩ := c
    exact ih _ (memSet_wf m a v h (ha (a, v) (by simp))) fun d hd => ha d (by simp [hd])

/-- Loading instruction words from an 8-aligned address keeps the canonical form (R281). -/
theorem loadInsns_wf (code : List DWord) (m : Memory) (p : Word) (h : Memory.wf m = true) (hp : aligned8 p) :
    Memory.wf (loadInsns m p code) = true := by
  induction code generalizing m p with
  | nil => exact h
  | cons w rest ih =>
    refine ih _ _ (bsWriteInsn_wf m p w h hp) ?_
    have h1 := congrArg BitVec.toNat hp
    apply BitVec.eq_of_toNat_eq
    simp [BitVec.extractLsb'_toNat, BitVec.toNat_add] at h1 ⊢
    omega

/-- The backing store of State.reset is in canonical form. -/
theorem reset_memory_wf : Memory.wf State.reset.mem.bs = true := rfl

end Sys2Proof.Machine
end

