-- ==== Sys2Proof/Laws/Cache.lean ====
section
/-! SUPPORT. The cache: the address split, lines and sets, and what one access, one flush and one handler byte do to the
memory a program observes (20_memory.md R73 to R89, 45_system.md R242). -/

namespace Sys2Proof.Machine

/-! ## The address split (R73) -/

theorem addr_split (a : Word) : a.toNat = (blockAddr (tagOf a) (indexOf a)).toNat + (offsetOf a).toNat := by
  rw [blockAddr_toNat]
  simp [tagOf, indexOf, offsetOf, BitVec.extractLsb'_toNat, Nat.shiftRight_eq_div_pow]
  omega

@[simp] theorem tagOf_blockAddr (t : BitVec 24) (i o : BitVec 4) :
    tagOf (blockAddr t i + o.setWidth 32) = t := by
  apply BitVec.eq_of_toNat_eq
  have := t.isLt; have := i.isLt; have := o.isLt
  simp [tagOf, BitVec.extractLsb'_toNat, Nat.shiftRight_eq_div_pow, BitVec.toNat_add, blockAddr_toNat]
  omega

@[simp] theorem indexOf_blockAddr (t : BitVec 24) (i o : BitVec 4) :
    indexOf (blockAddr t i + o.setWidth 32) = i := by
  apply BitVec.eq_of_toNat_eq
  have := t.isLt; have := i.isLt; have := o.isLt
  simp [indexOf, BitVec.extractLsb'_toNat, Nat.shiftRight_eq_div_pow, BitVec.toNat_add, blockAddr_toNat]
  omega

/-- Two blocks overlap only if they are one block. -/
theorem block_inj {t u : BitVec 24} {i j : BitVec 4} {x y : Nat} (hx : x < 16) (hy : y < 16)
    (h : (blockAddr t i).toNat + x = (blockAddr u j).toNat + y) : t = u ∧ i = j ∧ x = y := by
  rw [blockAddr_toNat, blockAddr_toNat] at h
  have := i.isLt; have := j.isLt
  refine ⟨BitVec.eq_of_toNat_eq ?_, BitVec.eq_of_toNat_eq ?_, ?_⟩ <;> omega

/-- An address is its tag, its index and its offset. -/
theorem addr_ext {a b : Word} (ht : tagOf a = tagOf b) (hi : indexOf a = indexOf b) (ho : offsetOf a = offsetOf b) :
    a = b := by
  apply BitVec.eq_of_toNat_eq
  rw [addr_split a, addr_split b, ht, hi, ho]

/-- The addresses of an aligned word lie in one block, at successive offsets. -/
theorem word_in_block (a : Word) (k : Nat) (hk : k < 4) (h : a.toNat % 4 = 0) :
    tagOf (a + BitVec.ofNat 32 k) = tagOf a ∧ indexOf (a + BitVec.ofNat 32 k) = indexOf a ∧
      offsetOf (a + BitVec.ofNat 32 k) = offsetOf a + BitVec.ofNat 4 k ∧
      (a + BitVec.ofNat 32 k).toNat = a.toNat + k := by
  have := a.isLt
  refine ⟨BitVec.eq_of_toNat_eq ?_, BitVec.eq_of_toNat_eq ?_, BitVec.eq_of_toNat_eq ?_, ?_⟩ <;>
    simp [tagOf, indexOf, offsetOf, BitVec.extractLsb'_toNat, Nat.shiftRight_eq_div_pow, BitVec.toNat_add] <;> omega

/-- An address four or more past `a`, modulo 2^32, is none of the four from `a` on. -/
theorem outside_word {a b : Word} (hb : 4 ≤ (b - a).toNat) (k : Nat) (hk : k < 4) :
    b ≠ a + BitVec.ofNat 32 k := by
  intro e
  subst e
  simp at hb
  omega

/-! ## Lines -/

theorem lineByte_setLineByte (d : Vector Byte 16) (o p : BitVec 4) (v : Byte) :
    lineByte (setLineByte d o v) p = if p = o then v else lineByte d p := by
  unfold lineByte setLineByte
  by_cases h : p = o
  · subst h; simp
  · have : o.toNat ≠ p.toNat := fun e => h (BitVec.eq_of_toNat_eq e.symm)
    simp [h, Vector.getElem_set_ne, this]

/-- Two lines' data are equal if they agree on every byte. -/
theorem data_ext (d e : Vector Byte 16) (h : ∀ o, lineByte d o = lineByte e o) : d = e := by
  apply Vector.ext
  intro k hk
  have := h (BitVec.ofNat 4 k)
  simpa [lineByte, Nat.mod_eq_of_lt hk] using this

/-! ## Sets -/

theorem getSet_putSet (sets : Vector (List Line) 16) (i j : BitVec 4) (ls : List Line) :
    getSet (putSet sets i ls) j = if j = i then ls else getSet sets j := by
  unfold getSet putSet
  by_cases h : j = i
  · subst h; simp
  · have : i.toNat ≠ j.toNat := fun e => h (BitVec.eq_of_toNat_eq e.symm)
    simp [h, Vector.getElem_set_ne, this]

@[simp] theorem getSet_putSet_same (sets : Vector (List Line) 16) (i : BitVec 4) (ls : List Line) :
    getSet (putSet sets i ls) i = ls := by simp [getSet_putSet]

@[simp] theorem getSet_putSet_other (sets : Vector (List Line) 16) (i j : BitVec 4) (ls : List Line) (h : j ≠ i) :
    getSet (putSet sets i ls) j = getSet sets j := by simp [getSet_putSet, h]

@[simp] theorem getSet_map (sets : Vector (List Line) 16) (f : List Line → List Line) (i : BitVec 4) :
    getSet (sets.map f) i = f (getSet sets i) := by simp [getSet]

@[simp] theorem getSet_empty (i : BitVec 4) : getSet Cache.empty.sets i = [] := by simp [getSet, Cache.empty]

@[simp] theorem findLine_nil (t : BitVec 24) : findLine [] t = none := rfl

theorem findLine_cons (l : Line) (ls : List Line) (t : BitVec 24) :
    findLine (l :: ls) t = if l.tag = t then some l else findLine ls t := by
  simp only [findLine, List.find?_cons]
  by_cases h : l.tag = t
  · simp [h]
  · simp [h, beq_eq_false_iff_ne.mpr h]

theorem findLine_append (xs ys : List Line) (t : BitVec 24) :
    findLine (xs ++ ys) t = (findLine xs t).or (findLine ys t) := List.find?_append

theorem findLine_some {ls : List Line} {t : BitVec 24} {l : Line} (h : findLine ls t = some l) : l ∈ ls ∧ l.tag = t :=
  ⟨List.mem_of_find?_eq_some h, by simpa using List.find?_some h⟩

theorem findLine_eq_none {ls : List Line} {t : BitVec 24} : findLine ls t = none ↔ t ∉ ls.map (·.tag) := by
  simp only [findLine, List.find?_eq_none, List.mem_map, not_exists, not_and]
  exact ⟨fun h x hx e => h x hx (by simp [e]), fun h x hx e => h x hx (by simpa using e)⟩

theorem findLine_of_mem {ls : List Line} {l : Line} (hd : (ls.map (·.tag)).Nodup) (h : l ∈ ls) :
    findLine ls l.tag = some l := by
  induction ls with
  | nil => cases h
  | cons x xs ih =>
    simp only [List.map_cons, List.nodup_cons] at hd
    rw [findLine_cons]
    rcases List.mem_cons.mp h with rfl | h
    · simp
    · have : x.tag ≠ l.tag := fun e => hd.1 (e ▸ List.mem_map_of_mem (f := (·.tag)) h)
      simp [this, ih hd.2 h]

theorem mem_withoutLine {ls : List Line} {t : BitVec 24} {l : Line} (h : l ∈ withoutLine ls t) : l ∈ ls :=
  List.mem_of_mem_eraseP h

theorem withoutLine_tags (ls : List Line) (t : BitVec 24) : (withoutLine ls t).map (·.tag) = (ls.map (·.tag)).erase t := by
  induction ls with
  | nil => rfl
  | cons l ls ih =>
    simp only [withoutLine, List.eraseP_cons, List.map_cons, List.erase_cons] at ih ⊢
    by_cases h : l.tag = t
    · simp [h]
    · simp [beq_eq_false_iff_ne.mpr h, ih]

theorem findLine_withoutLine {ls : List Line} {t : BitVec 24} (u : BitVec 24) (h : u ≠ t) :
    findLine (withoutLine ls t) u = findLine ls u := by
  induction ls with
  | nil => rfl
  | cons l ls ih =>
    simp only [withoutLine, List.eraseP_cons] at ih ⊢
    by_cases hl : l.tag = t
    · simp [hl, findLine_cons, h.symm]
    · simp [beq_eq_false_iff_ne.mpr hl, findLine_cons, ih]

theorem withoutLine_length {ls : List Line} {t : BitVec 24} {l : Line} (h : findLine ls t = some l) :
    (withoutLine ls t).length + 1 = ls.length := by
  obtain ⟨hm, ht⟩ := findLine_some h
  rw [withoutLine, List.length_eraseP_of_mem hm (by simp [ht])]
  have : 0 < ls.length := List.length_pos_of_mem hm
  omega

/-! ## One set over the backing store -/

/-- The byte at `a` of a set's lines laid over a backing store. -/
def setByte (ls : List Line) (bs : Memory) (a : Word) : Byte :=
  match findLine ls (tagOf a) with
  | some l => lineByte l.data (offsetOf a)
  | none => memByte bs a.toNat

theorem archByte_eq (m : MemSys) (a : Word) : archByte m a = setByte (getSet m.cache.sets (indexOf a)) m.bs a := rfl

/-- The part of `MemInv` about one set and the backing store. -/
structure SetInv (i : BitVec 4) (ls : List Line) (bs : Memory) : Prop where
  tagsDistinct : (ls.map (·.tag)).Nodup
  waysBounded : ls.length ≤ 4
  cleanAsStored : ∀ l ∈ ls, l.dirty = false → ∀ o : BitVec 4,
    lineByte l.data o = memByte bs ((blockAddr l.tag i).toNat + o.toNat)

/-- The part of `MemInv` about the lines and the backing store; counting an access keeps it. -/
structure LinesInv (m : MemSys) : Prop where
  canonical : Memory.wf m.bs = true
  set : ∀ i, SetInv i (getSet m.cache.sets i) m.bs

theorem MemInv.lines {cfg : Config} {m : MemSys} (h : MemInv cfg m) : LinesInv m :=
  ⟨h.canonical, fun i => ⟨h.tagsDistinct i, h.waysBounded i, h.cleanAsStored i⟩⟩

/-- Counters are no part of the lines' invariant. -/
theorem LinesInv.counters {m : MemSys} (h : LinesInv m) (c : Counters) :
    LinesInv { m with cache := { m.cache with ctr := c } } := ⟨h.canonical, h.set⟩

/-- `MemInv` set by set. -/
theorem MemInv.of_sets {cfg : Config} {m : MemSys} (h1 : Memory.wf m.bs = true)
    (h2 : ∀ i, SetInv i (getSet m.cache.sets i) m.bs)
    (h5 : ∀ i, ∀ l ∈ getSet m.cache.sets i, memValid cfg (blockAddr l.tag i) = true) (h3 : cfg.cacheEnabled = false → ∀ i, getSet m.cache.sets i = [])
    (h4 : cfg.cacheEnabled = true → m.cache.ctr.hits + m.cache.ctr.misses = m.cache.ctr.accesses) : MemInv cfg m :=
  ⟨h1, fun i => (h2 i).tagsDistinct, fun i => (h2 i).waysBounded, fun i => (h2 i).cleanAsStored,
    h5, h3, h4⟩

/-- A set's invariant rests only on the backing store's bytes in the blocks of its lines. -/
theorem SetInv.congr_bs {i : BitVec 4} {ls : List Line} {bs bs' : Memory} (h : SetInv i ls bs)
    (e : ∀ l ∈ ls, l.dirty = false → ∀ o : BitVec 4,
      memByte bs' ((blockAddr l.tag i).toNat + o.toNat) = memByte bs ((blockAddr l.tag i).toNat + o.toNat)) :
    SetInv i ls bs' :=
  ⟨h.tagsDistinct, h.waysBounded, fun l hl hc o => by rw [e l hl hc o]; exact h.cleanAsStored l hl hc o⟩

/-- A line's block written back changes the backing store in that block only. -/
theorem memByte_writeBack (bs : Memory) (t : BitVec 24) (i : BitVec 4) (d : Vector Byte 16) (u : BitVec 24) (j o : BitVec 4) :
    memByte (bsWriteBlock bs (blockAddr t i) d) ((blockAddr u j).toNat + o.toNat) =
      if u = t ∧ j = i then lineByte d o else memByte bs ((blockAddr u j).toNat + o.toNat) := by
  rw [memByte_bsWriteBlock]
  have ho := o.isLt
  by_cases h : u = t ∧ j = i
  · obtain ⟨rfl, rfl⟩ := h
    rw [dif_pos ⟨by omega, by omega⟩]
    simp [lineByte]
  · rw [dif_neg, if_neg h]
    rintro ⟨h1, h2⟩
    have h3 : (blockAddr u j).toNat + o.toNat = (blockAddr t i).toNat + ((blockAddr u j).toNat + o.toNat - (blockAddr t i).toNat) := by
      omega
    obtain ⟨e1, e2, _⟩ := block_inj ho (by omega) h3
    exact h ⟨e1, e2⟩

/-- Byte `a` of the backing store after a block is written back. -/
theorem memByte_writeBack_addr (bs : Memory) (t : BitVec 24) (i : BitVec 4) (d : Vector Byte 16) (a : Word) :
    memByte (bsWriteBlock bs (blockAddr t i) d) a.toNat =
      if tagOf a = t ∧ indexOf a = i then lineByte d (offsetOf a) else memByte bs a.toNat := by
  rw [addr_split a, memByte_writeBack]

/-! ## Making room (R82) -/

/-- Everything making room does: at most three lines are left, all of the set; no byte a program observes changes; other
sets' bytes of the backing store stay. -/
theorem makeRoom_spec (i : BitVec 4) (ls : List Line) (c : Counters) (bs : Memory)
    (h : SetInv i ls bs) (hw : Memory.wf bs = true) :
    let r := makeRoom i ls c bs
    SetInv i r.lines r.bs ∧ r.lines.length ≤ 3 ∧ List.Sublist r.lines ls ∧ Memory.wf r.bs = true ∧
      (∀ a, indexOf a = i → setByte r.lines r.bs a = setByte ls bs a) ∧
      (∀ a : Word, indexOf a ≠ i → memByte r.bs a.toNat = memByte bs a.toNat) ∧
      ∀ t j (o : BitVec 4), j ≠ i → memByte r.bs ((blockAddr t j).toNat + o.toNat) = memByte bs ((blockAddr t j).toNat + o.toNat) := by
  unfold makeRoom
  by_cases hl : ls.length = 4
  · rw [if_pos hl]
    obtain ⟨init, v, rfl⟩ : ∃ init v, ls = init ++ [v] :=
      ⟨ls.dropLast, ls.getLast (by rintro rfl; simp at hl), (List.dropLast_append_getLast _).symm⟩
    have hd := h.tagsDistinct
    simp only [List.map_append, List.map_cons, List.map_nil, List.nodup_append, List.mem_singleton, forall_eq] at hd
    have hne : ∀ l ∈ init, l.tag ≠ v.tag := fun l hm => hd.2.2 l.tag (List.mem_map_of_mem hm)
    have hfind : findLine init v.tag = none :=
      findLine_eq_none.mpr fun hm => by
        obtain ⟨l, hl, e⟩ := List.mem_map.mp hm
        exact hne l hl e
    have hlen : init.length = 3 := by simpa using hl
    have hsub : List.Sublist init (init ++ [v]) := List.sublist_append_left _ _
    have base : SetInv i init bs :=
      ⟨hd.1, by omega, fun l hm => h.cleanAsStored l (by simp [hm])⟩
    simp only [List.getLast?_append, List.getLast?_singleton, Option.some_or, List.dropLast_concat]
    by_cases hv : v.dirty = true
    · rw [if_pos hv]
      refine ⟨base.congr_bs fun l hm _ o => ?_, hlen.le, hsub, bsWriteBlock_wf _ _ _ _ hw, ?_, ?_, ?_⟩
      · rw [memByte_writeBack, if_neg fun e => hne l hm e.1]
      · intro a ha
        simp only [setByte, findLine_append, findLine_cons, findLine_nil]
        by_cases ht : tagOf a = v.tag
        · rw [ht, hfind]
          simp [memByte_writeBack_addr, ht, ha]
        · cases hf : findLine init (tagOf a) with
          | some l => simp
          | none => simp [Ne.symm ht, memByte_writeBack_addr, ht]
      · intro a ha
        rw [memByte_writeBack_addr, if_neg fun e => ha e.2]
      · intro t j o hj
        rw [memByte_writeBack, if_neg fun e => hj e.2]
    · rw [if_neg hv]
      refine ⟨base, hlen.le, hsub, hw, ?_, fun _ _ => rfl, fun _ _ _ _ => rfl⟩
      intro a ha
      simp only [setByte, findLine_append, findLine_cons, findLine_nil]
      by_cases ht : tagOf a = v.tag
      · rw [ht, hfind]
        have hc := h.cleanAsStored v (by simp) (by simpa using hv) (offsetOf a)
        simp [hc, addr_split a, ht, ha]
      · cases hf : findLine init (tagOf a) with
        | some l => simp
        | none => simp [Ne.symm ht]
  · rw [if_neg hl]
    have := h.waysBounded
    exact ⟨h, by simp only; omega, List.Sublist.refl _, hw, fun _ _ => rfl, fun _ _ => rfl, fun _ _ _ _ => rfl⟩

/-- What making room counts. -/
theorem makeRoom_ctr (i : BitVec 4) (ls : List Line) (c : Counters) (bs : Memory) :
    (makeRoom i ls c bs).ctr = { c with
      replacements := (if ls.length = 4 then c.replacements + 1 else c.replacements)
      writebacks := (if ls.length = 4 ∧ (ls.getLast?.map (·.dirty)) = some true then c.writebacks + 1 else c.writebacks) } := by
  unfold makeRoom
  by_cases hl : ls.length = 4
  · rw [if_pos hl]
    obtain ⟨v, hv⟩ : ∃ v, ls.getLast? = some v := by
      cases h : ls.getLast? with
      | none => simp [List.getLast?_eq_none_iff] at h; simp [h] at hl
      | some v => exact ⟨v, rfl⟩
    rw [hv]
    cases hd : v.dirty <;> simp [hl, hd]
  · simp [hl]

/-- Which lines making room leaves. -/
theorem makeRoom_lines (i : BitVec 4) (ls : List Line) (c : Counters) (bs : Memory) :
    (makeRoom i ls c bs).lines = if ls.length = 4 then ls.dropLast else ls := by
  unfold makeRoom
  by_cases hl : ls.length = 4
  · rw [if_pos hl, if_pos hl]
    cases h : ls.getLast? with
    | none => simp [List.getLast?_eq_none_iff] at h; simp [h] at hl
    | some v => simp only; split <;> rfl
  · simp [hl]

/-- What making room does to the backing store (R82): the block of a dirty line that is dropped is written, and nothing
else. -/
theorem makeRoom_bs (i : BitVec 4) (ls : List Line) (c : Counters) (bs : Memory) :
    (∀ x, ls.length = 4 → ls.getLast? = some x → x.dirty = true →
        (makeRoom i ls c bs).bs = bsWriteBlock bs (blockAddr x.tag i) x.data) ∧
      ((ls.length ≠ 4 ∨ ∀ x, ls.getLast? = some x → x.dirty = false) → (makeRoom i ls c bs).bs = bs) := by
  unfold makeRoom
  refine ⟨fun x hl hx hd => by simp [hl, hx, hd], fun h => ?_⟩
  by_cases hl : ls.length = 4
  · cases hx : ls.getLast? with
    | none => simp [hl]
    | some x => simp [hl, (h.resolve_left (absurd hl)) x hx]
  · simp [hl]

theorem makeRoom_wf (i : BitVec 4) (ls : List Line) (c : Counters) (bs : Memory) (hw : Memory.wf bs = true) :
    Memory.wf (makeRoom i ls c bs).bs = true := by
  unfold makeRoom
  split
  · split
    · split
      · exact bsWriteBlock_wf _ _ _ _ hw
      · exact hw
    · exact hw
  · exact hw

/-! ## The line that serves an access (R77 to R83) -/

/-- A hit is served by the line that matches (R78). -/
theorem locate_hit (cfg : Config) (a : Word) (m : MemSys) {l : Line}
    (h : findLine (getSet m.cache.sets (indexOf a)) (tagOf a) = some l) :
    locate cfg a m = ⟨l, withoutLine (getSet m.cache.sets (indexOf a)) (tagOf a), countHit cfg m.cache.ctr, m.bs⟩ := by
  simp only [locate, h]

/-- A miss is served by a line filled after room is made (R81 to R83). -/
theorem locate_miss (cfg : Config) (a : Word) (m : MemSys)
    (h : findLine (getSet m.cache.sets (indexOf a)) (tagOf a) = none) :
    locate cfg a m =
      let r := makeRoom (indexOf a) (getSet m.cache.sets (indexOf a)) (countMiss cfg m.cache.ctr) m.bs
      ⟨⟨tagOf a, false, bsReadBlock r.bs (blockAddr (tagOf a) (indexOf a))⟩, r.lines, r.ctr, r.bs⟩ := by
  simp only [locate, h]

/-- Everything locating a line does: it is the line of the address, the lines of the set stay a legal set, no byte a program
observes changes, and no other set's byte of the backing store does. -/
theorem locate_spec (cfg : Config) (a : Word) (m : MemSys) (h : LinesInv m)
    :
    let p := locate cfg a m
    p.line.tag = tagOf a ∧ SetInv (indexOf a) (p.line :: p.others) p.bs ∧ Memory.wf p.bs = true ∧
      (∀ b, indexOf b = indexOf a → setByte (p.line :: p.others) p.bs b = archByte m b) ∧
      (∀ b : Word, indexOf b ≠ indexOf a → memByte p.bs b.toNat = memByte m.bs b.toNat) ∧
      ∀ t j (o : BitVec 4), j ≠ indexOf a →
        memByte p.bs ((blockAddr t j).toNat + o.toNat) = memByte m.bs ((blockAddr t j).toNat + o.toNat) := by
  have hs := h.set (indexOf a)
  cases hf : findLine (getSet m.cache.sets (indexOf a)) (tagOf a) with
  | some l =>
    rw [locate_hit cfg a m hf]
    obtain ⟨hm, ht⟩ := findLine_some hf
    refine ⟨ht, ⟨?_, ?_, ?_⟩, h.canonical, ?_, fun _ _ => rfl, fun _ _ _ _ => rfl⟩
    · rw [List.map_cons, ht, withoutLine_tags, List.nodup_cons]
      exact ⟨fun hx => (hs.tagsDistinct.mem_erase_iff.mp hx).1 rfl, hs.tagsDistinct.erase _⟩
    · rw [List.length_cons, withoutLine_length hf]; exact hs.waysBounded
    · intro x hx
      rcases List.mem_cons.mp hx with rfl | hx
      · exact hs.cleanAsStored _ hm
      · exact hs.cleanAsStored _ (mem_withoutLine hx)
    · intro b hb
      rw [archByte_eq, hb]
      simp only [setByte, findLine_cons]
      by_cases e : tagOf b = tagOf a
      · rw [e, if_pos ht, hf]
      · rw [if_neg (by rw [ht]; exact Ne.symm e), findLine_withoutLine _ e]
  | none =>
    rw [locate_miss cfg a m hf]
    obtain ⟨r1, r2, r3, r4, r5, r6, r7⟩ := makeRoom_spec (indexOf a) _ (countMiss cfg m.cache.ctr) m.bs hs h.canonical
    have hnew : tagOf a ∉ ((makeRoom (indexOf a) (getSet m.cache.sets (indexOf a)) (countMiss cfg m.cache.ctr) m.bs).lines).map
        (·.tag) := fun hx => findLine_eq_none.mp hf ((r3.map _).subset hx)
    refine ⟨rfl, ⟨?_, ?_, ?_⟩, r4, ?_, r6, r7⟩
    · exact List.nodup_cons.mpr ⟨hnew, r1.tagsDistinct⟩
    · simp only [List.length_cons]; omega
    · intro x hx
      rcases List.mem_cons.mp hx with rfl | hx
      · intro _ o; exact lineByte_bsReadBlock _ _ _
      · exact r1.cleanAsStored _ hx
    · intro b hb
      rw [archByte_eq, hb, ← r5 b hb]
      simp only [setByte, findLine_cons]
      by_cases e : tagOf b = tagOf a
      · rw [e, if_pos rfl, findLine_eq_none.mpr hnew]
        simp only [lineByte_bsReadBlock, addr_split b, e, hb]
      · rw [if_neg (Ne.symm e)]

theorem locate_wf (cfg : Config) (a : Word) (m : MemSys) (hw : Memory.wf m.bs = true) :
    Memory.wf (locate cfg a m).bs = true := by
  unfold locate
  simp only
  split
  · exact hw
  · exact makeRoom_wf _ _ _ _ hw

/-- Byte `o` of the line that serves an access is the byte a program observes there. -/
theorem locate_lineByte (cfg : Config) (a b : Word) (m : MemSys) (h : LinesInv m)
    (ht : tagOf b = tagOf a) (hi : indexOf b = indexOf a) :
    lineByte (locate cfg a m).line.data (offsetOf b) = archByte m b := by
  obtain ⟨l1, _, _, l4, _⟩ := locate_spec cfg a m h
  rw [← l4 b hi]
  simp [setByte, findLine_cons, l1, ht]

/-! ## Aligned words -/

/-- A word of a line at an aligned offset is the word at the four addresses. -/
theorem locate_lineWord (cfg : Config) (a : Word) (m : MemSys) (h : LinesInv m)
    (ha : a.toNat % 4 = 0) :
    lineWord (locate cfg a m).line.data (offsetOf a) = archWord m a := by
  obtain ⟨t1, i1, o1, _⟩ := word_in_block a 1 (by omega) ha
  obtain ⟨t2, i2, o2, _⟩ := word_in_block a 2 (by omega) ha
  obtain ⟨t3, i3, o3, _⟩ := word_in_block a 3 (by omega) ha
  unfold lineWord archWord
  rw [← locate_lineByte cfg a a m h rfl rfl, ← locate_lineByte cfg a _ m h t1 i1,
    ← locate_lineByte cfg a _ m h t2 i2, ← locate_lineByte cfg a _ m h t3 i3, o1, o2, o3]

/-- The bytes of a line after a word is written into it. -/
theorem lineByte_setLineWord (d : Vector Byte 16) (o p : BitVec 4) (v : Word) :
    lineByte (setLineWord d o v) p =
      if p = o + 3#4 then v.extractLsb' 24 8 else if p = o + 2#4 then v.extractLsb' 16 8
        else if p = o + 1#4 then v.extractLsb' 8 8 else if p = o then v.extractLsb' 0 8 else lineByte d p := by
  simp only [setLineWord, lineByte_setLineByte]

/-- The backing store's word is made of its bytes. -/
theorem bsReadWord_bytes (m : Memory) (a : Word) (ha : a.toNat % 4 = 0) :
    bsReadWord m a = wordOfBytes (memByte m a.toNat) (memByte m (a + 1#32).toNat) (memByte m (a + 2#32).toNat)
      (memByte m (a + 3#32).toNat) := by
  obtain ⟨_, _, _, e1⟩ := word_in_block a 1 (by omega) ha
  obtain ⟨_, _, _, e2⟩ := word_in_block a 2 (by omega) ha
  obtain ⟨_, _, _, e3⟩ := word_in_block a 3 (by omega) ha
  unfold bsReadWord
  rw [e1, e2, e3]

/-! ## The access check (R74) -/

theorem low2_zero (a : Word) : a.extractLsb' 0 2 = 0#2 ↔ a.toNat % 4 = 0 := by
  rw [← BitVec.toNat_inj]
  simp [BitVec.extractLsb'_toNat]

/-- R74 as one equation. -/
theorem accessFault_eq (cfg : Config) (a : Word) :
    accessFault? cfg a = if a.toNat % 4 ≠ 0 then some .misalignedAccess
      else if memValid cfg a = false then some .outOfRange else none := by
  simp only [accessFault?, ne_eq, low2_zero]

/-- An access passes the check exactly when its address is aligned and in range. -/
theorem accessFault_none (cfg : Config) (a : Word) :
    accessFault? cfg a = none ↔ a.toNat % 4 = 0 ∧ memValid cfg a = true := by
  rw [accessFault_eq]
  by_cases h : a.toNat % 4 = 0 <;> cases hv : memValid cfg a <;> simp [h]

/-- Everything a data access can answer. -/
theorem cacheAccess_cases (cfg : Config) (kind : AccessKind) (a v : Word) (m : MemSys) :
    (∃ k, accessFault? cfg a = some k ∧ cacheAccess cfg kind a v m = .fault k) ∨
      (accessFault? cfg a = none ∧
        let m1 : MemSys := { m with cache := { m.cache with ctr := countAccess m.cache.ctr } }
        let r := if cfg.cacheEnabled then throughCache cfg kind a v m1 else passThrough kind a v m1
        cacheAccess cfg kind a v m = .ok r.1 r.2) := by
  unfold cacheAccess
  cases h : accessFault? cfg a with
  | some k => exact .inl ⟨k, rfl, rfl⟩
  | none => exact .inr ⟨rfl, rfl⟩

/-- A data access keeps the canonical form of the backing store. -/
theorem cacheAccess_wf (cfg : Config) (kind : AccessKind) (a v w : Word) (m m' : MemSys) (hw : Memory.wf m.bs = true)
    (h : cacheAccess cfg kind a v m = .ok w m') : Memory.wf m'.bs = true := by
  rcases cacheAccess_cases cfg kind a v m with ⟨k, _, e⟩ | ⟨hf, e⟩
  · rw [e] at h; cases h
  · rw [e] at h
    obtain ⟨_, rfl⟩ := Access.ok.inj h
    have hal := (low2_zero a).mpr ((accessFault_none cfg a).mp hf).1
    split
    · exact locate_wf cfg a _ hw
    · cases kind
      · exact hw
      · exact bsWriteWord_wf _ _ _ hw hal

/-! ## An access through the cache (R77 to R84) -/

/-- A line that serves the access to `a` for writing keeps its set legal: it is dirty, so it need not agree with the
backing store. -/
theorem SetInv.replaceHead {i : BitVec 4} {l l' : Line} {ls : List Line} {bs : Memory}
    (h : SetInv i (l :: ls) bs) (ht : l'.tag = l.tag) (hd : l'.dirty = true) : SetInv i (l' :: ls) bs := by
  refine ⟨?_, h.waysBounded, ?_⟩
  · simpa [ht] using h.tagsDistinct
  · intro x hx hc
    rcases List.mem_cons.mp hx with rfl | hx
    · rw [hd] at hc; cases hc
    · exact h.cleanAsStored x (by simp [hx]) hc

/-- A set other than the accessed one stays legal. -/
theorem throughCache_otherSet (cfg : Config) (kind : AccessKind) (a v : Word) (m : MemSys) (h : LinesInv m)
    (i : BitVec 4) (hi : i ≠ indexOf a) :
    SetInv i (getSet (throughCache cfg kind a v m).2.cache.sets i) (throughCache cfg kind a v m).2.bs := by
  obtain ⟨_, _, _, _, _, l6⟩ := locate_spec cfg a m h
  simp only [throughCache, getSet_putSet_other _ _ _ _ hi]
  exact (h.set i).congr_bs fun l _ _ o => l6 l.tag i o hi

/-- Every set stays legal. -/
theorem throughCache_sets (cfg : Config) (kind : AccessKind) (a v : Word) (m : MemSys) (h : LinesInv m)
    (i : BitVec 4) :
    SetInv i (getSet (throughCache cfg kind a v m).2.cache.sets i) (throughCache cfg kind a v m).2.bs := by
  by_cases hi : i = indexOf a
  · subst hi
    obtain ⟨_, l2, _⟩ := locate_spec cfg a m h
    simp only [throughCache, getSet_putSet_same]
    cases kind
    · exact l2
    · exact l2.replaceHead rfl rfl
  · exact throughCache_otherSet cfg kind a v m h i hi

/-- A read through the cache returns the word a program observes and changes no byte it observes. -/
theorem throughCache_read (cfg : Config) (a v : Word) (m : MemSys) (h : LinesInv m)
    (ha : a.toNat % 4 = 0) :
    (throughCache cfg .read a v m).1 = archWord m a ∧
      ∀ b, archByte (throughCache cfg .read a v m).2 b = archByte m b := by
  obtain ⟨_, _, _, l4, l5, _⟩ := locate_spec cfg a m h
  refine ⟨locate_lineWord cfg a m h ha, fun b => ?_⟩
  rw [archByte_eq]
  simp only [throughCache, serve]
  by_cases hb : indexOf b = indexOf a
  · rw [hb, getSet_putSet_same, l4 b hb]
  · rw [getSet_putSet_other _ _ _ _ hb, archByte_eq]
    simp only [setByte, l5 b hb]

/-- The four addresses of an aligned word, as offsets of its block. -/
theorem offset_eq_iff (a b : Word) (k : Nat) (hk : k < 4) (ha : a.toNat % 4 = 0) (ht : tagOf b = tagOf a)
    (hi : indexOf b = indexOf a) : offsetOf b = offsetOf a + BitVec.ofNat 4 k ↔ b = a + BitVec.ofNat 32 k := by
  obtain ⟨t, i, o, _⟩ := word_in_block a k hk ha
  rw [← o]
  exact ⟨fun e => addr_ext (ht.trans t.symm) (hi.trans i.symm) e, fun e => by rw [e]⟩

/-- A write through the cache changes the four bytes of the word and no other byte a program observes. -/
theorem throughCache_write (cfg : Config) (a v : Word) (m : MemSys) (h : LinesInv m)
    (ha : a.toNat % 4 = 0) (b : Word) :
    archByte (throughCache cfg .write a v m).2 b =
      if b = a + 3#32 then v.extractLsb' 24 8 else if b = a + 2#32 then v.extractLsb' 16 8
        else if b = a + 1#32 then v.extractLsb' 8 8 else if b = a then v.extractLsb' 0 8 else archByte m b := by
  obtain ⟨l1, _, _, l4, l5, _⟩ := locate_spec cfg a m h
  have n : ∀ k, k < 4 → ¬(tagOf b = tagOf a ∧ indexOf b = indexOf a) → b ≠ a + BitVec.ofNat 32 k := fun k hk hn e => by
    obtain ⟨t, i, _⟩ := word_in_block a k hk ha
    exact hn ⟨e ▸ t, e ▸ i⟩
  have n0 : ¬(tagOf b = tagOf a ∧ indexOf b = indexOf a) → b ≠ a := fun hn e => hn ⟨by rw [e], by rw [e]⟩
  rw [archByte_eq]
  simp only [throughCache, serve]
  by_cases hb : indexOf b = indexOf a
  · rw [hb, getSet_putSet_same]
    by_cases ht : tagOf b = tagOf a
    · have key := fun k hk => offset_eq_iff a b k hk ha ht hb
      have k0 : offsetOf b = offsetOf a ↔ b = a := ⟨fun e => addr_ext ht hb e, fun e => by rw [e]⟩
      simp only [setByte, findLine_cons, l1, ht, if_true, lineByte_setLineWord]
      rw [locate_lineByte cfg a b m h ht hb]
      simp only [key 1 (by omega), key 2 (by omega), key 3 (by omega), k0]
    · have hn := fun e : tagOf b = tagOf a ∧ indexOf b = indexOf a => ht e.1
      rw [if_neg (n 3 (by omega) hn), if_neg (n 2 (by omega) hn), if_neg (n 1 (by omega) hn), if_neg (n0 hn), ← l4 b hb]
      simp only [setByte, findLine_cons, l1, Ne.symm ht, if_false]
  · have hn := fun e : tagOf b = tagOf a ∧ indexOf b = indexOf a => hb e.2
    rw [if_neg (n 3 (by omega) hn), if_neg (n 2 (by omega) hn), if_neg (n 1 (by omega) hn), if_neg (n0 hn),
      getSet_putSet_other _ _ _ _ hb, archByte_eq]
    simp only [setByte, l5 b hb]

/-- What an access through the cache counts, beside the access itself. -/
theorem throughCache_ctr (cfg : Config) (kind : AccessKind) (a v : Word) (m : MemSys) :
    let c := m.cache.ctr
    let c' := (throughCache cfg kind a v m).2.cache.ctr
    let ls := getSet m.cache.sets (indexOf a)
    c'.accesses = c.accesses ∧
      (findLine ls (tagOf a) ≠ none → c' = countHit cfg c) ∧
      (findLine ls (tagOf a) = none → c' = (makeRoom (indexOf a) ls (countMiss cfg c) m.bs).ctr) := by
  intro c c' ls
  cases hf : findLine ls (tagOf a) with
  | some l =>
    have : c' = countHit cfg c := by simp only [c', throughCache]; rw [locate_hit cfg a m hf]
    exact ⟨by rw [this]; rfl, fun _ => this, fun h => by cases h⟩
  | none =>
    have : c' = (makeRoom (indexOf a) ls (countMiss cfg c) m.bs).ctr := by
      simp only [c', throughCache]; rw [locate_miss cfg a m hf]
    exact ⟨by rw [this, makeRoom_ctr]; rfl, fun h => absurd rfl h, fun _ => this⟩

/-- With every set empty a program observes the backing store. -/
theorem archByte_empty {m : MemSys} (h : ∀ i, getSet m.cache.sets i = []) (a : Word) :
    archByte m a = memByte m.bs a.toNat := by
  rw [archByte_eq, h]; rfl

/-- An access brings in no line but the one of its address. -/
theorem throughCache_resident (cfg : Config) (kind : AccessKind) (a v : Word) (m : MemSys) (i : BitVec 4) (l : Line)
    (hl : l ∈ getSet (throughCache cfg kind a v m).2.cache.sets i) :
    (i = indexOf a ∧ l.tag = tagOf a) ∨ l ∈ getSet m.cache.sets i := by
  simp only [throughCache] at hl
  by_cases hi : i = indexOf a
  · subst hi
    rw [getSet_putSet_same] at hl
    have htag : (serve kind a v (locate cfg a m).line).2.tag = (locate cfg a m).line.tag := by cases kind <;> rfl
    cases hf : findLine (getSet m.cache.sets (indexOf a)) (tagOf a) with
    | some x =>
      rcases List.mem_cons.mp hl with rfl | hl
      · rw [htag, locate_hit cfg a m hf]
        exact .inl ⟨rfl, (findLine_some hf).2⟩
      · rw [locate_hit cfg a m hf] at hl
        exact .inr (mem_withoutLine hl)
    | none =>
      rcases List.mem_cons.mp hl with rfl | hl
      · rw [htag, locate_miss cfg a m hf]
        exact .inl ⟨rfl, rfl⟩
      · rw [locate_miss cfg a m hf] at hl
        simp only [makeRoom_lines] at hl
        split at hl
        · exact .inr (List.dropLast_subset _ hl)
        · exact .inr hl
  · rw [getSet_putSet_other _ _ _ _ hi] at hl
    exact .inr hl

/-! ## The system-call handler's bytes (R242) -/

theorem findLine_updateLine (ls : List Line) (t u : BitVec 24) (f : Line → Line) (hf : ∀ l, (f l).tag = l.tag) :
    findLine (ls.map fun l => if l.tag == t then f l else l) u =
      (findLine ls u).map fun l => if l.tag == t then f l else l := by
  induction ls with
  | nil => rfl
  | cons l ls ih =>
    simp only [List.map_cons, findLine_cons, ih]
    have : (if l.tag == t then f l else l).tag = l.tag := by split <;> simp [hf]
    rw [this]
    split <;> rfl

theorem updateLine_tags (ls : List Line) (t : BitVec 24) (f : Line → Line) (hf : ∀ l, (f l).tag = l.tag) :
    (ls.map fun l => if l.tag == t then f l else l).map (·.tag) = ls.map (·.tag) := by
  rw [List.map_map]
  refine List.map_congr_left fun l _ => ?_
  simp only [Function.comp]
  split <;> simp [hf]

/-- A handler byte at an invalid address is discarded (R242). -/
theorem handlerSetByte_invalid (cfg : Config) (m : MemSys) (a : Word) (v : Byte) (hv : memValid cfg a = false) :
    handlerSetByte cfg m a v = m := by simp only [handlerSetByte, hv, if_true]

/-- A handler byte of a resident line goes into the line, which becomes dirty (R242). -/
theorem handlerSetByte_resident (cfg : Config) (m : MemSys) (a : Word) (v : Byte) {l : Line} (hv : memValid cfg a = true)
    (hf : findLine (getSet m.cache.sets (indexOf a)) (tagOf a) = some l) :
    handlerSetByte cfg m a v =
      { m with cache := { m.cache with sets := putSet m.cache.sets (indexOf a) ((getSet m.cache.sets (indexOf a)).map
          fun l => if l.tag == tagOf a then { l with data := setLineByte l.data (offsetOf a) v, dirty := true } else l) } } := by
  simp only [handlerSetByte, hv, hf, Bool.true_eq_false, if_false]

/-- A handler byte of no resident line goes into the backing store (R242). -/
theorem handlerSetByte_absent (cfg : Config) (m : MemSys) (a : Word) (v : Byte) (hv : memValid cfg a = true)
    (hf : findLine (getSet m.cache.sets (indexOf a)) (tagOf a) = none) :
    handlerSetByte cfg m a v = { m with bs := memSet m.bs a.toNat v } := by
  simp only [handlerSetByte, hv, hf, Bool.true_eq_false, if_false]

/-- Everything one handler byte does to what a program observes: it is the byte observed at its address, if that is valid;
no other byte changes, no line moves and no counter changes. -/
theorem handlerSetByte_spec (cfg : Config) (m : MemSys) (a : Word) (v : Byte) :
    let m' := handlerSetByte cfg m a v
    SameLines m m' ∧ m'.cache.ctr = m.cache.ctr ∧
      ∀ b, archByte m' b = if b = a ∧ memValid cfg a = true then v else archByte m b := by
  by_cases hv : memValid cfg a = false
  · rw [handlerSetByte_invalid cfg m a v hv]
    exact ⟨fun _ => rfl, rfl, fun b => by simp [hv]⟩
  have hv : memValid cfg a = true := by simpa using hv
  cases hf : findLine (getSet m.cache.sets (indexOf a)) (tagOf a) with
  | some l =>
    rw [handlerSetByte_resident cfg m a v hv hf]
    refine ⟨fun i => ?_, rfl, fun b => ?_⟩
    · by_cases hi : i = indexOf a
      · subst hi
        simp only [getSet_putSet_same]
        exact updateLine_tags _ _ (fun l => { l with data := setLineByte l.data (offsetOf a) v, dirty := true }) fun _ => rfl
      · simp only [getSet_putSet_other _ _ _ _ hi]
    · rw [archByte_eq, archByte_eq]
      by_cases hb : indexOf b = indexOf a
      · simp only [hb, getSet_putSet_same, setByte]
        rw [findLine_updateLine _ _ _ (fun l => { l with data := setLineByte l.data (offsetOf a) v, dirty := true })
          (fun _ => rfl)]
        by_cases ht : tagOf b = tagOf a
        · rw [ht, hf]
          simp only [Option.map_some, (findLine_some hf).2, beq_self_eq_true, if_true, lineByte_setLineByte, hv, and_true]
          have : offsetOf b = offsetOf a ↔ b = a := ⟨fun e => addr_ext ht hb e, fun e => by rw [e]⟩
          simp only [this]
        · have hne : b ≠ a := fun e => ht (by rw [e])
          cases hg : findLine (getSet m.cache.sets (indexOf a)) (tagOf b) with
          | none => simp [hne]
          | some y =>
            have : y.tag ≠ tagOf a := (findLine_some hg).2 ▸ ht
            simp [hne, this]
      · have hne : b ≠ a := fun e => hb (by rw [e])
        simp [hne, getSet_putSet_other _ _ _ _ hb]
  | none =>
    rw [handlerSetByte_absent cfg m a v hv hf]
    refine ⟨fun _ => rfl, rfl, fun b => ?_⟩
    rw [archByte_eq, archByte_eq]
    simp only [setByte, hv, and_true]
    by_cases hb : b = a
    · subst hb; rw [hf]; simp [memByte_memSet]
    · have : b.toNat ≠ a.toNat := fun e => hb (BitVec.eq_of_toNat_eq e)
      simp [hb, memByte_memSet, this]

/-- A handler byte keeps the invariants of the memory. -/
theorem handlerSetByte_inv (cfg : Config) (m : MemSys) (a : Word) (v : Byte) (h : MemInv cfg m) :
    MemInv cfg (handlerSetByte cfg m a v) := by
  by_cases hv : memValid cfg a = false
  · rwa [handlerSetByte_invalid cfg m a v hv]
  have hv : memValid cfg a = true := by simpa using hv
  cases hf : findLine (getSet m.cache.sets (indexOf a)) (tagOf a) with
  | some l =>
    rw [handlerSetByte_resident cfg m a v hv hf]
    have hs := h.lines.set (indexOf a)
    refine MemInv.of_sets h.canonical (fun i => ?_) (fun i => ?_) (fun hd => ?_) h.countersAdd
    · by_cases hi : i = indexOf a
      · subst hi
        simp only [getSet_putSet_same]
        refine ⟨?_, by simpa using hs.waysBounded, ?_⟩
        · rw [updateLine_tags _ _ (fun l => { l with data := setLineByte l.data (offsetOf a) v, dirty := true }) fun _ => rfl]
          exact hs.tagsDistinct
        · intro x hx hc
          obtain ⟨y, hy, rfl⟩ := List.mem_map.mp hx
          by_cases e : y.tag = tagOf a
          · simp [e] at hc
          · have e' := beq_eq_false_iff_ne.mpr e
            simp only [e', Bool.false_eq_true, if_false] at hc ⊢
            exact hs.cleanAsStored y hy hc
      · simp only [getSet_putSet_other _ _ _ _ hi]; exact h.lines.set i
    · by_cases hi : i = indexOf a
      · subst hi
        simp only [getSet_putSet_same]
        intro x hx
        obtain ⟨y, hy, rfl⟩ := List.mem_map.mp hx
        have := h.residentValid _ y hy
        split <;> exact this
      · simp only [getSet_putSet_other _ _ _ _ hi]; exact h.residentValid i
    · have := h.disabledEmpty hd (indexOf a)
      rw [this] at hf; cases hf
  | none =>
    rw [handlerSetByte_absent cfg m a v hv hf]
    refine MemInv.of_sets (memSet_wf _ _ _ h.canonical a.isLt) (fun i => ?_) h.residentValid h.disabledEmpty h.countersAdd
    refine (h.lines.set i).congr_bs fun l hl _ o => ?_
    rw [memByte_memSet, if_neg]
    intro e
    rw [addr_split a] at e
    obtain ⟨e1, e2, _⟩ := block_inj o.isLt (offsetOf a).isLt e
    subst e2
    exact findLine_eq_none.mp hf (e1 ▸ List.mem_map_of_mem hl)

theorem handlerSetByte_wf (cfg : Config) (m : MemSys) (a : Word) (v : Byte) (h : Memory.wf m.bs = true) :
    Memory.wf (handlerSetByte cfg m a v).bs = true := by
  unfold handlerSetByte
  split
  · exact h
  · simp only
    split
    · exact h
    · exact memSet_wf _ _ _ h a.isLt

/-- Everything the listed handler bytes do. -/
theorem applyHandlerBytes_spec (cfg : Config) (target old : Word → Byte) (as : List Word) (m : MemSys) :
    let m' := applyHandlerBytes cfg target old as m
    SameLines m m' ∧ m'.cache.ctr = m.cache.ctr ∧
      ∀ b, archByte m' b =
        if b ∈ as ∧ target b ≠ old b ∧ memValid cfg b = true then target b else archByte m b := by
  induction as generalizing m with
  | nil => exact ⟨fun _ => rfl, rfl, fun b => by simp [applyHandlerBytes]⟩
  | cons a as ih =>
    simp only [applyHandlerBytes]
    by_cases he : target a = old a
    · rw [if_pos he]
      obtain ⟨i2, i3, i4⟩ := ih m
      refine ⟨i2, i3, fun b => ?_⟩
      rw [i4 b]
      by_cases hb : b = a
      · subst hb; simp [he]
      · simp [hb]
    · rw [if_neg he]
      obtain ⟨s2, s3, s4⟩ := handlerSetByte_spec cfg m a (target a)
      obtain ⟨i2, i3, i4⟩ := ih (handlerSetByte cfg m a (target a))
      refine ⟨fun i => (i2 i).trans (s2 i), i3.trans s3, fun b => ?_⟩
      rw [i4 b, s4 b]
      by_cases hb : b = a
      · subst hb
        by_cases hv : memValid cfg b = true <;> simp [he, hv]
      · simp [hb]

theorem applyHandlerBytes_inv (cfg : Config) (target old : Word → Byte) (as : List Word) (m : MemSys) (h : MemInv cfg m) :
    MemInv cfg (applyHandlerBytes cfg target old as m) := by
  induction as generalizing m with
  | nil => exact h
  | cons a as ih =>
    simp only [applyHandlerBytes]
    split
    · exact ih _ h
    · exact ih _ (handlerSetByte_inv _ _ _ _ h)

theorem applyHandlerBytes_wf (cfg : Config) (target old : Word → Byte) (as : List Word) (m : MemSys)
    (h : Memory.wf m.bs = true) : Memory.wf (applyHandlerBytes cfg target old as m).bs = true := by
  induction as generalizing m with
  | nil => exact h
  | cons a as ih =>
    simp only [applyHandlerBytes]
    split
    · exact ih _ h
    · exact ih _ (handlerSetByte_wf _ _ _ _ h)

/-- A byte the handler does not list is the byte it was shown. -/
theorem handlerByte_unlisted (writes : List (Word × Byte)) (old : Word → Byte) (a : Word) (h : a ∉ writes.map (·.1)) :
    handlerByte writes old a = old a := by
  unfold handlerByte
  rw [List.find?_eq_none.mpr]
  intro w hw
  simpa using fun e => h (List.mem_map.mpr ⟨w, hw, e⟩)

/-- Everything the handler's memory update does (R242). -/
theorem applyHandlerMem_spec (cfg : Config) (writes : List (Word × Byte)) (m : MemSys) :
    let m' := applyHandlerMem cfg writes m
    SameLines m m' ∧ m'.cache.ctr = m.cache.ctr ∧
      ∀ b, archByte m' b = if memValid cfg b = true then handlerByte writes (archByte m) b else archByte m b := by
  obtain ⟨i2, i3, i4⟩ := applyHandlerBytes_spec cfg (handlerByte writes (archByte m)) (archByte m) (writes.map (·.1)) m
  refine ⟨i2, i3, fun b => ?_⟩
  unfold applyHandlerMem
  rw [i4 b]
  by_cases hm : b ∈ writes.map (·.1)
  · by_cases hv : memValid cfg b = true
    · by_cases he : handlerByte writes (archByte m) b = archByte m b
      · simp [hv, he]
      · rw [if_pos ⟨hm, he, hv⟩, if_pos hv]
    · simp [hv]
  · rw [if_neg fun e => hm e.1, handlerByte_unlisted _ _ _ hm]
    simp

/-- The handler's memory update keeps the invariants of the memory. -/
theorem applyHandlerMem_inv (cfg : Config) (writes : List (Word × Byte)) (m : MemSys) (h : MemInv cfg m) :
    MemInv cfg (applyHandlerMem cfg writes m) := applyHandlerBytes_inv _ _ _ _ _ h

/-- The handler's memory update keeps the canonical form. -/
theorem applyHandlerMem_wf (cfg : Config) (writes : List (Word × Byte)) (m : MemSys) (h : Memory.wf m.bs = true) :
    Memory.wf (applyHandlerMem cfg writes m).bs = true := applyHandlerBytes_wf _ _ _ _ _ h

/-! ## The flush (R85) -/

/-- A byte of the backing store after one set's dirty lines are written back. -/
theorem flushLines_byte (i : BitVec 4) (ls : List Line) (bs : Memory) (hd : (ls.map (·.tag)).Nodup) (t : BitVec 24)
    (j o : BitVec 4) :
    memByte (flushLines i ls bs) ((blockAddr t j).toNat + o.toNat) =
      match (if j = i then (findLine ls t).filter (·.dirty) else none) with
      | some l => lineByte l.data o
      | none => memByte bs ((blockAddr t j).toNat + o.toNat) := by
  induction ls generalizing bs with
  | nil => simp [flushLines]
  | cons l ls ih =>
    simp only [List.map_cons, List.nodup_cons] at hd
    rw [flushLines, ih _ hd.2, findLine_cons]
    by_cases hj : j = i
    · subst hj
      by_cases ht : l.tag = t
      · subst ht
        have hn : findLine ls l.tag = none := findLine_eq_none.mpr hd.1
        cases hdl : l.dirty <;> simp [hn, hdl, Option.filter_some, memByte_writeBack]
      · cases hdl : l.dirty <;> simp [ht, Ne.symm ht, memByte_writeBack]
    · cases hdl : l.dirty <;> simp [hj, memByte_writeBack]

theorem flushLines_wf (i : BitVec 4) (ls : List Line) (bs : Memory) (h : Memory.wf bs = true) :
    Memory.wf (flushLines i ls bs) = true := by
  induction ls generalizing bs with
  | nil => exact h
  | cons l ls ih =>
    rw [flushLines]
    split
    · exact ih _ (bsWriteBlock_wf _ _ _ _ h)
    · exact ih _ h

theorem flushSets_wf (sets : Vector (List Line) 16) (is : List (BitVec 4)) (bs : Memory) (h : Memory.wf bs = true) :
    Memory.wf (flushSets sets is bs) = true := by
  induction is generalizing bs with
  | nil => exact h
  | cons i is ih => exact ih _ (flushLines_wf _ _ _ h)

/-- The flush keeps the canonical form. -/
theorem cacheFlush_wf (m : MemSys) (h : Memory.wf m.bs = true) : Memory.wf (cacheFlush m).bs = true :=
  flushSets_wf _ _ _ h

/-- A byte of the backing store after the dirty lines of some sets, each named once, are written back. -/
theorem flushSets_byte (sets : Vector (List Line) 16) (is : List (BitVec 4)) (bs : Memory) (hn : is.Nodup)
    (hd : ∀ i, ((getSet sets i).map (·.tag)).Nodup) (t : BitVec 24) (j o : BitVec 4) :
    memByte (flushSets sets is bs) ((blockAddr t j).toNat + o.toNat) =
      match (if j ∈ is then (findLine (getSet sets j) t).filter (·.dirty) else none) with
      | some l => lineByte l.data o
      | none => memByte bs ((blockAddr t j).toNat + o.toNat) := by
  induction is generalizing bs with
  | nil => simp [flushSets]
  | cons i is ih =>
    rw [List.nodup_cons] at hn
    rw [flushSets, ih _ hn.2, flushLines_byte _ _ _ (hd i)]
    by_cases hj : j = i
    · subst hj; simp [hn.1]
    · by_cases hm : j ∈ is <;> simp [hj, hm]

theorem setIndices_nodup : setIndices.Nodup := by decide

theorem mem_setIndices (i : BitVec 4) : i ∈ setIndices := by
  revert i; decide

/-- After a flush the backing store alone holds what a program observes. -/
theorem flush_byte (cfg : Config) (m : MemSys) (h : MemInv cfg m) (a : Word) :
    memByte (cacheFlush m).bs a.toNat = archByte m a := by
  rw [addr_split a, cacheFlush, flushSets_byte _ _ _ setIndices_nodup h.tagsDistinct, if_pos (mem_setIndices _), archByte_eq,
    setByte]
  cases hf : findLine (getSet m.cache.sets (indexOf a)) (tagOf a) with
  | none => simp [addr_split a]
  | some l =>
    obtain ⟨hm, ht⟩ := findLine_some hf
    cases hd : l.dirty with
    | true => simp [Option.filter_some, hd]
    | false =>
      have := h.cleanAsStored _ l hm hd (offsetOf a)
      simp [Option.filter_some, hd, this, ht]

theorem dirtyCount_eq (sets : Vector (List Line) 16) (is : List (BitVec 4)) :
    dirtyCount sets is = (is.map fun i => (getSet sets i).countP fun l => l.dirty).sum := by
  induction is with
  | nil => rfl
  | cons i is ih => simp [dirtyCount, ih, List.countP_eq_length_filter]

end Sys2Proof.Machine
end

