-- ==== Sys2Proof/Laws/Decode.lean ====
section
/-! SUPPORT. The fields of an encoded word, the tests of the decoder, and a word put together again from its fields
(30_encoding.md R102 to R107). -/

namespace Sys2Proof

/-- Concatenation as arithmetic. -/
theorem toNat_append_add {a b : Nat} (x : BitVec a) (y : BitVec b) : (x ++ y).toNat = x.toNat * 2 ^ b + y.toNat := by
  rw [BitVec.toNat_append, ← Nat.shiftLeft_add_eq_or_of_lt y.isLt, Nat.shiftLeft_eq]

/-! ## Fields of an encoded word (R102) -/

@[simp] theorem opcodeField_encodeN (op : Op) : opcodeField (encodeN op) = codeOfOp op := by
  apply BitVec.eq_of_toNat_eq
  have := (codeOfOp op).isLt
  simp only [opcodeField, encodeN, BitVec.extractLsb'_toNat, toNat_append_add, Nat.shiftRight_eq_div_pow, BitVec.toNat_ofNat]
  omega

@[simp] theorem reserved_encodeN (op : Op) : (opcodeWord (encodeN op)).extractLsb' 8 24 = 0#24 := by
  apply BitVec.eq_of_toNat_eq
  have := (codeOfOp op).isLt
  simp only [opcodeWord, encodeN, BitVec.extractLsb'_toNat, toNat_append_add, Nat.shiftRight_eq_div_pow, BitVec.toNat_ofNat]
  omega

@[simp] theorem operandWord_encodeN (op : Op) : operandWord (encodeN op) = 0#32 := by
  apply BitVec.eq_of_toNat_eq
  have := (codeOfOp op).isLt
  simp only [operandWord, encodeN, BitVec.extractLsb'_toNat, toNat_append_add, Nat.shiftRight_eq_div_pow, BitVec.toNat_ofNat]
  omega

@[simp] theorem opcodeField_encodeR (op : Op) (rd rs rt : RegIdx) : opcodeField (encodeR op rd rs rt) = codeOfOp op := by
  apply BitVec.eq_of_toNat_eq
  have := (codeOfOp op).isLt; have := rd.isLt; have := rs.isLt; have := rt.isLt
  simp only [opcodeField, encodeR, BitVec.extractLsb'_toNat, toNat_append_add, Nat.shiftRight_eq_div_pow, BitVec.toNat_ofNat]
  omega

@[simp] theorem reserved_encodeR (op : Op) (rd rs rt : RegIdx) : (opcodeWord (encodeR op rd rs rt)).extractLsb' 8 24 = 0#24 := by
  apply BitVec.eq_of_toNat_eq
  have := (codeOfOp op).isLt; have := rd.isLt; have := rs.isLt; have := rt.isLt
  simp only [opcodeWord, encodeR, BitVec.extractLsb'_toNat, toNat_append_add, Nat.shiftRight_eq_div_pow, BitVec.toNat_ofNat]
  omega

@[simp] theorem operandTop_encodeR (op : Op) (rd rs rt : RegIdx) : (operandWord (encodeR op rd rs rt)).extractLsb' 26 6 = 0#6 := by
  apply BitVec.eq_of_toNat_eq
  have := (codeOfOp op).isLt; have := rd.isLt; have := rs.isLt; have := rt.isLt
  simp only [operandWord, encodeR, BitVec.extractLsb'_toNat, toNat_append_add, Nat.shiftRight_eq_div_pow, BitVec.toNat_ofNat]
  omega

@[simp] theorem operandLow_encodeR (op : Op) (rd rs rt : RegIdx) : (operandWord (encodeR op rd rs rt)).extractLsb' 0 11 = 0#11 := by
  apply BitVec.eq_of_toNat_eq
  have := (codeOfOp op).isLt; have := rd.isLt; have := rs.isLt; have := rt.isLt
  simp only [operandWord, encodeR, BitVec.extractLsb'_toNat, toNat_append_add, Nat.shiftRight_eq_div_pow, BitVec.toNat_ofNat]
  omega

@[simp] theorem rdField_encodeR (op : Op) (rd rs rt : RegIdx) : rdField (encodeR op rd rs rt) = rd := by
  apply BitVec.eq_of_toNat_eq
  have := (codeOfOp op).isLt; have := rd.isLt; have := rs.isLt; have := rt.isLt
  simp only [rdField, encodeR, BitVec.extractLsb'_toNat, toNat_append_add, Nat.shiftRight_eq_div_pow, BitVec.toNat_ofNat]
  omega

@[simp] theorem rsField_encodeR (op : Op) (rd rs rt : RegIdx) : rsField (encodeR op rd rs rt) = rs := by
  apply BitVec.eq_of_toNat_eq
  have := (codeOfOp op).isLt; have := rd.isLt; have := rs.isLt; have := rt.isLt
  simp only [rsField, encodeR, BitVec.extractLsb'_toNat, toNat_append_add, Nat.shiftRight_eq_div_pow, BitVec.toNat_ofNat]
  omega

@[simp] theorem rtField_encodeR (op : Op) (rd rs rt : RegIdx) : rtField (encodeR op rd rs rt) = rt := by
  apply BitVec.eq_of_toNat_eq
  have := (codeOfOp op).isLt; have := rd.isLt; have := rs.isLt; have := rt.isLt
  simp only [rtField, encodeR, BitVec.extractLsb'_toNat, toNat_append_add, Nat.shiftRight_eq_div_pow, BitVec.toNat_ofNat]
  omega

@[simp] theorem opcodeField_encodeI (op : Op) (rs rt : RegIdx) (imm : BitVec 16) : opcodeField (encodeI op rs rt imm) = codeOfOp op := by
  apply BitVec.eq_of_toNat_eq
  have := (codeOfOp op).isLt; have := rs.isLt; have := rt.isLt; have := imm.isLt
  simp only [opcodeField, encodeI, BitVec.extractLsb'_toNat, toNat_append_add, Nat.shiftRight_eq_div_pow, BitVec.toNat_ofNat]
  omega

@[simp] theorem reserved_encodeI (op : Op) (rs rt : RegIdx) (imm : BitVec 16) : (opcodeWord (encodeI op rs rt imm)).extractLsb' 8 24 = 0#24 := by
  apply BitVec.eq_of_toNat_eq
  have := (codeOfOp op).isLt; have := rs.isLt; have := rt.isLt; have := imm.isLt
  simp only [opcodeWord, encodeI, BitVec.extractLsb'_toNat, toNat_append_add, Nat.shiftRight_eq_div_pow, BitVec.toNat_ofNat]
  omega

@[simp] theorem operandTop_encodeI (op : Op) (rs rt : RegIdx) (imm : BitVec 16) : (operandWord (encodeI op rs rt imm)).extractLsb' 26 6 = 0#6 := by
  apply BitVec.eq_of_toNat_eq
  have := (codeOfOp op).isLt; have := rs.isLt; have := rt.isLt; have := imm.isLt
  simp only [operandWord, encodeI, BitVec.extractLsb'_toNat, toNat_append_add, Nat.shiftRight_eq_div_pow, BitVec.toNat_ofNat]
  omega

@[simp] theorem rsField_encodeI (op : Op) (rs rt : RegIdx) (imm : BitVec 16) : rsField (encodeI op rs rt imm) = rs := by
  apply BitVec.eq_of_toNat_eq
  have := (codeOfOp op).isLt; have := rs.isLt; have := rt.isLt; have := imm.isLt
  simp only [rsField, encodeI, BitVec.extractLsb'_toNat, toNat_append_add, Nat.shiftRight_eq_div_pow, BitVec.toNat_ofNat]
  omega

@[simp] theorem rtField_encodeI (op : Op) (rs rt : RegIdx) (imm : BitVec 16) : rtField (encodeI op rs rt imm) = rt := by
  apply BitVec.eq_of_toNat_eq
  have := (codeOfOp op).isLt; have := rs.isLt; have := rt.isLt; have := imm.isLt
  simp only [rtField, encodeI, BitVec.extractLsb'_toNat, toNat_append_add, Nat.shiftRight_eq_div_pow, BitVec.toNat_ofNat]
  omega

@[simp] theorem imm16Field_encodeI (op : Op) (rs rt : RegIdx) (imm : BitVec 16) : imm16Field (encodeI op rs rt imm) = imm := by
  apply BitVec.eq_of_toNat_eq
  have := (codeOfOp op).isLt; have := rs.isLt; have := rt.isLt; have := imm.isLt
  simp only [imm16Field, encodeI, BitVec.extractLsb'_toNat, toNat_append_add, Nat.shiftRight_eq_div_pow, BitVec.toNat_ofNat]
  omega

@[simp] theorem opcodeField_encodeJ (op : Op) (t26 : BitVec 26) : opcodeField (encodeJ op t26) = codeOfOp op := by
  apply BitVec.eq_of_toNat_eq
  have := (codeOfOp op).isLt; have := t26.isLt
  simp only [opcodeField, encodeJ, BitVec.extractLsb'_toNat, toNat_append_add, Nat.shiftRight_eq_div_pow, BitVec.toNat_ofNat]
  omega

@[simp] theorem reserved_encodeJ (op : Op) (t26 : BitVec 26) : (opcodeWord (encodeJ op t26)).extractLsb' 8 24 = 0#24 := by
  apply BitVec.eq_of_toNat_eq
  have := (codeOfOp op).isLt; have := t26.isLt
  simp only [opcodeWord, encodeJ, BitVec.extractLsb'_toNat, toNat_append_add, Nat.shiftRight_eq_div_pow, BitVec.toNat_ofNat]
  omega

@[simp] theorem operandTop_encodeJ (op : Op) (t26 : BitVec 26) : (operandWord (encodeJ op t26)).extractLsb' 26 6 = 0#6 := by
  apply BitVec.eq_of_toNat_eq
  have := (codeOfOp op).isLt; have := t26.isLt
  simp only [operandWord, encodeJ, BitVec.extractLsb'_toNat, toNat_append_add, Nat.shiftRight_eq_div_pow, BitVec.toNat_ofNat]
  omega

@[simp] theorem t26Field_encodeJ (op : Op) (t26 : BitVec 26) : t26Field (encodeJ op t26) = t26 := by
  apply BitVec.eq_of_toNat_eq
  have := (codeOfOp op).isLt; have := t26.isLt
  simp only [t26Field, encodeJ, BitVec.extractLsb'_toNat, toNat_append_add, Nat.shiftRight_eq_div_pow, BitVec.toNat_ofNat]
  omega

/-! ## The opcode map, both ways (R104) -/

/-- R104 from right to left and back. -/
theorem opOfCode_codeOfOp (op : Op) (h1 : op ≠ .illegal) (h2 : op ≠ .fetchFault) : opOfCode (codeOfOp op) = some op := by
  cases op <;> first | rfl | contradiction

/-- R104 from left to right and back; no opcode byte is a marker's. -/
theorem codeOfOp_opOfCode {c : Byte} {op : Op} (h : opOfCode c = some op) :
    codeOfOp op = c ∧ op ≠ .illegal ∧ op ≠ .fetchFault := by
  revert op h
  revert c
  decide

/-! ## The decoder's tests (R105) -/

/-- A word that passes every test of R105 is the instruction of its opcode byte. -/
theorem classify_eq {hasMul : Bool} {w : DWord} {op : Op} (hr : (opcodeWord w).extractLsb' 8 24 = 0#24)
    (hc : opcodeField w = codeOfOp op) (h1 : op ≠ .illegal) (h2 : op ≠ .fetchFault) (hm : op = .mul → hasMul = true)
    (hb : operandBitsOk (formatOf op) (operandWord w) = true) : classify hasMul w = .ok op := by
  simp only [classify, hr, hc, opOfCode_codeOfOp op h1 h2, hb, ne_eq, not_true_eq_false, if_false, if_true]
  rw [if_neg]
  rintro ⟨rfl, h⟩
  rw [hm rfl] at h
  cases h

/-- What a word that decodes has passed. -/
theorem classify_ok {hasMul : Bool} {w : DWord} {op : Op} (h : classify hasMul w = .ok op) :
    (opcodeWord w).extractLsb' 8 24 = 0#24 ∧ opcodeField w = codeOfOp op ∧ op ≠ .illegal ∧ op ≠ .fetchFault ∧
      (op = .mul → hasMul = true) ∧ operandBitsOk (formatOf op) (operandWord w) = true := by
  unfold classify at h
  split at h
  · cases h
  · next hr =>
    split at h
    · cases h
    · next o ho =>
      obtain ⟨c1, c2, c3⟩ := codeOfOp_opOfCode ho
      split at h
      · cases h
      · next hm =>
        split at h
        · next hb =>
          cases h
          refine ⟨by simpa using hr, c1.symm, c2, c3, fun e => ?_, hb⟩
          simpa [e] using hm
        · cases h

/-- A word of one of the 14 instructions is decoded with every field extracted. -/
theorem decodeIns_ok {hasMul : Bool} {w : DWord} {op : Op} (h : classify hasMul w = .ok op) :
    decodeIns hasMul w = insOfWord op w := by
  simp only [decodeIns, h]

/-- Any other word is illegal (R106). -/
theorem decodeIns_error {hasMul : Bool} {w : DWord} {e : Reject} (h : classify hasMul w = .error e) :
    decodeIns hasMul w = illegalIns w := by
  simp only [decodeIns, h]

/-- The decoder makes no FETCHFAULT slot (R144). -/
theorem decodeIns_not_fetchFault (hasMul : Bool) (w : DWord) : (decodeIns hasMul w).op ≠ .fetchFault := by
  cases h : classify hasMul w with
  | ok op => rw [decodeIns_ok h]; exact (classify_ok h).2.2.2.1
  | error e => rw [decodeIns_error h]; simp [illegalIns]

/-- The decoded record keeps the word it came from (R105). -/
@[simp] theorem decodeIns_raw (hasMul : Bool) (w : DWord) : (decodeIns hasMul w).raw = w := by
  unfold decodeIns; split <;> rfl

/-! ## A word put together from its fields (R102) -/

theorem encodeN_fields {w : DWord} {op : Op} (hr : (opcodeWord w).extractLsb' 8 24 = 0#24)
    (hc : opcodeField w = codeOfOp op) (h0 : operandWord w = 0#32) :
    encodeN op = w := by
  apply BitVec.eq_of_toNat_eq
  have hc := congrArg BitVec.toNat hc
  have hr := congrArg BitVec.toNat hr
  have h0 := congrArg BitVec.toNat h0
  have := w.isLt
  simp only [opcodeField, opcodeWord, operandWord, BitVec.extractLsb'_toNat, Nat.shiftRight_eq_div_pow,
    BitVec.toNat_ofNat] at hc hr h0
  simp only [encodeN, toNat_append_add, BitVec.toNat_ofNat]
  omega

theorem encodeR_fields {w : DWord} {op : Op} (hr : (opcodeWord w).extractLsb' 8 24 = 0#24)
    (hc : opcodeField w = codeOfOp op) (h0 : (operandWord w).extractLsb' 26 6 = 0#6)
    (h1 : (operandWord w).extractLsb' 0 11 = 0#11) : encodeR op (rdField w) (rsField w) (rtField w) = w := by
  apply BitVec.eq_of_toNat_eq
  have hc := congrArg BitVec.toNat hc
  have hr := congrArg BitVec.toNat hr
  have h0 := congrArg BitVec.toNat h0
  have h1 := congrArg BitVec.toNat h1
  have := w.isLt
  simp only [opcodeField, opcodeWord, operandWord, BitVec.extractLsb'_toNat, Nat.shiftRight_eq_div_pow,
    BitVec.toNat_ofNat] at hc hr h0 h1
  simp only [encodeR, rdField, rsField, rtField, toNat_append_add, BitVec.extractLsb'_toNat, Nat.shiftRight_eq_div_pow, BitVec.toNat_ofNat]
  omega

theorem encodeI_fields {w : DWord} {op : Op} (hr : (opcodeWord w).extractLsb' 8 24 = 0#24)
    (hc : opcodeField w = codeOfOp op) (h0 : (operandWord w).extractLsb' 26 6 = 0#6) :
    encodeI op (rsField w) (rtField w) (imm16Field w) = w := by
  apply BitVec.eq_of_toNat_eq
  have hc := congrArg BitVec.toNat hc
  have hr := congrArg BitVec.toNat hr
  have h0 := congrArg BitVec.toNat h0
  have := w.isLt
  simp only [opcodeField, opcodeWord, operandWord, BitVec.extractLsb'_toNat, Nat.shiftRight_eq_div_pow,
    BitVec.toNat_ofNat] at hc hr h0
  simp only [encodeI, rsField, rtField, imm16Field, toNat_append_add, BitVec.extractLsb'_toNat, Nat.shiftRight_eq_div_pow, BitVec.toNat_ofNat]
  omega

theorem encodeJ_fields {w : DWord} {op : Op} (hr : (opcodeWord w).extractLsb' 8 24 = 0#24)
    (hc : opcodeField w = codeOfOp op) (h0 : (operandWord w).extractLsb' 26 6 = 0#6) :
    encodeJ op (t26Field w) = w := by
  apply BitVec.eq_of_toNat_eq
  have hc := congrArg BitVec.toNat hc
  have hr := congrArg BitVec.toNat hr
  have h0 := congrArg BitVec.toNat h0
  have := w.isLt
  simp only [opcodeField, opcodeWord, operandWord, BitVec.extractLsb'_toNat, Nat.shiftRight_eq_div_pow,
    BitVec.toNat_ofNat] at hc hr h0
  simp only [encodeJ, t26Field, toNat_append_add, BitVec.extractLsb'_toNat, Nat.shiftRight_eq_div_pow, BitVec.toNat_ofNat]
  omega

end Sys2Proof
end

