-- ==== Sys2Proof/Laws/PerInstr.lean ====
section
/-! SUPPORT. Statements made of every instruction, one lemma per constructor. -/

namespace Sys2Proof.Laws.OpcodeByte

/-- The opcode word of an encoded instruction holds its opcode byte and nothing else (R102, R104), and the bits its format
marks 0 in the operand word are 0. -/
def Statement (i : Instr) : Prop :=
  opcodeField (encode i) = codeOfOp i.op ∧ (opcodeWord (encode i)).extractLsb' 8 24 = 0#24 ∧
    operandBitsOk (formatOf i.op) (operandWord (encode i)) = true

theorem nop : Statement .nop := by
  refine ⟨?_, ?_, ?_⟩ <;> simp [encode, Instr.op, formatOf, operandBitsOk]

theorem add (rd rs rt : RegIdx) : Statement (.add rd rs rt) := by
  refine ⟨?_, ?_, ?_⟩ <;> simp [encode, Instr.op, formatOf, operandBitsOk]

theorem sub (rd rs rt : RegIdx) : Statement (.sub rd rs rt) := by
  refine ⟨?_, ?_, ?_⟩ <;> simp [encode, Instr.op, formatOf, operandBitsOk]

theorem and (rd rs rt : RegIdx) : Statement (.and rd rs rt) := by
  refine ⟨?_, ?_, ?_⟩ <;> simp [encode, Instr.op, formatOf, operandBitsOk]

theorem sll (rd rs rt : RegIdx) : Statement (.sll rd rs rt) := by
  refine ⟨?_, ?_, ?_⟩ <;> simp [encode, Instr.op, formatOf, operandBitsOk]

theorem slt (rd rs rt : RegIdx) : Statement (.slt rd rs rt) := by
  refine ⟨?_, ?_, ?_⟩ <;> simp [encode, Instr.op, formatOf, operandBitsOk]

theorem mul (rd rs rt : RegIdx) : Statement (.mul rd rs rt) := by
  refine ⟨?_, ?_, ?_⟩ <;> simp [encode, Instr.op, formatOf, operandBitsOk]

theorem addi (rt rs : RegIdx) (imm : BitVec 16) : Statement (.addi rt rs imm) := by
  refine ⟨?_, ?_, ?_⟩ <;> simp [encode, Instr.op, formatOf, operandBitsOk]

theorem lw (rt rs : RegIdx) (imm : BitVec 16) : Statement (.lw rt rs imm) := by
  refine ⟨?_, ?_, ?_⟩ <;> simp [encode, Instr.op, formatOf, operandBitsOk]

theorem sw (rt rs : RegIdx) (imm : BitVec 16) : Statement (.sw rt rs imm) := by
  refine ⟨?_, ?_, ?_⟩ <;> simp [encode, Instr.op, formatOf, operandBitsOk]

theorem beq (rs rt : RegIdx) (imm : BitVec 16) : Statement (.beq rs rt imm) := by
  refine ⟨?_, ?_, ?_⟩ <;> simp [encode, Instr.op, formatOf, operandBitsOk]

theorem bne (rs rt : RegIdx) (imm : BitVec 16) : Statement (.bne rs rt imm) := by
  refine ⟨?_, ?_, ?_⟩ <;> simp [encode, Instr.op, formatOf, operandBitsOk]

theorem j (t26 : BitVec 26) : Statement (.j t26) := by
  refine ⟨?_, ?_, ?_⟩ <;> simp [encode, Instr.op, formatOf, operandBitsOk]

theorem syscall : Statement .syscall := by
  refine ⟨?_, ?_, ?_⟩ <;> simp [encode, Instr.op, formatOf, operandBitsOk]

end Sys2Proof.Laws.OpcodeByte
end

