-- ==== Sys2Proof/Laws/Step.lean ====
section
/-! SUPPORT. What a cycle and a meaning can answer, said once: proofs cite these instead of unfolding `step`, `cycleNext`,
the stages or a meaning. -/

namespace Sys2Proof.Machine

/-! ## Which states run -/

theorem whenReady_ready {s : State} (h : s.Ready) (k : Host.Outcome State Fault Refusal) : whenReady s k = k := by
  simp only [whenReady, h.1, h.2, if_true]

/-- A next state comes only from a state that runs. -/
theorem whenReady_next {s t : State} {k : Host.Outcome State Fault Refusal} :
    whenReady s k = .next t ↔ s.Ready ∧ k = .next t := by
  constructor
  · intro h
    have hr : s.Ready := by
      unfold whenReady at h
      split at h
      · cases h
      · split at h
        · exact ⟨by assumption, by assumption⟩
        · cases h
    exact ⟨hr, by rwa [whenReady_ready hr] at h⟩
  · rintro ⟨h, rfl⟩
    exact whenReady_ready h _

/-- An unsupported configuration is refused (R261). -/
theorem whenReady_refused {s : State} {e : ConfigError} (h : configError? s.cfg = some e)
    (k : Host.Outcome State Fault Refusal) : whenReady s k = .refused (.configuration e) := by
  simp only [whenReady, h]

/-- An ended run is stuck (R131). -/
theorem whenReady_ended {s : State} (h : configError? s.cfg = none) (hs : s.status ≠ .running)
    (k : Host.Outcome State Fault Refusal) : whenReady s k = .fault (.runEnded s.status) := by
  simp only [whenReady, h, hs, if_false]

/-! ## Halting (R153) -/

theorem haltReason_none {cfg : Config} {q : Bool} {n : Nat} :
    haltReason? cfg q n = none ↔ q = false ∧ ∀ k, cfg.maxInsns = some k → n < k := by
  cases q
  · cases h : cfg.maxInsns with
    | none => simp [haltReason?, h]
    | some k => simp [haltReason?, h]
  · simp [haltReason?]

/-- The reason of a halt: the handler first, then the limit. -/
theorem haltReason_some {cfg : Config} {q : Bool} {n : Nat} (h : q = true ∨ ∃ k, cfg.maxInsns = some k ∧ k ≤ n) :
    haltReason? cfg q n = some (if q then .syscall else .limit) := by
  cases q
  · obtain ⟨k, hk, hle⟩ := h.resolve_left (by simp)
    simp [haltReason?, hk, hle]
  · simp [haltReason?]

@[simp] theorem haltedStatus_none (st : Status) : haltedStatus none st = st := rfl
@[simp] theorem haltedStatus_some (r : HaltReason) (st : Status) : haltedStatus (some r) st = .halted r := rfl

/-! ## The meanings -/

theorem exec_nop {s : State} (h : s.Ready) : exec .nop s = .next (retire .nop none false s) := whenReady_ready h _

theorem exec_add {s : State} (h : s.Ready) (rd rs rt : RegIdx) :
    exec (.add rd rs rt) s = .next (retire .add none false (s.setReg rd (s.reg rs + s.reg rt))) := whenReady_ready h _

theorem exec_sub {s : State} (h : s.Ready) (rd rs rt : RegIdx) :
    exec (.sub rd rs rt) s = .next (retire .sub none false (s.setReg rd (s.reg rs - s.reg rt))) := whenReady_ready h _

theorem exec_and {s : State} (h : s.Ready) (rd rs rt : RegIdx) :
    exec (.and rd rs rt) s = .next (retire .and none false (s.setReg rd (s.reg rs &&& s.reg rt))) := whenReady_ready h _

theorem exec_sll {s : State} (h : s.Ready) (rd rs rt : RegIdx) :
    exec (.sll rd rs rt) s =
      .next (retire .sll none false (s.setReg rd (s.reg rs <<< ((s.reg rt).extractLsb' 0 5).toNat))) := whenReady_ready h _

theorem exec_slt {s : State} (h : s.Ready) (rd rs rt : RegIdx) :
    exec (.slt rd rs rt) s = .next (retire .slt none false (s.setReg rd (boolWord (BitVec.slt (s.reg rs) (s.reg rt))))) :=
  whenReady_ready h _

theorem exec_mul {s : State} (h : s.Ready) (hm : s.cfg.hasMul = true) (rd rs rt : RegIdx) :
    exec (.mul rd rs rt) s = .next (retire .mul none false (s.setReg rd (s.reg rs * s.reg rt))) := by
  simp only [exec, execMul, hm, if_true]
  exact whenReady_ready h _

theorem exec_mul_absent {s : State} (h : s.Ready) (hm : s.cfg.hasMul = false) (rd rs rt : RegIdx) :
    exec (.mul rd rs rt) s = .next (takeFault .illegalInstruction s.nextPc (encode (.mul rd rs rt)) s) := by
  simp only [exec, execMul, hm, Bool.false_eq_true, if_false]
  exact whenReady_ready h _

theorem exec_addi {s : State} (h : s.Ready) (rt rs : RegIdx) (imm : BitVec 16) :
    exec (.addi rt rs imm) s = .next (retire .addi none false (s.setReg rt (s.reg rs + sext16 imm))) := whenReady_ready h _

/-- LW by what its access answers. -/
theorem exec_lw {s : State} (h : s.Ready) (rt rs : RegIdx) (imm : BitVec 16) :
    exec (.lw rt rs imm) s = .next (match cacheRead s.cfg (s.reg rs + sext16 imm) s.mem with
      | .fault k => takeFault k s.nextPc ((s.reg rs + sext16 imm).setWidth 64) s
      | .ok v m => retire .lw none false (State.setReg { s with mem := m } rt v)) := whenReady_ready h _

/-- SW by what its access answers. -/
theorem exec_sw {s : State} (h : s.Ready) (rt rs : RegIdx) (imm : BitVec 16) :
    exec (.sw rt rs imm) s = .next (match cacheWrite s.cfg (s.reg rs + sext16 imm) (s.reg rt) s.mem with
      | .fault k => takeFault k s.nextPc ((s.reg rs + sext16 imm).setWidth 64) s
      | .ok _ m => retire .sw none false { s with mem := m }) := whenReady_ready h _

theorem exec_beq {s : State} (h : s.Ready) (rs rt : RegIdx) (imm : BitVec 16) :
    exec (.beq rs rt imm) s =
      .next (retire .beq (if s.reg rs = s.reg rt then some (branchTarget s.nextPc imm) else none) false s) := by
  simp only [exec, execBeq, execTransfer, whenReady_ready h, taken, beq_iff_eq]

theorem exec_bne {s : State} (h : s.Ready) (rs rt : RegIdx) (imm : BitVec 16) :
    exec (.bne rs rt imm) s =
      .next (retire .bne (if s.reg rs ≠ s.reg rt then some (branchTarget s.nextPc imm) else none) false s) := by
  simp only [exec, execBne, execTransfer, whenReady_ready h, taken, bne_iff_ne]

theorem exec_j {s : State} (h : s.Ready) (t26 : BitVec 26) :
    exec (.j t26) s = .next (retire .j (some (jumpTarget s.nextPc t26)) false s) := whenReady_ready h _

theorem exec_syscall {s : State} (h : s.Ready) :
    exec .syscall s =
      let r := callHandler s.cfg s.regs s.mem s.nextPc
      .next (retire .syscall none r.halt { s with regs := r.regs, mem := r.mem }) := whenReady_ready h _

/-- Every meaning answers a next state where the run goes on, and stops alike where it does not. -/
theorem exec_ready {s : State} (h : s.Ready) (i : Instr) : ∃ t, exec i s = .next t := by
  cases i with
  | nop => exact ⟨_, exec_nop h⟩
  | add rd rs rt => exact ⟨_, exec_add h rd rs rt⟩
  | sub rd rs rt => exact ⟨_, exec_sub h rd rs rt⟩
  | and rd rs rt => exact ⟨_, exec_and h rd rs rt⟩
  | sll rd rs rt => exact ⟨_, exec_sll h rd rs rt⟩
  | slt rd rs rt => exact ⟨_, exec_slt h rd rs rt⟩
  | mul rd rs rt =>
    cases hm : s.cfg.hasMul
    · exact ⟨_, exec_mul_absent h hm rd rs rt⟩
    · exact ⟨_, exec_mul h hm rd rs rt⟩
  | addi rt rs imm => exact ⟨_, exec_addi h rt rs imm⟩
  | lw rt rs imm => exact ⟨_, exec_lw h rt rs imm⟩
  | sw rt rs imm => exact ⟨_, exec_sw h rt rs imm⟩
  | beq rs rt imm => exact ⟨_, exec_beq h rs rt imm⟩
  | bne rs rt imm => exact ⟨_, exec_bne h rs rt imm⟩
  | j t26 => exact ⟨_, exec_j h t26⟩
  | syscall => exact ⟨_, exec_syscall h⟩

/-- Every meaning is guarded by the same test. -/
theorem exec_guarded (i : Instr) (s : State) : ∃ k, exec i s = whenReady s k := by
  cases i <;> try exact ⟨_, rfl⟩
  case mul rd rs rt =>
    simp only [exec, execMul]
    split <;> exact ⟨_, rfl⟩

/-! ## The WB stage (R134 to R136) -/

theorem wbStage_syscall {s : State} (h : s.memwb.ins.op = .syscall) :
    wbStage s =
      let r := callHandler s.cfg (wbRegs s) s.mem s.memwb.pc
      ⟨r.regs, r.mem, r.halt, s.icount + 1⟩ := by
  simp [wbStage, h, nextCount]

theorem wbStage_other {s : State} (h : s.memwb.ins.op ≠ .syscall) :
    wbStage s = ⟨wbRegs s, s.mem, false, nextCount s.memwb.ins.op s.icount⟩ := by
  simp only [wbStage, h, if_false]

@[simp] theorem wbStage_icount (s : State) : (wbStage s).icount = nextCount s.memwb.ins.op s.icount := by
  unfold wbStage; split <;> rfl

/-- A bubble in MEM/WB commits nothing. -/
theorem wbStage_bubble {s : State} (h : s.memwb = .bubble) : wbStage s = ⟨s.regs, s.mem, false, s.icount⟩ := by
  simp [wbStage, wbRegs, nextCount, h, MemWbLatch.bubble, nopIns]

/-! ## The MEM stage (R138, R139) -/

@[simp] theorem memStage_bubble (cfg : Config) (m : MemSys) : memStage cfg .bubble m = ⟨.bubble, m, none⟩ := rfl

/-- Everything MEM can do. -/
theorem memStage_cases (cfg : Config) (x : ExMemLatch) (m : MemSys) :
    (x.ins.op = .nop ∧ memStage cfg x m = ⟨.bubble, m, none⟩) ∨
    (x.ins.op ≠ .nop ∧
      ((∃ k, x.fault = some k ∧
          memStage cfg x m = ⟨⟨x.pc, x.ins, x.dest, 0#32⟩, m, some ⟨k, x.pc, markerInfo k x.pc x.ins.raw⟩⟩) ∨
       (x.fault = none ∧
        ((x.isLoad = true ∧
            ((∃ k, cacheRead cfg x.res m = .fault k ∧
                memStage cfg x m = ⟨⟨x.pc, x.ins, x.dest, 0#32⟩, m, some ⟨k, x.pc, x.res.setWidth 64⟩⟩) ∨
             ∃ v m', cacheRead cfg x.res m = .ok v m' ∧ memStage cfg x m = ⟨⟨x.pc, x.ins, x.dest, v⟩, m', none⟩)) ∨
         (x.isLoad = false ∧ x.isStore = true ∧
            ((∃ k, cacheWrite cfg x.res x.b m = .fault k ∧
                memStage cfg x m = ⟨⟨x.pc, x.ins, x.dest, 0#32⟩, m, some ⟨k, x.pc, x.res.setWidth 64⟩⟩) ∨
             ∃ v m', cacheWrite cfg x.res x.b m = .ok v m' ∧
               memStage cfg x m = ⟨⟨x.pc, x.ins, x.dest, 0#32⟩, m', none⟩)) ∨
         (x.isLoad = false ∧ x.isStore = false ∧ memStage cfg x m = ⟨⟨x.pc, x.ins, x.dest, x.res⟩, m, none⟩))))) := by
  by_cases hn : x.ins.op = .nop
  · exact .inl ⟨hn, by simp only [memStage, hn, if_true]⟩
  refine .inr ⟨hn, ?_⟩
  cases hf : x.fault with
  | some k => exact .inl ⟨k, rfl, by simp only [memStage, hn, hf, if_false]⟩
  | none =>
    refine .inr ⟨rfl, ?_⟩
    cases hl : x.isLoad with
    | true =>
      refine .inl ⟨rfl, ?_⟩
      cases hr : cacheRead cfg x.res m with
      | fault k => exact .inl ⟨k, rfl, by simp only [memStage, hn, hf, hl, hr, if_false, if_true]⟩
      | ok v m' => exact .inr ⟨v, m', rfl, by simp only [memStage, hn, hf, hl, hr, if_false, if_true]⟩
    | false =>
      cases hs : x.isStore with
      | true =>
        refine .inr (.inl ⟨rfl, rfl, ?_⟩)
        cases hw : cacheWrite cfg x.res x.b m with
        | fault k =>
          exact .inl ⟨k, rfl, by simp only [memStage, hn, hf, hl, hs, hw, if_false, if_true, Bool.false_eq_true]⟩
        | ok v m' =>
          exact .inr ⟨v, m', rfl, by simp only [memStage, hn, hf, hl, hs, hw, if_false, if_true, Bool.false_eq_true]⟩
      | false => exact .inr (.inr ⟨rfl, rfl, by simp only [memStage, hn, hf, hl, hs, if_false, Bool.false_eq_true]⟩)

/-- Everything MEM can do without a fault. -/
theorem memStage_ok {cfg : Config} {x : ExMemLatch} {m : MemSys} (hf : (memStage cfg x m).fault = none) :
    (x.ins.op = .nop ∧ memStage cfg x m = ⟨.bubble, m, none⟩) ∨
    (x.ins.op ≠ .nop ∧ x.fault = none ∧
      ((x.isLoad = true ∧ ∃ v m', cacheRead cfg x.res m = .ok v m' ∧
          memStage cfg x m = ⟨⟨x.pc, x.ins, x.dest, v⟩, m', none⟩) ∨
       (x.isLoad = false ∧ x.isStore = true ∧ ∃ v m', cacheWrite cfg x.res x.b m = .ok v m' ∧
          memStage cfg x m = ⟨⟨x.pc, x.ins, x.dest, 0#32⟩, m', none⟩) ∨
       (x.isLoad = false ∧ x.isStore = false ∧ memStage cfg x m = ⟨⟨x.pc, x.ins, x.dest, x.res⟩, m, none⟩))) := by
  rcases memStage_cases cfg x m with
    ⟨h, e⟩ | ⟨h, ⟨k, _, e⟩ | ⟨hn, ⟨hl, ⟨k, _, e⟩ | ⟨v, m', e1, e⟩⟩ | ⟨hl, hs, ⟨k, _, e⟩ | ⟨v, m', e1, e⟩⟩ | ⟨hl, hs, e⟩⟩⟩
  · exact .inl ⟨h, e⟩
  · rw [e] at hf; cases hf
  · rw [e] at hf; cases hf
  · exact .inr ⟨h, hn, .inl ⟨hl, v, m', e1, e⟩⟩
  · rw [e] at hf; cases hf
  · exact .inr ⟨h, hn, .inr (.inl ⟨hl, hs, v, m', e1, e⟩)⟩
  · exact .inr ⟨h, hn, .inr (.inr ⟨hl, hs, e⟩)⟩

/-- The instruction in MEM keeps its destination. -/
theorem memStage_dest (cfg : Config) (x : ExMemLatch) (m : MemSys) (h : x.ins.op ≠ .nop) :
    (memStage cfg x m).memwb.dest = x.dest := by
  rcases memStage_cases cfg x m with
    ⟨e, _⟩ | ⟨_, ⟨k, _, e⟩ | ⟨_, ⟨_, ⟨k, _, e⟩ | ⟨v, m', _, e⟩⟩ | ⟨_, _, ⟨k, _, e⟩ | ⟨v, m', _, e⟩⟩ | ⟨_, _, e⟩⟩⟩
  · exact absurd e h
  all_goals rw [e]

/-! ## The EX stage (R141) -/

@[simp] theorem exStage_bubble : exStage .bubble = .bubble := rfl

/-- Nothing taken comes out of an empty ID/EX (R142). -/
@[simp] theorem exTaken_bubble (cfg : Config) : exTaken cfg .bubble = false := by
  unfold exTaken; split <;> rfl

/-! ## The ID stage (R144, R146) -/

/-- An empty IF/ID decodes to the all-zero NOP (R35). -/
@[simp] theorem idIns_bubble (cfg : Config) : idIns cfg .bubble = nopIns := by
  unfold idIns; cases cfg.hasMul <;> rfl

theorem idStage_nop {s : State} (h : (idIns s.cfg s.ifid).op = .nop) (w : WbOut) (x : ExMemLatch) (m : MemOut) :
    idStage s w x m = ⟨.bubble, false, false, 0#32⟩ := by
  simp only [idStage, h, if_true]

theorem idStage_stall {s : State} (h : stallOf s (idIns s.cfg s.ifid) = true) (w : WbOut) (x : ExMemLatch) (m : MemOut) :
    idStage s w x m = ⟨.bubble, true, false, targetOf (idIns s.cfg s.ifid) s.ifid.pc⟩ := by
  have hn : (idIns s.cfg s.ifid).op ≠ .nop := by
    intro e
    simp [stallOf, e] at h
  simp only [idStage, hn, h, if_false, if_true]

theorem idStage_issue {s : State} (hn : (idIns s.cfg s.ifid).op ≠ .nop) (h : stallOf s (idIns s.cfg s.ifid) = false)
    (w : WbOut) (x : ExMemLatch) (m : MemOut) :
    idStage s w x m =
      let d := idIns s.cfg s.ifid
      let a := operandA (idValue s w x m) d
      let b := operandB (idValue s w x m) d
      ⟨issueLatch d s.ifid.pc a b (idMarker s.cfg s.ifid), false, idResolves s.cfg d a b, targetOf d s.ifid.pc⟩ := by
  simp only [idStage, hn, h, if_false, Bool.false_eq_true]

/-- Whatever else ID does, its stall signal is the stall decision (R176). -/
@[simp] theorem idStage_stallSignal (s : State) (w : WbOut) (x : ExMemLatch) (m : MemOut) :
    (idStage s w x m).stall = stallOf s (idIns s.cfg s.ifid) := by
  by_cases hn : (idIns s.cfg s.ifid).op = .nop
  · rw [idStage_nop hn]; simp [stallOf, hn]
  · cases h : stallOf s (idIns s.cfg s.ifid)
    · rw [idStage_issue hn h]
    · rw [idStage_stall h]

/-- A marker is set exactly for a marker slot (R144, R147). -/
theorem idMarker_iff (cfg : Config) (f : IfIdLatch) : idMarker cfg f ≠ none ↔ isMarker (idIns cfg f) := by
  unfold idMarker idIns isMarker
  split
  · simp [fetchFaultIns]
  · have := decodeIns_not_fetchFault cfg.hasMul f.word
    by_cases h : (decodeIns cfg.hasMul f.word).op = .illegal <;> simp [h, this]

/-- What ID holds is a decoded word or the slot of a failed fetch. -/
theorem idIns_decoded (cfg : Config) (f : IfIdLatch) : Decoded cfg.hasMul (idIns cfg f) := by
  unfold idIns
  split
  · exact .inr rfl
  · left; simp

/-! ## The IF stage (R148, R149) -/

/-- Where fetch goes: nowhere on a hold, else to the next instruction's address. -/
theorem fetchAddr_eq (s : State) (stall : Bool) :
    fetchAddr s stall = if stall = true ∧ s.pending = none then none else some s.nextPc := by
  unfold fetchAddr State.nextPc
  cases s.pending <;> cases stall <;> rfl

theorem low3_zero (a : Word) : a.extractLsb' 0 3 = 0#3 ↔ a.toNat % 8 = 0 := by
  rw [← BitVec.toNat_inj]
  simp [BitVec.extractLsb'_toNat]

/-- Everything a fetch can answer. -/
theorem fetchLatch_eq (cfg : Config) (bs : Memory) (p : Word) :
    fetchLatch cfg bs p = if p.toNat % 8 ≠ 0 then ⟨p, 0#64, some .misaligned⟩
      else if memValid cfg p = false then ⟨p, 0#64, some .outOfRange⟩ else ⟨p, bsReadInsn bs p, none⟩ := by
  simp only [fetchLatch, ne_eq, low3_zero]

/-! ## The cycle (R131, R153 to R155) -/

theorem step_ready {s : State} (h : s.Ready) : step s = .next (cycleNext s) := whenReady_ready h _

theorem step_next {s s' : State} : step s = .next s' ↔ s.Ready ∧ cycleNext s = s' := by
  unfold step
  rw [whenReady_next]
  simp

/-- Everything a cycle can do: it ends the run by a halt, ends it by a fault, or goes on. -/
theorem cycleNext_cases (s : State) :
    (∃ r, haltReason? s.cfg (wbStage s).haltReq (wbStage s).icount = some r ∧
        cycleNext s = endRun s (wbStage s) (.halted r)) ∨
    (haltReason? s.cfg (wbStage s).haltReq (wbStage s).icount = none ∧
      ((∃ r, (memStage s.cfg s.exmem (wbStage s).mem).fault = some r ∧
          cycleNext s = takeFault r.kind r.pc r.info (endRun s (wbStage s) s.status)) ∨
       ((memStage s.cfg s.exmem (wbStage s).mem).fault = none ∧
          cycleNext s = carryOn s (wbStage s) (memStage s.cfg s.exmem (wbStage s).mem) (exStage s.idex)
            (idStage s (wbStage s) (exStage s.idex) (memStage s.cfg s.exmem (wbStage s).mem))))) := by
  cases h : haltReason? s.cfg (wbStage s).haltReq (wbStage s).icount with
  | some r => exact .inl ⟨r, rfl, by simp only [cycleNext, h]⟩
  | none =>
    refine .inr ⟨rfl, ?_⟩
    cases hf : (memStage s.cfg s.exmem (wbStage s).mem).fault with
    | some r => exact .inl ⟨r, rfl, by simp only [cycleNext, h, hf]⟩
    | none => exact .inr ⟨rfl, by simp only [cycleNext, h, hf]⟩

/-- A cycle after which the run goes on is one that neither halts nor faults. -/
theorem step_running {s s' : State} (h : step s = .next s') (hr : s'.status = .running) :
    s.Ready ∧ haltReason? s.cfg (wbStage s).haltReq (wbStage s).icount = none ∧
      (memStage s.cfg s.exmem (wbStage s).mem).fault = none ∧
      s' = carryOn s (wbStage s) (memStage s.cfg s.exmem (wbStage s).mem) (exStage s.idex)
        (idStage s (wbStage s) (exStage s.idex) (memStage s.cfg s.exmem (wbStage s).mem)) := by
  obtain ⟨hrdy, rfl⟩ := step_next.mp h
  rcases cycleNext_cases s with ⟨r, _, e⟩ | ⟨h1, ⟨r, _, e⟩ | ⟨h2, e⟩⟩
  · rw [e] at hr; cases hr
  · rw [e] at hr; cases hr
  · exact ⟨hrdy, h1, h2, e⟩

end Sys2Proof.Machine
end

