-- ==== Sys2Proof/Tests/Slice0.lean ====
section
/-! SUPPORT. The model's own tests, each by evaluation on fixed values, with the values of the spec (the rule or the section
of 95_test_vectors.md is cited), and for every statement that has hypotheses a witness that meets them all. -/

open Sys2Proof Sys2Proof.Machine

namespace Sys2Proof.Tests

/-! ## Decoding: one written-out word for each instruction -/

/-- R108. -/
theorem test_decode_nop : decode true 0x0000000000000000#64 = some .nop := by decide
/-- R114: rs = 2 in bits 57..53, rt = 3 in bits 52..48, rd = 1 in bits 47..43. -/
theorem test_decode_add : decode true 0x0043080000000001#64 = some (.add 1#5 2#5 3#5) := by decide
/-- R203. -/
theorem test_decode_sub : decode true 0x0043280000000002#64 = some (.sub 5#5 2#5 3#5) := by decide
/-- R204. -/
theorem test_decode_and : decode true 0x00E8300000000003#64 = some (.and 6#5 7#5 8#5) := by decide
/-- R205. -/
theorem test_decode_sll : decode true 0x002A480000000004#64 = some (.sll 9#5 1#5 10#5) := by decide
/-- R206. -/
theorem test_decode_slt : decode true 0x018D580000000005#64 = some (.slt 11#5 12#5 13#5) := by decide
/-- R207. -/
theorem test_decode_mul : decode true 0x01F0700000000006#64 = some (.mul 14#5 15#5 16#5) := by decide
/-- R208. -/
theorem test_decode_addi : decode true 0x0021FFFF00000010#64 = some (.addi 1#5 1#5 0xFFFF#16) := by decide
/-- R220. -/
theorem test_decode_lw : decode true 0x0083000800000020#64 = some (.lw 3#5 4#5 8#16) := by decide
/-- R114. -/
theorem test_decode_sw : decode true 0x0081000000000021#64 = some (.sw 1#5 4#5 0#16) := by decide
/-- R230. -/
theorem test_decode_beq : decode true 0x0022000200000030#64 = some (.beq 1#5 2#5 2#16) := by decide
/-- R231. -/
theorem test_decode_bne : decode true 0x0020FFFD00000031#64 = some (.bne 1#5 0#5 0xFFFD#16) := by decide
/-- L2.3: J -1, t26 all ones. -/
theorem test_decode_j : decode true 0x03FFFFFF00000032#64 = some (.j 0x3FFFFFF#26) := by decide
/-- R240. -/
theorem test_decode_syscall : decode true 0x0000000000000040#64 = some .syscall := by decide

/-- L2.3: the illegal words, each refused for its own reason. -/
theorem test_decode_illegal :
    classify true 0x0000000100000040#64 = .error .operandWordBits ∧ classify true 0x0000000000000100#64 = .error .opcodeWordBits ∧
      classify true 0x00000000000000FF#64 = .error .unlistedOpcode ∧ classify true 0x0000000000000007#64 = .error .unlistedOpcode ∧
      classify true 0x0043080100000001#64 = .error .operandWordBits ∧
      classify true 0x0443080000000001#64 = .error .operandWordBits ∧
      classify false 0x0022180000000006#64 = .error .mulAbsent := by decide

/-- R100: fewer than eight bytes are no instruction, and the byte decoder gives the rest back. -/
theorem test_decode_bytes :
    decodeBytes true [0x01#8, 0#8, 0#8, 0#8, 0#8, 0x08#8, 0x43#8] = .error .tooFewBytes ∧
      decodeBytes true [0x01#8, 0#8, 0#8, 0#8, 0#8, 0x08#8, 0x43#8, 0#8, 0x99#8] = .ok (.add 1#5 2#5 3#5, [0x99#8]) := by
  decide

/-- Bits above the table's row are 0: MUL r3, r1, r2 from its 64 bits, and NOP from no bits at all. -/
theorem test_decodeTableWord :
    decodeTableWord 64 0x0022180000000006 = some (.mul 3#5 1#5 2#5) ∧ decodeTableWord 0 0x0022180000000006 = some .nop := by
  decide

/-! ## Well-formedness: the one check refuses an ill-formed term -/

/-- R106: without `HAS_MUL` a MUL is no instruction. -/
theorem test_wellFormed_mul : Instr.wellFormed false (.mul 3#5 1#5 2#5) = false ∧ Instr.wellFormed true (.mul 3#5 1#5 2#5) = true := by
  decide

/-! ## The assembler (R111 to R113) -/

/-- R113 and L3.2: `li`, `mov`, `b`, `halt`, and a branch back by a label. -/
theorem test_assemble :
    assemble 0x1028#32 (.bne 1#5 0#5 0x1018#32) = some (.bne 1#5 0#5 0xFFFD#16) ∧
      assemble 0x1008#32 (.j 0x1018#32) = some (.j 1#26) ∧ assemble 0#32 (.li 3#5 (-6)) = some (.addi 3#5 0#5 0xFFFA#16) ∧
      assemble 0#32 (.mov 1#5 2#5) = some (.add 1#5 2#5 0#5) ∧ assemble 0#32 (.b 8#32) = some (.beq 0#5 0#5 0#16) ∧
      assemble 0#32 .halt = some .syscall ∧ assemble 0#32 (.li 3#5 32768) = none ∧ assemble 0#32 (.b 12#32) = none := by
  decide

/-! ## One instruction at a time, on a small state -/

/-- The reset state with some registers set. -/
def withRegs (rs : List (RegIdx × Word)) : State := { State.reset with regs := writeRegs State.reset.regs rs }

/-- The reset state with some words in the backing store. -/
def withWords (ws : List (Word × Word)) (s : State) : State := s.load [] ws

/-- What a register of the next state holds. -/
def regAfter (o : Host.Outcome State Fault Refusal) (r : RegIdx) : Option Word :=
  match o with
  | .next t => some (t.reg r)
  | _ => none

/-- The status of the next state. -/
def statusAfter (o : Host.Outcome State Fault Refusal) : Option Status :=
  match o with
  | .next t => some t.status
  | _ => none

/-- The address of the instruction after. -/
def pcAfter (o : Host.Outcome State Fault Refusal) : Option Word :=
  match o with
  | .next t => some t.nextPc
  | _ => none

/-- A word a program observes in the next state. -/
def wordAfter (o : Host.Outcome State Fault Refusal) (a : Word) : Option Word :=
  match o with
  | .next t => some (archWord t.mem a)
  | _ => none

/-- L2.1: NOP goes on and does not count. -/
theorem test_nop : pcAfter (exec .nop State.reset) = some 0x1008#32 := by decide
/-- L2.1: the carry is lost. -/
theorem test_add_wraps : regAfter (exec (.add 3#5 1#5 2#5) (withRegs [(1#5, 0xFFFFFFFF#32), (2#5, 1#32)])) 3#5 = some 0#32 := by
  decide
/-- L2.1: sources are read before the destination is written; r0 stays 0. -/
theorem test_add_same : regAfter (exec (.add 1#5 1#5 1#5) (withRegs [(1#5, 0x40000000#32)])) 1#5 = some 0x80000000#32 ∧
    regAfter (exec (.add 0#5 1#5 2#5) (withRegs [(1#5, 5#32), (2#5, 6#32)])) 0#5 = some 0#32 := by decide
/-- L2.1: the borrow wraps. -/
theorem test_sub : regAfter (exec (.sub 3#5 1#5 2#5) (withRegs [(2#5, 1#32)])) 3#5 = some 0xFFFFFFFF#32 := by decide
/-- L2.1. -/
theorem test_and : regAfter (exec (.and 3#5 1#5 2#5) (withRegs [(1#5, 0xF0F0F0F0#32), (2#5, 0x0FF00FF0#32)])) 3#5 =
    some 0x00F000F0#32 := by decide
/-- L2.1: only b[4:0] counts: a shift by the width is a shift by 0. -/
theorem test_sll : regAfter (exec (.sll 3#5 1#5 2#5) (withRegs [(1#5, 1#32), (2#5, 32#32)])) 3#5 = some 1#32 ∧
    regAfter (exec (.sll 3#5 1#5 2#5) (withRegs [(1#5, 3#32), (2#5, 37#32)])) 3#5 = some 0x60#32 := by decide
/-- L2.1: the comparison is signed. -/
theorem test_slt : regAfter (exec (.slt 3#5 1#5 2#5) (withRegs [(1#5, 0x80000000#32), (2#5, 0x7FFFFFFF#32)])) 3#5 = some 1#32 ∧
    regAfter (exec (.slt 3#5 1#5 2#5) (withRegs [(1#5, 1#32), (2#5, 0xFFFFFFFF#32)])) 3#5 = some 0#32 := by decide
/-- L2.1: (-3) times 7. -/
theorem test_mul : regAfter (exec (.mul 3#5 1#5 2#5) (withRegs [(1#5, 0xFFFFFFFD#32), (2#5, 7#32)])) 3#5 =
    some 0xFFFFFFEB#32 := by decide
/-- L2.2: the most negative immediate. -/
theorem test_addi : regAfter (exec (.addi 3#5 1#5 0x8000#16) State.reset) 3#5 = some 0xFFFF8000#32 := by decide
/-- L2.4: a load with a negative offset. -/
theorem test_lw : regAfter (exec (.lw 3#5 4#5 0xFFFC#16) (withWords [(0x2000#32, 0x11223344#32)] (withRegs [(4#5, 0x2004#32)])))
    3#5 = some 0x11223344#32 := by decide
/-- L2.4: a misaligned load, and one whose address wraps below 0 and is out of range. -/
theorem test_lw_faults :
    statusAfter (exec (.lw 3#5 4#5 1#16) (withRegs [(4#5, 0x2000#32)])) =
        some (.faulted .misalignedAccess 0x1000#32 0x2001#64) ∧
      statusAfter (exec (.lw 3#5 4#5 0xFFFC#16) State.reset) = some (.faulted .outOfRange 0x1000#32 0xFFFFFFFC#64) := by decide
/-- L2.4: the base is also the data. -/
theorem test_sw : wordAfter (exec (.sw 4#5 4#5 0#16) (withRegs [(4#5, 0x2000#32)])) 0x2000#32 = some 0x2000#32 := by decide
/-- R230 at pc 0x1000: to 0x1018, or on to 0x1008. -/
theorem test_beq : pcAfter (exec (.beq 1#5 2#5 2#16) (withRegs [(1#5, 3#32), (2#5, 3#32)])) = some 0x1018#32 ∧
    pcAfter (exec (.beq 1#5 2#5 2#16) (withRegs [(1#5, 3#32), (2#5, 4#32)])) = some 0x1008#32 := by decide
/-- R231 at pc 0x1028, offset -3. -/
theorem test_bne : pcAfter (exec (.bne 1#5 0#5 0xFFFD#16) ((withRegs [(1#5, 2#32)]).atPc 0x1028#32)) = some 0x1018#32 ∧
    pcAfter (exec (.bne 1#5 0#5 0xFFFD#16) (State.reset.atPc 0x1028#32)) = some 0x1030#32 := by decide
/-- L2.5: t26 all ones at p goes to p. -/
theorem test_j : pcAfter (exec (.j 0x3FFFFFF#26) State.reset) = some 0x1000#32 := by decide
/-- R245 and L2.9: the halting handler. -/
theorem test_syscall : statusAfter (exec .syscall State.reset) = some (.halted .syscall) := by decide

/-! ## Witnesses: configurations and states that meet the hypotheses of the statements -/

theorem reset_ready : State.reset.Ready := ⟨by decide, rfl⟩

theorem reset_belowLimit : State.reset.BelowLimit := fun _ h => by cases h

/-- An empty cache over a canonical backing store meets the memory's invariants, whatever the configuration. -/
theorem empty_memInv (cfg : Config) (bs : Memory) (h : Memory.wf bs = true) : MemInv cfg ⟨.empty, bs⟩ :=
  ⟨h, fun i => by simp, fun i => by simp, fun i => by simp, fun i => by simp, fun _ i => by simp, fun _ => rfl⟩

/-- Reset's memory meets them under any configuration. -/
theorem reset_memInv (cfg : Config) : MemInv cfg State.reset.mem := empty_memInv cfg [] rfl

/-- A state with an instruction in every latch: ADDI r1, r0, 5 in WB, SW r1, 0x100(r0) in MEM, LW r2, 0x100(r0) in EX and
ADD r3, r2, r2 in ID, which must wait for the load. -/
def full : State :=
  { State.reset with
    fpc := 0x1018#32
    ifid := ⟨0x1018#32, 0x0042180000000001#64, none⟩
    idex := issueLatch (decodeIns true 0x0002010000000020#64) 0x1010#32 0#32 0#32 none
    exmem := ⟨0x1008#32, decodeIns true 0x0001010000000021#64, 0#5, 0x100#32, 5#32, false, true, none⟩
    memwb := ⟨0x1000#32, decodeIns true 0x0001000500000010#64, 1#5, 5#32⟩ }

theorem full_ready : full.Ready := ⟨by decide, rfl⟩

/-- It is a good state: an invariant that a state with instructions in flight meets. -/
theorem full_good : GoodState full where
  zero := by unfold ZeroInv; decide
  memory := reset_memInv _
  fetch := ⟨by unfold aligned8; decide, fun _ e => (by cases e), by unfold aligned8; decide, by unfold aligned8; decide,
    by decide⟩
  squash := ⟨fun h => absurd rfl h, fun _ h => absurd rfl h, by decide⟩
  operands := {
    wbBubble := by decide
    wbDecoded := .inl (by decide)
    wbDest := by decide
    wbNoMarker := by unfold isMarker; decide
    wbValue := by decide
    wbAccess := by decide
    memBubble := by decide
    memDecoded := .inl (by decide)
    memDest := by decide
    memLoad := by decide
    memStore := by decide
    memMarker := by unfold isMarker; decide
    memRes := by decide
    memData := by decide
    exBubble := by decide
    exDecoded := .inl (by decide)
    exDest := by decide
    exLoad := by decide
    exStore := by decide
    exBranch := by decide
    exMarker := by unfold isMarker; decide
    exImm := by decide
    exTarget := by decide
    exA := by decide
    exB := by decide
    syscallInMem := by decide
    syscallInWb := by decide }
  path := ⟨by decide, by decide, fun h => (by cases h), fun h => (by cases h), by decide, by decide⟩

/-- A next state that goes on, from a state that runs. -/
theorem goesOn {s : State} (h : s.Ready) (hr : (cycleNext s).status = .running) :
    ∃ s', step s = .next s' ∧ s'.status = .running := ⟨_, step_ready h, hr⟩

/-- The reset state under another configuration. -/
def under (cfg : Config) : State := { State.reset with cfg := cfg }

/-- The reset state with the instruction `w` in IF/ID. -/
def inDecode (cfg : Config) (w : DWord) : State := { under cfg with ifid := ⟨0x1000#32, w, none⟩ }

/-- The reset state with the instruction `w` in ID/EX, its operands read from reset's registers. -/
def inExecute (cfg : Config) (w : DWord) : State :=
  { under cfg with idex := issueLatch (decodeIns true w) 0x1000#32 0#32 0#32 none }

/-- The reset state with the slot `x` in EX/MEM. -/
def inMem (x : ExMemLatch) : State := { State.reset with exmem := x }

/-- The reset state with the instruction `w` in MEM/WB. -/
def inWb (cfg : Config) (w : DWord) : State :=
  { under cfg with memwb := ⟨0x1000#32, decodeIns true w, destOf (decodeIns true w), 0#32⟩ }

/-- The four configurations that differ from the reference one. -/
def stallPolicy : Config := { Config.reference with hazardPolicy := .stall }
def branchInId : Config := { Config.reference with branchStage := .id }
def noMul : Config := { Config.reference with hasMul := false }
def noCache : Config := { Config.reference with cacheEnabled := false }

/-! ### Encoding -/

theorem witness_DecodeOfEncodedInstr : Instr.wellFormed false (.lw 31#5 0#5 0xFFFF#16) = true := by decide
theorem witness_EncodeOfDecodedWord : decode true 0x03FFFFFF00000032#64 = some (.j 0x3FFFFFF#26) := by decide
/-- At the two ends of the address space. -/
theorem witness_StoredInsnReadsBack : aligned8 0#32 ∧ aligned8 0xFFFFFFF8#32 := by unfold aligned8; decide
/-- Both fields, at the ends of their ranges. -/
theorem witness_AssembledLabelIsTheTarget :
    labelField? 16 0x100000#32 0xC0008#32 = some 0x8000#16 ∧ labelField? 16 0x1000#32 0x41000#32 = some 0x7FFF#16 ∧
      labelField? 26 0x1008#32 0x10001008#32 = some 0x1FFFFFF#26 ∧ labelField? 26 0x1000#32 0x1000#32 = some 0x3FFFFFF#26 := by
  decide

/-! ### Construction -/

/-- One configuration that passes, and one that fails each of the checks (a) to (e). -/
theorem witness_FailedCheckRunsNoCycle :
    configError? Config.reference = none ∧
      configError? { Config.reference with byteOrder := .big } = some .byteOrder ∧
      configError? { Config.reference with nregs := 16 } = some .widths ∧
      configError? { Config.reference with nways := 8 } = some .cacheGeometry ∧
      configError? { Config.reference with memValid := [⟨0, 0xFFF8⟩] } = some .memValidNotUniform ∧
      configError? { Config.reference with entry := 0x1004#32 } = some .entryMisaligned ∧
      (under { Config.reference with entry := 0x1004#32 }).cfg = { Config.reference with entry := 0x1004#32 } :=
  ⟨by decide, by decide, by decide, by decide, by decide, by decide, rfl⟩

/-! ### The cache -/

/-- Clause by clause: misaligned below and above the valid range, the first invalid word, the last valid one. -/
theorem witness_AccessFaultsExactlyAsChecked :
    (3#32).toNat % 4 ≠ 0 ∧ (0x10001#32).toNat % 4 ≠ 0 ∧
      ((0x10000#32).toNat % 4 = 0 ∧ memValid Config.reference 0x10000#32 = false) ∧
      ((0xFFFC#32).toNat % 4 = 0 ∧ memValid Config.reference 0xFFFC#32 = true) := by decide

/-- The memory after a word is written through the cache. -/
def written : MemSys :=
  match cacheWrite Config.reference 0x2000#32 0xDEADBEEF#32 State.reset.mem with
  | .ok _ m => m
  | .fault _ => State.reset.mem

theorem cacheWrite_written :
    cacheWrite Config.reference 0x2000#32 0xDEADBEEF#32 State.reset.mem = .ok 0#32 written := by decide

/-- A read that misses. -/
theorem witness_CacheReadReturnsArchMem :
    MemInv Config.reference State.reset.mem ∧ ∃ v m', cacheRead Config.reference 0xFFFC#32 State.reset.mem = .ok v m' :=
  ⟨reset_memInv _, _, _, rfl⟩
theorem witness_CacheWriteChangesArchMem :
    MemInv Config.reference State.reset.mem ∧
      cacheWrite Config.reference 0x2000#32 0xDEADBEEF#32 State.reset.mem = .ok 0#32 written :=
  ⟨reset_memInv _, cacheWrite_written⟩
/-- A miss in an empty set, then a hit on the line it brought in. -/
theorem witness_AccessCountsOnce :
    Config.reference.cacheEnabled = true ∧
      (∃ w m', cacheAccess Config.reference .read 0x2000#32 0#32 State.reset.mem = .ok w m') ∧
      findLine (getSet State.reset.mem.cache.sets (indexOf 0x2000#32)) (tagOf 0x2000#32) = none ∧
      (∃ w m', cacheAccess Config.reference .read 0x200C#32 0#32 written = .ok w m') ∧
      findLine (getSet written.cache.sets (indexOf 0x200C#32)) (tagOf 0x200C#32) ≠ none :=
  ⟨rfl, ⟨_, _, rfl⟩, by decide, ⟨_, _, rfl⟩, by decide⟩
/-- A dirty line of set 0 with the tag `t`. -/
def dirtyLine (t : BitVec 24) : Line := ⟨t, true, Vector.replicate 16 7#8⟩

/-- A memory whose set 0 is full of dirty lines with the tags 0x20 to 0x23. -/
def fullSet : MemSys :=
  ⟨⟨putSet Cache.empty.sets 0#4 [dirtyLine 0x20#24, dirtyLine 0x21#24, dirtyLine 0x22#24, dirtyLine 0x23#24],
    ⟨0, 0, 0, 0, 0, 0⟩⟩, []⟩

/-- A hit, a miss in a set with room, and a miss in a full set whose last line is dirty. -/
theorem witness_AccessKeepsRecencyOrder :
    Config.reference.cacheEnabled = true ∧
      (∃ w m', cacheAccess Config.reference .write 0x2004#32 7#32 written = .ok w m') ∧
      findLine (getSet written.cache.sets (indexOf 0x2004#32)) (tagOf 0x2004#32) ≠ none ∧
      (∃ w m', cacheAccess Config.reference .write 0x2104#32 7#32 written = .ok w m') ∧
      findLine (getSet written.cache.sets (indexOf 0x2104#32)) (tagOf 0x2104#32) = none ∧
      (getSet written.cache.sets (indexOf 0x2104#32)).length ≠ 4 ∧
      (∃ w m', cacheAccess Config.reference .read 0x2400#32 0#32 fullSet = .ok w m') ∧
      findLine (getSet fullSet.cache.sets (indexOf 0x2400#32)) (tagOf 0x2400#32) = none ∧
      (getSet fullSet.cache.sets (indexOf 0x2400#32)).length = 4 ∧
      (getSet fullSet.cache.sets (indexOf 0x2400#32)).getLast? = some (dirtyLine 0x23#24) ∧
      (dirtyLine 0x23#24).dirty = true :=
  ⟨rfl, ⟨_, _, rfl⟩, by decide, ⟨_, _, rfl⟩, by decide, by decide, ⟨_, _, rfl⟩, by decide, by decide, by decide, rfl⟩
theorem witness_DisabledCachePassesThrough : noCache.cacheEnabled = false ∧ accessFault? noCache 0x2000#32 = none := by decide
/-- The flush, at the end of a run and during one. -/
theorem witness_FlushWritesBackEverything :
    MemInv Config.reference State.reset.mem ∧ ({ State.reset with status := .halted .syscall } : State).mem = State.reset.mem ∧
      ({ State.reset with status := .halted .syscall } : State).status ≠ .running ∧ State.reset.status = .running :=
  ⟨reset_memInv _, rfl, by decide, rfl⟩
theorem witness_AccessKeepsMemInv :
    configError? Config.reference = none ∧ MemInv Config.reference State.reset.mem ∧
      cacheAccess Config.reference .write 0x2000#32 0xDEADBEEF#32 State.reset.mem = .ok 0#32 written :=
  ⟨by decide, reset_memInv _, cacheWrite_written⟩

/-! ### Instructions executed alone -/

theorem witness_NopChangesNothing : State.reset.Ready ∧ State.reset.BelowLimit := ⟨reset_ready, reset_belowLimit⟩
theorem witness_AddWritesSum : State.reset.Ready := reset_ready
theorem witness_SubWritesDifference : State.reset.Ready := reset_ready
theorem witness_AndWritesConjunction : State.reset.Ready := reset_ready
theorem witness_SllShiftsByLowFiveBits : State.reset.Ready := reset_ready
theorem witness_SltComparesSigned : State.reset.Ready := reset_ready
theorem witness_MulWritesLowProduct : State.reset.Ready ∧ State.reset.cfg.hasMul = true := ⟨reset_ready, rfl⟩
theorem witness_MulAbsentIsIllegal : (under noMul).Ready ∧ (under noMul).cfg.hasMul = false := ⟨⟨by decide, rfl⟩, rfl⟩
theorem witness_AddiAddsSignedImmediate : State.reset.Ready := reset_ready
/-- The last valid word. -/
theorem witness_LwLoadsArchMem :
    State.reset.Ready ∧ MemInv State.reset.cfg State.reset.mem ∧
      0x7FFC#32 = State.reset.reg 0#5 + (0x7FFC#16).signExtend 32 ∧ (0x7FFC#32).toNat % 4 = 0 ∧
      memValid State.reset.cfg 0x7FFC#32 = true := ⟨reset_ready, reset_memInv _, by decide, by decide, by decide⟩
theorem witness_SwStoresWord :
    State.reset.Ready ∧ MemInv State.reset.cfg State.reset.mem ∧
      0#32 = State.reset.reg 0#5 + (0#16).signExtend 32 ∧ (0#32).toNat % 4 = 0 ∧
      memValid State.reset.cfg 0#32 = true := ⟨reset_ready, reset_memInv _, by decide, by decide, by decide⟩
/-- Misaligned, and aligned but out of range by a wrap below 0. -/
theorem witness_LoadStoreTakeDataFaults :
    State.reset.Ready ∧
      (0xFFFFFFFF#32 = State.reset.reg 0#5 + (0xFFFF#16).signExtend 32 ∧ (0xFFFFFFFF#32).toNat % 4 ≠ 0) ∧
      (0xFFFFFFFC#32 = State.reset.reg 0#5 + (0xFFFC#16).signExtend 32 ∧ (0xFFFFFFFC#32).toNat % 4 = 0 ∧
        memValid State.reset.cfg 0xFFFFFFFC#32 = false) := ⟨reset_ready, by decide, by decide⟩
/-- Equal operands and different ones. -/
theorem witness_BeqAndBneBranch :
    State.reset.Ready ∧ State.reset.reg 1#5 = State.reset.reg 2#5 ∧
      (withRegs [(1#5, 0x80000000#32)]).Ready ∧ (withRegs [(1#5, 0x80000000#32)]).reg 1#5 ≠ (withRegs [(1#5, 0x80000000#32)]).reg 2#5 :=
  ⟨reset_ready, by decide, ⟨by decide, rfl⟩, by decide⟩
theorem witness_JumpGoesToTarget : State.reset.Ready := reset_ready

/-- A handler that writes a register and a byte and goes on. -/
def goingOn : Config := { Config.reference with
  handler := .scripted [⟨0x1000#32, [(7#5, 99#32)], [(0x2000#32, 1#8), (0x10000#32, 2#8)], false⟩] }

/-- A handler that halts and one that goes on; a valid address it writes and an invalid one. -/
theorem witness_SyscallAppliesHandler :
    State.reset.Ready ∧
      (handlerAnswer State.reset.cfg.handler (State.reset.regs.set 0 0#32) (archByte State.reset.mem) State.reset.nextPc).halt
        = true ∧
      (under goingOn).Ready ∧
      (handlerAnswer goingOn.handler ((under goingOn).regs.set 0 0#32) (archByte (under goingOn).mem)
        (under goingOn).nextPc).halt = false ∧
      memValid goingOn 0x2000#32 = true ∧ memValid goingOn 0x10000#32 = false :=
  ⟨reset_ready, by decide, ⟨by decide, rfl⟩, by decide, by decide, by decide⟩
theorem witness_FourInstrsBuildAnyConstant :
    State.reset.Ready ∧ State.reset.cfg.maxInsns = none ∧ 1#5 ≠ 0#5 ∧ 2#5 ≠ 0#5 ∧ 1#5 ≠ 2#5 :=
  ⟨reset_ready, rfl, by decide, by decide, by decide⟩

/-! ### Hazards and forwarding -/

theorem witness_StallHoldsFetchAndDecode :
    full.Ready ∧ (∃ s', step full = .next s' ∧ s'.status = .running) ∧ full.pending = none ∧
      exTaken full.cfg full.idex = false ∧ stallOf full (idIns full.cfg full.ifid) = true :=
  ⟨full_ready, goesOn full_ready (by decide), rfl, by decide, by decide⟩
/-- Under both policies. -/
theorem witness_LoadUseStallLength :
    (full.Ready ∧ OperandInv full ∧ full.pending = none ∧ 2#5 ∈ srcsOf (idIns full.cfg full.ifid) ∧ 2#5 ≠ 0#5 ∧
      full.idex.ins.op = .lw ∧ 2#5 = full.idex.dest ∧
      (∃ s1 s2, step full = .next s1 ∧ s1.status = .running ∧ step s1 = .next s2 ∧ s2.status = .running) ∧
      full.cfg.hazardPolicy = .forward) ∧
      ∃ s1 s2, step { full with cfg := stallPolicy } = .next s1 ∧ s1.status = .running ∧ step s1 = .next s2 ∧
        s2.status = .running :=
  ⟨⟨full_ready, full_good.operands, rfl, by decide, by decide, by decide, by decide,
      ⟨_, _, step_ready full_ready, by decide, step_ready ⟨by decide, by decide⟩, by decide⟩, rfl⟩,
    ⟨_, _, step_ready ⟨by decide, rfl⟩, by decide, step_ready ⟨by decide, by decide⟩, by decide⟩⟩
/-- ADD r3, r2, r2 in ID with ADDI r1 in EX. -/
theorem witness_IndependentInstructionDoesNotStall :
    let s : State := { inExecute stallPolicy 0x0001000500000010#64 with ifid := ⟨0x1008#32, 0x0042180000000001#64, none⟩ }
    s.Ready ∧ (∃ s', step s = .next s' ∧ s'.status = .running) ∧
      (∀ r ∈ srcsOf (idIns s.cfg s.ifid), r ≠ 0#5 → r ≠ s.idex.dest ∧ r ≠ s.exmem.dest) ∧ s.idex.ins.op ≠ .syscall ∧
      s.exmem.ins.op ≠ .syscall ∧ exTaken s.cfg s.idex = false ∧ (idIns s.cfg s.ifid).op ≠ .nop :=
  ⟨⟨by decide, rfl⟩, goesOn ⟨by decide, rfl⟩ (by decide), by decide, by decide, by decide, by decide, by decide⟩
/-- ADD r4, r1, r2 in ID with ADDI r1 in EX and ADDI r2 in MEM, and the same word alone under STALL: a source that EX
writes, one that MEM writes, and sources that neither writes. Reset's IF/ID holds a NOP. -/
theorem witness_OperandsAreForwarded :
    let s : State := { inExecute Config.reference 0x0001000500000010#64 with
      ifid := ⟨0x1010#32, 0x0022200000000001#64, none⟩
      exmem := ⟨0x1000#32, decodeIns true 0x0002000600000010#64, 2#5, 6#32, 0#32, false, false, none⟩ }
    let u := inDecode stallPolicy 0x0022200000000001#64
    (s.Ready ∧ (∃ s', step s = .next s' ∧ s'.status = .running) ∧ exTaken s.cfg s.idex = false ∧
      stallOf s (idIns s.cfg s.ifid) = false ∧ s.cfg.hazardPolicy = .forward ∧
      1#5 = s.idex.dest ∧ (2#5 ≠ s.idex.dest ∧ 2#5 = s.exmem.dest) ∧ 3#5 ≠ s.idex.dest ∧ 3#5 ≠ s.exmem.dest) ∧
      (u.Ready ∧ (∃ s', step u = .next s' ∧ s'.status = .running) ∧ exTaken u.cfg u.idex = false ∧
        stallOf u (idIns u.cfg u.ifid) = false ∧ u.cfg.hazardPolicy = .stall) ∧
      (idIns State.reset.cfg State.reset.ifid).op = .nop ∧
      stallOf State.reset (idIns State.reset.cfg State.reset.ifid) = false :=
  ⟨⟨⟨by decide, rfl⟩, goesOn ⟨by decide, rfl⟩ (by decide), by decide, by decide, rfl, by decide, by decide,
      by decide, by decide⟩,
    ⟨⟨by decide, rfl⟩, goesOn ⟨by decide, rfl⟩ (by decide), by decide, by decide, rfl⟩, by decide, by decide⟩

/-! ### The cycle -/

/-- An illegal word in MEM. -/
def illegalInMem : ExMemLatch := ⟨0x1000#32, illegalIns 0xFF#64, 0#5, 0#32, 0#32, false, false, some .illegalInstruction⟩
/-- LW r3 with a misaligned address in MEM. -/
def badLoadInMem : ExMemLatch := ⟨0x1000#32, decodeIns true 0x0083000100000020#64, 3#5, 0x2001#32, 0#32, true, false, none⟩

/-- A running state whose cycle goes on, one whose commit halts, one whose access faults, and an ended run. -/
theorem witness_OnlyARunningStateTakesACycle :
    (configError? full.cfg = none ∧ full.status = .running ∧ (wbStage full).haltReq = false ∧
        (∀ n, full.cfg.maxInsns = some n → (wbStage full).icount < n) ∧
        (memStage full.cfg full.exmem (wbStage full).mem).fault = none) ∧
      ((inWb Config.reference 0x40#64).Ready ∧ (wbStage (inWb Config.reference 0x40#64)).haltReq = true) ∧
      ((inMem badLoadInMem).Ready ∧
        (memStage (inMem badLoadInMem).cfg (inMem badLoadInMem).exmem (wbStage (inMem badLoadInMem)).mem).fault ≠ none) ∧
      ({ State.reset with status := .faulted .outOfRange 0#32 0#64 } : State).status ≠ .running :=
  ⟨⟨by decide, rfl, by decide, fun _ h => (by cases h), by decide⟩, ⟨⟨by decide, rfl⟩, by decide⟩,
    ⟨⟨by decide, rfl⟩, by decide⟩, by decide⟩
theorem witness_EveryCycleCounts : ∃ s', step full = .next s' := ⟨_, step_ready full_ready⟩
theorem witness_WbWritesDestination :
    (∃ s', step full = .next s') ∧ full.memwb.ins.op ≠ .nop ∧ full.memwb.ins.op ≠ .syscall :=
  ⟨⟨_, step_ready full_ready⟩, by decide, by decide⟩
/-- A halt by the handler, and one by a limit that this commit reaches. -/
theorem witness_HaltBeatsFault :
    ((inWb Config.reference 0x40#64).Ready ∧ (wbStage (inWb Config.reference 0x40#64)).haltReq = true) ∧
      (inWb { Config.reference with maxInsns := some 1 } 0x0001000500000010#64).Ready ∧
      ∃ n, (inWb { Config.reference with maxInsns := some 1 } 0x0001000500000010#64).cfg.maxInsns = some n ∧
        n ≤ (wbStage (inWb { Config.reference with maxInsns := some 1 } 0x0001000500000010#64)).icount :=
  ⟨⟨⟨by decide, rfl⟩, by decide⟩, ⟨by decide, rfl⟩, 1, rfl, by decide⟩

/-- A marker slot, and a faulting access. -/
theorem witness_FaultIsTakenInMem :
    ((inMem illegalInMem).Ready ∧ (inMem illegalInMem).exmem.ins.op ≠ .nop ∧ (wbStage (inMem illegalInMem)).haltReq = false ∧
      (∀ n, (inMem illegalInMem).cfg.maxInsns = some n → (wbStage (inMem illegalInMem)).icount < n) ∧
      (inMem illegalInMem).exmem.fault = some .illegalInstruction ∧
      0xFF#64 = (if FaultKind.illegalInstruction = .illegalInstruction then (inMem illegalInMem).exmem.ins.raw
        else (inMem illegalInMem).exmem.pc.setWidth 64)) ∧
      (inMem badLoadInMem).Ready ∧ (inMem badLoadInMem).exmem.ins.op ≠ .nop ∧ (wbStage (inMem badLoadInMem)).haltReq = false ∧
      (∀ n, (inMem badLoadInMem).cfg.maxInsns = some n → (wbStage (inMem badLoadInMem)).icount < n) ∧
      (inMem badLoadInMem).exmem.fault = none ∧ (inMem badLoadInMem).exmem.isLoad = true ∧
      accessFault? (inMem badLoadInMem).cfg (inMem badLoadInMem).exmem.res = some .misalignedAccess ∧
      0x2001#64 = (inMem badLoadInMem).exmem.res.setWidth 64 :=
  ⟨⟨⟨by decide, rfl⟩, by decide, by decide, fun _ h => (by cases h), rfl, by decide⟩,
    ⟨by decide, rfl⟩, by decide, by decide, fun _ h => (by cases h), rfl, rfl, by decide, by decide⟩

/-- With BNE r0, r0, +1 not taken in ID as well; the last valid instruction, the first address past it, and a misaligned
target. -/
theorem witness_FetchReadsBackingStore :
    (State.reset.Ready ∧ (∃ s', step State.reset = .next s' ∧ s'.status = .running) ∧
      exTaken State.reset.cfg State.reset.idex = false ∧ State.reset.cfg.branchStage ≠ .id ∧
      stallOf State.reset (idIns State.reset.cfg State.reset.ifid) = false) ∧
      (let u := inDecode branchInId 0x0000000100000031#64;
        u.Ready ∧ u.cfg.branchStage = .id ∧ exTaken u.cfg u.idex = false ∧ stallOf u (idIns u.cfg u.ifid) = false ∧
          ∃ s', step u = .next s' ∧ s'.status = .running ∧ taken (idIns u.cfg u.ifid).op s'.idex.a s'.idex.b = false) ∧
      ((State.reset.atPc 0xFFF8#32).nextPc.toNat % 8 = 0 ∧ memValid Config.reference (State.reset.atPc 0xFFF8#32).nextPc = true) ∧
      ((State.reset.atPc 0x10000#32).nextPc.toNat % 8 = 0 ∧
        memValid Config.reference (State.reset.atPc 0x10000#32).nextPc = false) ∧
      (({ State.reset with pending := some 0x1004#32 } : State).nextPc.toNat % 8 ≠ 0 ∧
        ({ State.reset with pending := some 0x1004#32 } : State).pending ≠ none) :=
  ⟨⟨reset_ready, goesOn reset_ready (by decide), by decide, by decide, by decide⟩,
    ⟨⟨by decide, rfl⟩, rfl, by decide, by decide, _, step_ready ⟨by decide, rfl⟩, by decide, by decide⟩,
    by decide, by decide, by decide⟩
theorem witness_StepIssuesDecodedInstr :
    let s := inDecode Config.reference 0x0043080000000001#64
    s.Ready ∧ (∃ s', step s = .next s' ∧ s'.status = .running) ∧ s.ifid.ffault = none ∧
      decode s.cfg.hasMul s.ifid.word = some (.add 1#5 2#5 3#5) ∧ Instr.add 1#5 2#5 3#5 ≠ .nop ∧
      stallOf s (idIns s.cfg s.ifid) = false ∧ exTaken s.cfg s.idex = false :=
  ⟨⟨by decide, rfl⟩, goesOn ⟨by decide, rfl⟩ (by decide), rfl, by decide, by decide, by decide, by decide⟩
/-- BEQ r0, r0, +1 in EX. -/
theorem witness_TakenInExSquashesTwo :
    let s := inExecute Config.reference 0x0000000100000030#64
    s.Ready ∧ (∃ s', step s = .next s' ∧ s'.status = .running) ∧ s.cfg.branchStage = .ex ∧
      taken s.idex.ins.op s.idex.a s.idex.b = true :=
  ⟨⟨by decide, rfl⟩, goesOn ⟨by decide, rfl⟩ (by decide), rfl, by decide⟩
/-- BEQ r0, r0, +1 in ID. -/
theorem witness_TakenInIdSquashesOne :
    let s := inDecode branchInId 0x0000000100000030#64
    s.Ready ∧ s.cfg.branchStage = .id ∧ stallOf s (idIns s.cfg s.ifid) = false ∧
      ∃ s', step s = .next s' ∧ s'.status = .running ∧ taken (idIns s.cfg s.ifid).op s'.idex.a s'.idex.b = true :=
  ⟨⟨by decide, rfl⟩, rfl, by decide, _, step_ready ⟨by decide, rfl⟩, by decide, by decide⟩
/-- BNE r0, r0, +1 in EX, the same in ID with branches resolved there, and an instruction that stalls. -/
theorem witness_NotTakenSquashesNothing :
    (let s := inExecute Config.reference 0x0000000100000031#64;
      s.Ready ∧ (∃ s', step s = .next s' ∧ s'.status = .running) ∧ s.cfg.branchStage ≠ .id ∧
        taken s.idex.ins.op s.idex.a s.idex.b = false ∧ stallOf s (idIns s.cfg s.ifid) = false) ∧
      (let u := inDecode branchInId 0x0000000100000031#64;
        u.Ready ∧ u.cfg.branchStage ≠ .ex ∧ stallOf u (idIns u.cfg u.ifid) = false ∧
          ∃ s', step u = .next s' ∧ s'.status = .running ∧ taken (idIns u.cfg u.ifid).op s'.idex.a s'.idex.b = false) ∧
      full.Ready ∧ (∃ s', step full = .next s' ∧ s'.status = .running) ∧ full.cfg.branchStage ≠ .id ∧
        taken full.idex.ins.op full.idex.a full.idex.b = false ∧ stallOf full (idIns full.cfg full.ifid) = true ∧
        full.pending = none :=
  ⟨⟨⟨by decide, rfl⟩, goesOn ⟨by decide, rfl⟩ (by decide), by decide, by decide, by decide⟩,
    ⟨⟨by decide, rfl⟩, by decide, by decide, _, step_ready ⟨by decide, rfl⟩, by decide, by decide⟩,
    full_ready, goesOn full_ready (by decide), by decide, by decide, by decide, rfl⟩

/-! ### Invariants -/

theorem witness_ConstructionIsGood : configError? Config.reference = none ∧ Memory.wf [(0x1000, 0x40#8)] = true := by decide
theorem witness_StepKeepsMemInv : MemInv full.cfg full.mem ∧ ∃ s', step full = .next s' :=
  ⟨full_good.memory, _, step_ready full_ready⟩
theorem witness_RegisterZeroStaysZero :
    ZeroInv full ∧ (∃ s', step full = .next s') ∧ ∃ s', exec (.add 0#5 1#5 2#5) full = .next s' :=
  ⟨full_good.zero, ⟨_, step_ready full_ready⟩, _, exec_add full_ready _ _ _⟩
theorem witness_StepKeepsFetchAligned : FetchInv full ∧ ∃ s', step full = .next s' :=
  ⟨full_good.fetch, _, step_ready full_ready⟩
theorem witness_StepKeepsSquashInv : OperandInv full ∧ SquashInv full ∧ ∃ s', step full = .next s' :=
  ⟨full_good.operands, full_good.squash, _, step_ready full_ready⟩
theorem witness_StepKeepsGoodState : GoodState full ∧ ∃ s', step full = .next s' ∧ s'.status = .running :=
  ⟨full_good, goesOn full_ready (by decide)⟩

/-! ### The pipeline runs the instructions -/

/-- BEQ r0, r0, +1 alone in EX. -/
def branchInEx : State := { inExecute Config.reference 0x0000000100000030#64 with fpc := 0x1008#32, ifid := ⟨0x1008#32, 0#64, none⟩ }

/-- It is a good state. -/
theorem branchInEx_good : GoodState branchInEx where
  zero := by unfold ZeroInv; decide
  memory := reset_memInv _
  fetch := ⟨by unfold aligned8; decide, fun _ e => (by cases e), by unfold aligned8; decide, by unfold aligned8; decide,
    by decide⟩
  squash := ⟨fun h => absurd rfl h, fun _ h => absurd rfl h, by decide⟩
  operands := {
    wbBubble := fun _ => rfl
    wbDecoded := .inl (by decide)
    wbDest := by decide
    wbNoMarker := by unfold isMarker; decide
    wbValue := by decide
    wbAccess := by decide
    memBubble := fun _ => rfl
    memDecoded := .inl (by decide)
    memDest := by decide
    memLoad := by decide
    memStore := by decide
    memMarker := by unfold isMarker; decide
    memRes := by decide
    memData := by decide
    exBubble := by decide
    exDecoded := .inl (by decide)
    exDest := by decide
    exLoad := by decide
    exStore := by decide
    exBranch := by decide
    exMarker := by unfold isMarker; decide
    exImm := by decide
    exTarget := by decide
    exA := by decide
    exB := by decide
    syscallInMem := by decide
    syscallInWb := by decide }
  path := ⟨by decide, by decide, fun h => (by cases h), fun h => (by cases h), by decide, by decide⟩

/-- The word `w` alone in IF/ID, with branches resolved in ID. -/
def fetched (w : DWord) : State := { inDecode branchInId w with fpc := 0x1000#32 }

/-- It is a good state. -/
theorem fetched_good (w : DWord) : GoodState (fetched w) where
  zero := rfl
  memory := reset_memInv _
  fetch :=
    have h : aligned8 0x1000#32 ∧ aligned8 0#32 := by unfold aligned8; decide
    ⟨h.1, fun _ e => (by cases e), h.1, h.2, nofun⟩
  squash := ⟨fun h => absurd rfl h, fun _ h => absurd rfl h, ⟨nofun, nofun⟩⟩
  operands := {
    wbBubble := fun _ => rfl
    wbDecoded := .inl (by show nopIns = decodeIns true 0#64; decide)
    wbDest := rfl
    wbNoMarker := nofun
    wbValue := rfl
    wbAccess := nofun
    memBubble := fun _ => rfl
    memDecoded := .inl (by show nopIns = decodeIns true 0#64; decide)
    memDest := rfl
    memLoad := rfl
    memStore := rfl
    memMarker := ⟨fun h => absurd rfl h, nofun⟩
    memRes := rfl
    memData := rfl
    exBubble := fun _ => rfl
    exDecoded := .inl (by show nopIns = decodeIns true 0#64; decide)
    exDest := rfl
    exLoad := rfl
    exStore := rfl
    exBranch := rfl
    exMarker := ⟨fun h => absurd rfl h, nofun⟩
    exImm := rfl
    exTarget := rfl
    exA := rfl
    exB := rfl
    syscallInMem := nofun
    syscallInWb := nofun }
  path := ⟨fun _ => .inr rfl, fun _ h => absurd rfl h, fun _ _ h => (by cases h), fun _ _ => rfl, fun h => absurd rfl h,
    fun h => absurd rfl h⟩

/-- ADDI in WB; BEQ taken in EX, and LW in EX, which is no branch; BEQ taken in ID and BNE not taken there. -/
theorem witness_CommitIsExec :
    (full.Ready ∧ GoodState full ∧ full.memwb.ins.toInstr? = some (.addi 1#5 0#5 5#16) ∧ ∃ s', step full = .next s') ∧
      (branchInEx.Ready ∧ GoodState branchInEx ∧ (∃ s', step branchInEx = .next s' ∧ s'.status = .running) ∧
        branchInEx.cfg.branchStage = .ex ∧ branchInEx.idex.ins.toInstr? = some (.beq 0#5 0#5 1#16) ∧
        taken branchInEx.idex.ins.op branchInEx.idex.a branchInEx.idex.b = true) ∧
      ((∃ s', step full = .next s' ∧ s'.status = .running) ∧ full.cfg.branchStage = .ex ∧
        full.idex.ins.toInstr? = some (.lw 2#5 0#5 0x100#16) ∧
        taken full.idex.ins.op full.idex.a full.idex.b = false) ∧
      ((fetched 0x0000000100000030#64).Ready ∧ GoodState (fetched 0x0000000100000030#64) ∧
        ∃ s', step (fetched 0x0000000100000030#64) = .next s' ∧ s'.status = .running ∧
          s'.idex.ins.toInstr? = some (.beq 0#5 0#5 1#16) ∧ s'.pending = some 0x1010#32) ∧
      (fetched 0x0000000100000031#64).Ready ∧ GoodState (fetched 0x0000000100000031#64) ∧
      ∃ s', step (fetched 0x0000000100000031#64) = .next s' ∧ s'.status = .running ∧
        s'.idex.ins.toInstr? = some (.bne 0#5 0#5 1#16) ∧ s'.pending = none :=
  ⟨⟨full_ready, full_good, by decide, _, step_ready full_ready⟩,
    ⟨⟨by decide, rfl⟩, branchInEx_good, goesOn ⟨by decide, rfl⟩ (by decide), rfl, by decide, by decide⟩,
    ⟨goesOn full_ready (by decide), rfl, by decide, by decide⟩,
    ⟨⟨by decide, rfl⟩, fetched_good _, _, step_ready ⟨by decide, rfl⟩, by decide, by decide, by decide⟩,
    ⟨by decide, rfl⟩, fetched_good _, _, step_ready ⟨by decide, rfl⟩, by decide, by decide, by decide⟩
theorem witness_MemStageIsExec :
    full.Ready ∧ GoodState full ∧ full.exmem.ins.toInstr? = some (.sw 1#5 0#5 0x100#16) ∧
      Instr.sw 1#5 0#5 0x100#16 ≠ .syscall ∧ ∃ s', step full = .next s' ∧ s'.status = .running :=
  ⟨full_ready, full_good, by decide, by decide, goesOn full_ready (by decide)⟩

/-- The reset state with the word `w` at the entry. -/
def loaded (w : DWord) : State := State.reset.withFetchWord 64 w.toNat

theorem witness_FiveCyclesRunOneInstr :
    let s := loaded 0x0001000500000010#64
    s.Ready ∧ s.Drained ∧ s.BelowLimit ∧ aligned8 s.nextPc ∧ memValid s.cfg s.nextPc = true ∧
      decode s.cfg.hasMul (bsReadInsn s.mem.bs s.nextPc) = some (.addi 1#5 0#5 5#16) ∧
      ∃ t, exec (.addi 1#5 0#5 5#16) s = .next t ∧ ∀ k p n, t.status ≠ .faulted k p n :=
  ⟨⟨by decide, rfl⟩, ⟨rfl, rfl, rfl, rfl⟩, fun _ h => (by cases h), by unfold aligned8; decide, by decide, by decide,
    _, exec_addi ⟨by decide, rfl⟩ _ _ _, fun _ _ _ e => (by cases e)⟩
/-- An illegal word, LW r1, 1(r0) with its misaligned address, and a fetch past the last valid address. -/
theorem witness_FourthCycleTakesTheFault :
    (let s := loaded 0xFF#64;
      s.Ready ∧ s.Drained ∧ s.BelowLimit ∧
        ∃ t, archStep s = .next t ∧ t.status = .faulted .illegalInstruction 0x1000#32 0xFF#64) ∧
      (let s := loaded 0x0001000100000020#64;
        s.Ready ∧ s.Drained ∧ s.BelowLimit ∧
          ∃ t, archStep s = .next t ∧ t.status = .faulted .misalignedAccess 0x1000#32 1#64) ∧
      (let s := State.reset.atPc 0x10000#32;
        s.Ready ∧ s.Drained ∧ s.BelowLimit ∧
          ∃ t, archStep s = .next t ∧ t.status = .faulted .fetchOutOfRange 0x10000#32 0x10000#64) :=
  ⟨⟨⟨by decide, rfl⟩, ⟨rfl, rfl, rfl, rfl⟩, fun _ h => (by cases h), _, rfl, by decide⟩,
    ⟨⟨by decide, rfl⟩, ⟨rfl, rfl, rfl, rfl⟩, fun _ h => (by cases h), _, rfl, by decide⟩,
    ⟨by decide, rfl⟩, ⟨rfl, rfl, rfl, rfl⟩, fun _ h => (by cases h), _, rfl, by decide⟩
/-- State.reset with ADDI r1, r0, 5, and with LW r1, 1(r0), which faults. -/
theorem witness_PlacedWordIsFetched :
    State.reset.Ready ∧ State.reset.Drained ∧ State.reset.BelowLimit ∧ aligned8 State.reset.nextPc ∧
      memValid State.reset.cfg State.reset.nextPc = true ∧
      decode State.reset.cfg.hasMul 0x0001000500000010#64 = some (.addi 1#5 0#5 5#16) ∧
      statusAfter (exec (.addi 1#5 0#5 5#16) (loaded 0x0001000500000010#64)) = some .running ∧
      decode State.reset.cfg.hasMul 0x0001000100000020#64 = some (.lw 1#5 0#5 1#16) ∧
      statusAfter (exec (.lw 1#5 0#5 1#16) (loaded 0x0001000100000020#64)) =
        some (.faulted .misalignedAccess 0x1000#32 1#64) :=
  ⟨reset_ready, ⟨rfl, rfl, rfl, rfl⟩, reset_belowLimit, by unfold aligned8; decide, by decide, by decide, by decide,
    by decide, by decide⟩

end Sys2Proof.Tests
end

/-! PROOFS. The pipeline against program order (00_scope.md R12): O56, O57 and O58. The one idea is that `exec` is made of the
pipeline's own stages (`loneEffect`, `exec_eq_loneEffect`), so that each statement compares a latch with the latch the
instruction has when it is executed alone. -/

namespace Sys2Proof.Machine

/-! ## Instructions and their records -/

/-- A record and the instruction it stands for have the same mnemonic. -/
theorem op_of_toInstr? {d : Ins} {i : Instr} (h : d.toInstr? = some i) : i.op = d.op := by
  obtain ⟨op, rs, rt, rd, imm, t26, raw⟩ := d
  cases op <;> cases h <;> rfl

theorem not_isMarker_of_toInstr? {d : Ins} {i : Instr} (h : d.toInstr? = some i) : ¬isMarker d := by
  rintro (e | e) <;> simp [Ins.toInstr?, e] at h

theorem op_eq_nop_iff {i : Instr} : i.op = .nop ↔ i = .nop := by
  cases i <;> simp [Instr.op]

theorem op_eq_syscall_iff {i : Instr} : i.op = .syscall ↔ i = .syscall := by
  cases i <;> simp [Instr.op]

/-- A MUL is only decoded by a CORE that has it (R106). -/
theorem Decoded.hasMul {hasMul : Bool} {d : Ins} (h : Decoded hasMul d) (hd : d.op = .mul) : hasMul = true := by
  rcases h with h | h
  · rw [h] at hd
    cases hc : classify hasMul d.raw with
    | error e => rw [decodeIns_error hc] at hd; cases hd
    | ok op =>
      rw [decodeIns_ok hc] at hd
      obtain ⟨_, _, _, _, hmul, _⟩ := classify_ok hc
      exact hmul hd
  · rw [h] at hd; cases hd

/-- A word that passes the tests of R105 as `op` is the encoding of the instruction its fields make (R102). -/
theorem encode_of_classify {hasMul : Bool} {w : DWord} {op : Op} {i : Instr} (hc : classify hasMul w = .ok op)
    (h : (insOfWord op w).toInstr? = some i) : encode i = w := by
  obtain ⟨hr, hcode, _, _, _, hbits⟩ := classify_ok hc
  cases op <;> cases h <;> simp only [operandBitsOk, formatOf, Bool.and_eq_true, beq_iff_eq] at hbits
  case nop | syscall => exact encodeN_fields hr hcode hbits
  case add | sub | and | sll | slt | mul => exact encodeR_fields hr hcode hbits.1 hbits.2
  case addi | lw | sw | beq | bne => exact encodeI_fields hr hcode hbits
  case j => exact encodeJ_fields hr hcode hbits

/-- The word a decoded instruction came from is its encoding (R107). -/
theorem encode_of_decode {hasMul : Bool} {w : DWord} {i : Instr} (h : decode hasMul w = some i) : encode i = w := by
  cases hc : classify hasMul w with
  | error e => rw [decode, decodeIns_error hc] at h; cases h
  | ok op => rw [decode, decodeIns_ok hc] at h; exact encode_of_classify hc h

@[simp] theorem destOf_nop {d : Ins} (h : d.op = .nop) : destOf d = 0#5 := by simp [destOf, roles, h]

@[simp] theorem destOf_syscall {d : Ins} (h : d.op = .syscall) : destOf d = 0#5 := by simp [destOf, roles, h]

/-! ## An instruction executed alone, through the pipeline's own stages (R12) -/

/-- The MEM stage passes an instruction on with its record, its address and its destination. -/
theorem memStage_memwb (cfg : Config) (x : ExMemLatch) (m : MemSys) (h : x.ins.op ≠ .nop) :
    (memStage cfg x m).memwb = ⟨x.pc, x.ins, x.dest, (memStage cfg x m).memwb.val⟩ := by
  rcases memStage_cases cfg x m with
    ⟨e, _⟩ | ⟨_, ⟨k, _, e⟩ | ⟨_, ⟨_, ⟨k, _, e⟩ | ⟨v, m', _, e⟩⟩ | ⟨_, _, ⟨k, _, e⟩ | ⟨v, m', _, e⟩⟩ | ⟨_, _, e⟩⟩⟩
  · exact absurd e h
  all_goals rw [e]

/-- The MEM stage keeps the mnemonic, also of a NOP, which it makes a bubble. -/
theorem memStage_op (cfg : Config) (x : ExMemLatch) (m : MemSys) : (memStage cfg x m).memwb.ins.op = x.ins.op := by
  by_cases h : x.ins.op = .nop
  · simp only [memStage, h, if_true]
    rfl
  · rw [memStage_memwb cfg x m h]

/-- The EX/MEM latch of the record `d`, with the marker `mk`, when its sources are read from the registers of `s` and it is
the next instruction of `s`. -/
def loneSlot (mk : Option FaultKind) (d : Ins) (s : State) : ExMemLatch :=
  exStage (issueLatch d s.nextPc (seqA s.regs d) (seqB s.regs d) mk)

/-- Where a record that is taken goes (R145, R233), when its sources are read from the registers of `s`. -/
def loneTarget (d : Ins) (s : State) : Option Word :=
  if taken d.op (seqA s.regs d) (seqB s.regs d) then some (targetOf d s.nextPc) else none

/-- What the MEM stage makes of `d` on the registers and the memory of `s`. -/
def loneMem (d : Ins) (s : State) : MemOut := memStage s.cfg (loneSlot none d s) s.mem

theorem loneSlot_nop {mk : Option FaultKind} {d : Ins} {s : State} (h : d.op = .nop) : loneSlot mk d s = .bubble := by
  simp only [loneSlot, exStage, issueLatch, h, if_true]

theorem loneSlot_eq {mk : Option FaultKind} {d : Ins} {s : State} (h : d.op ≠ .nop) :
    loneSlot mk d s = ⟨s.nextPc, d, destOf d, seqRes s.regs d, seqB s.regs d, (roles d.op).isLoad,
      (roles d.op).isStore, mk⟩ := by
  simp only [loneSlot, exStage, issueLatch, h, if_false, seqRes]

theorem loneMem_nop {d : Ins} {s : State} (h : d.op = .nop) : loneMem d s = ⟨.bubble, s.mem, none⟩ := by
  rw [loneMem, loneSlot_nop h, memStage_bubble]

theorem loneMem_load_ok {d : Ins} {s : State} {v : Word} {m : MemSys} (hl : (roles d.op).isLoad = true)
    (hr : cacheRead s.cfg (seqRes s.regs d) s.mem = .ok v m) : loneMem d s = ⟨⟨s.nextPc, d, destOf d, v⟩, m, none⟩ := by
  have hn : d.op ≠ .nop := fun e => by simp [e, roles] at hl
  simp only [loneMem, loneSlot_eq hn, memStage, hn, hl, hr, if_false, if_true]

theorem loneMem_load_fault {d : Ins} {s : State} {k : FaultKind} (hl : (roles d.op).isLoad = true)
    (hr : cacheRead s.cfg (seqRes s.regs d) s.mem = .fault k) :
    loneMem d s = ⟨⟨s.nextPc, d, destOf d, 0#32⟩, s.mem, some ⟨k, s.nextPc, (seqRes s.regs d).setWidth 64⟩⟩ := by
  have hn : d.op ≠ .nop := fun e => by simp [e, roles] at hl
  simp only [loneMem, loneSlot_eq hn, memStage, hn, hl, hr, if_false, if_true]

theorem loneMem_store_ok {d : Ins} {s : State} {v : Word} {m : MemSys} (hl : (roles d.op).isLoad = false)
    (hs : (roles d.op).isStore = true) (hw : cacheWrite s.cfg (seqRes s.regs d) (seqB s.regs d) s.mem = .ok v m) :
    loneMem d s = ⟨⟨s.nextPc, d, destOf d, 0#32⟩, m, none⟩ := by
  have hn : d.op ≠ .nop := fun e => by simp [e, roles] at hs
  simp only [loneMem, loneSlot_eq hn, memStage, hn, hl, hs, hw, if_false, if_true, Bool.false_eq_true]

theorem loneMem_store_fault {d : Ins} {s : State} {k : FaultKind} (hl : (roles d.op).isLoad = false)
    (hs : (roles d.op).isStore = true) (hw : cacheWrite s.cfg (seqRes s.regs d) (seqB s.regs d) s.mem = .fault k) :
    loneMem d s = ⟨⟨s.nextPc, d, destOf d, 0#32⟩, s.mem, some ⟨k, s.nextPc, (seqRes s.regs d).setWidth 64⟩⟩ := by
  have hn : d.op ≠ .nop := fun e => by simp [e, roles] at hs
  simp only [loneMem, loneSlot_eq hn, memStage, hn, hl, hs, hw, if_false, if_true, Bool.false_eq_true]

theorem loneMem_compute {d : Ins} {s : State} (hn : d.op ≠ .nop) (hl : (roles d.op).isLoad = false)
    (hs : (roles d.op).isStore = false) :
    loneMem d s = ⟨⟨s.nextPc, d, destOf d, seqRes s.regs d⟩, s.mem, none⟩ := by
  simp only [loneMem, loneSlot_eq hn, memStage, hn, hl, hs, if_false, Bool.false_eq_true]

theorem loneMem_syscall {d : Ins} {s : State} (h : d.op = .syscall) :
    loneMem d s = ⟨⟨s.nextPc, d, destOf d, seqRes s.regs d⟩, s.mem, none⟩ :=
  loneMem_compute (by simp [h]) (by rw [h]; rfl) (by rw [h]; rfl)

theorem loneMem_memwb {d : Ins} {s : State} (h : d.op ≠ .nop) :
    (loneMem d s).memwb = ⟨s.nextPc, d, destOf d, (loneMem d s).memwb.val⟩ := by
  rw [loneMem, loneSlot_eq h]
  exact memStage_memwb _ _ _ h

theorem loneMem_op (d : Ins) (s : State) : (loneMem d s).memwb.ins.op = d.op := by
  rw [loneMem, memStage_op]
  by_cases h : d.op = .nop
  · rw [loneSlot_nop h, h]; rfl
  · rw [loneSlot_eq h]

/-- The MEM/WB latch of a record stands for the record's instruction; that of a NOP is a bubble. -/
theorem loneMem_toInstr? (d : Ins) (s : State) : (loneMem d s).memwb.ins.toInstr? = d.toInstr? := by
  by_cases h : d.op = .nop
  · rw [loneMem_nop h]
    simp [Ins.toInstr?, h, MemWbLatch.bubble, nopIns]
  · rw [loneMem_memwb h]

/-- The effect of a record other than SYSCALL on `s`: its MEM stage's fault, or its memory, its register and its
successor. -/
def loneEffect (d : Ins) (s : State) : State :=
  match (loneMem d s).fault with
  | some r => takeFault r.kind r.pc r.info s
  | none => retire d.op (loneTarget d s) false
      (State.setReg { s with mem := (loneMem d s).mem } (destOf d) (loneMem d s).memwb.val)

theorem loneEffect_ok {d : Ins} {s : State} (h : (loneMem d s).fault = none) :
    loneEffect d s = retire d.op (loneTarget d s) false
      (State.setReg { s with mem := (loneMem d s).mem } (destOf d) (loneMem d s).memwb.val) := by
  simp only [loneEffect, h]

theorem loneEffect_fault {d : Ins} {s : State} {r : FaultRecord} (h : (loneMem d s).fault = some r) :
    loneEffect d s = takeFault r.kind r.pc r.info s := by
  simp only [loneEffect, h]

/-- `exec` is the effect the stages of the pipeline give the instruction's record. -/
theorem exec_eq_loneEffect {s : State} {d : Ins} {i : Instr} (h : s.Ready) (hd : Decoded s.cfg.hasMul d)
    (hi : d.toInstr? = some i) (hs : d.op ≠ .syscall) : exec i s = .next (loneEffect d s) := by
  have hmul := hd.hasMul
  obtain ⟨op, rs, rt, rd, imm, t26, raw⟩ := d
  cases op <;> cases hi
  case nop => exact exec_nop h
  case add => exact exec_add h rd rs rt
  case sub => exact exec_sub h rd rs rt
  case and => exact exec_and h rd rs rt
  case sll => exact exec_sll h rd rs rt
  case slt => exact exec_slt h rd rs rt
  case mul => exact exec_mul h (hmul rfl) rd rs rt
  case addi => exact exec_addi h rt rs imm
  case lw =>
    rw [exec_lw h]
    cases hr : cacheRead s.cfg (s.reg rs + sext16 imm) s.mem with
    | fault k => rw [loneEffect, loneMem_load_fault (d := ⟨.lw, rs, rt, rd, imm, t26, raw⟩) rfl hr]; rfl
    | ok v m => rw [loneEffect, loneMem_load_ok (d := ⟨.lw, rs, rt, rd, imm, t26, raw⟩) rfl hr]; rfl
  case sw =>
    rw [exec_sw h]
    cases hw : cacheWrite s.cfg (s.reg rs + sext16 imm) (s.reg rt) s.mem with
    | fault k => rw [loneEffect, loneMem_store_fault (d := ⟨.sw, rs, rt, rd, imm, t26, raw⟩) rfl rfl hw]; rfl
    | ok v m => rw [loneEffect, loneMem_store_ok (d := ⟨.sw, rs, rt, rd, imm, t26, raw⟩) rfl rfl hw]; rfl
  case beq | bne => exact whenReady_ready h _
  case j => exact exec_j h t26
  case syscall => exact absurd rfl hs

/-! ## The rest of an instruction's effect is WB's -/

/-- An instruction that does not fault when executed alone does not fault in MEM. -/
theorem loneMem_ok_of_exec {s t : State} {d : Ins} {i : Instr} (hready : s.Ready) (hd : Decoded s.cfg.hasMul d)
    (hi : d.toInstr? = some i) (h : exec i s = .next t) (hok : ∀ k p n, t.status ≠ .faulted k p n) :
    (loneMem d s).fault = none := by
  by_cases hsys : d.op = .syscall
  · rw [loneMem_syscall hsys]
  · rw [exec_eq_loneEffect hready hd hi hsys] at h
    cases h
    cases hf : (loneMem d s).fault with
    | none => rfl
    | some r => exact absurd (by rw [loneEffect_fault hf]; rfl) (hok r.kind r.pc r.info)

/-- If `u` has in MEM/WB what MEM makes of a record executed alone on `s`, then WB leaves in `u` what executing it on `s`
does: the registers, the count, the status R153 gives, and for SYSCALL the memory, which is MEM's for any other. -/
theorem exec_eq_wbStage {s t u : State} {d : Ins} {i : Instr} (hready : s.Ready) (hd : Decoded s.cfg.hasMul d)
    (hi : d.toInstr? = some i) (h : exec i s = .next t) (hf : (loneMem d s).fault = none)
    (hwb : u.memwb = (loneMem d s).memwb) (hmem : d.op = .syscall → u.mem = s.mem) (hcfg : u.cfg = s.cfg)
    (hregs : u.regs = s.regs) (hcount : u.icount = s.icount) :
    t.regs = (wbStage u).regs ∧ t.icount = (wbStage u).icount ∧
      t.status = haltedStatus (haltReason? u.cfg (wbStage u).haltReq (wbStage u).icount) .running ∧
      (d.op = .syscall → t.mem = (wbStage u).mem) ∧ (d.op ≠ .syscall → t.mem = (loneMem d s).mem) := by
  have hrun : s.status = .running := hready.2
  have hop : u.memwb.ins.op = d.op := by rw [hwb, loneMem_op]
  have hwbRegs : wbRegs u = writeReg s.regs (destOf d) (loneMem d s).memwb.val := by
    rw [wbRegs, hop, hregs]
    split
    · next hn => rw [destOf_nop hn, writeReg_zero]
    · next hn => rw [hwb, loneMem_memwb hn]
  by_cases hsys : d.op = .syscall
  · obtain rfl := op_eq_syscall_iff.mp ((op_of_toInstr? hi).trans hsys)
    have hpc : u.memwb.pc = s.nextPc := by rw [hwb, loneMem_syscall hsys]
    rw [destOf_syscall hsys, writeReg_zero] at hwbRegs
    rw [exec_syscall hready] at h
    cases h
    simp [wbStage_syscall (hop.trans hsys), hwbRegs, hpc, hmem hsys, hcfg, hcount, nextCount, hrun, hsys]
  · rw [exec_eq_loneEffect hready hd hi hsys, loneEffect_ok hf] at h
    cases h
    rw [wbStage_other (by rwa [hop]), hwbRegs, hop, hcfg, hcount]
    exact ⟨rfl, rfl, by simp [hrun], fun e => absurd e hsys, fun _ => rfl⟩

/-! ## The instruction in MEM -/

theorem beforeMem_ready {s : State} (h : s.Ready) : s.beforeMem.Ready := h

theorem beforeEx_ready {s : State} (h : s.Ready) : s.beforeEx.Ready := h

theorem atPc_ready {s : State} (h : s.Ready) (p : Word) : (s.atPc p).Ready := h

/-- R185 for EX/MEM: what stands there is what EX makes of its record executed alone after the commit of MEM/WB. -/
theorem OperandInv.exmem_eq_loneSlot {s : State} (h : OperandInv s) (hm : ¬isMarker s.exmem.ins) :
    s.exmem = loneSlot none s.exmem.ins s.beforeMem := by
  by_cases hn : s.exmem.ins.op = .nop
  · rw [loneSlot_nop hn, h.memBubble hn]
  · have hfault : s.exmem.fault = none := by
      by_contra hf
      exact hm (h.memMarker.mp hf)
    rw [loneSlot_eq hn, beforeMem_nextPc, beforeMem_regs, ← regsAfterWb, ← h.memDest, ← h.memRes, ← h.memData, ← h.memLoad,
      ← h.memStore, ← hfault]

/-- Settles O57: the slot in EX/MEM is the lone slot of its record, so the two machines make the same access. -/
theorem memStageIsExec : Obligations.MemStageIsExec := by
  intro s s' i hready hgood hi hsys hstep hrun
  obtain ⟨_, _, hfault, rfl⟩ := step_running hstep hrun
  have hop : s.exmem.ins.op ≠ .syscall := fun e => hsys (op_eq_syscall_iff.mp ((op_of_toInstr? hi).trans e))
  have hmem : memStage s.cfg s.exmem (wbStage s).mem = loneMem s.exmem.ins s.beforeMem := by
    rw [loneMem, ← hgood.operands.exmem_eq_loneSlot (not_isMarker_of_toInstr? hi)]
    rfl
  refine ⟨_, exec_eq_loneEffect (beforeMem_ready hready) hgood.operands.memDecoded hi hop, ?_⟩
  rw [hmem] at hfault
  rw [carryOn_mem, hmem, loneEffect_ok hfault, retire_mem, setReg_mem]

/-! ## What a commit leaves -/

/-- A read that passes R74's check answers the word a program observes (R87). -/
theorem cacheRead_ok {cfg : Config} {a : Word} {m : MemSys} (hm : MemInv cfg m) (ha : accessFault? cfg a = none) :
    ∃ m', cacheRead cfg a m = .ok (archWord m a) m' := by
  have hal := ((accessFault_none cfg a).mp ha).1
  rcases cacheAccess_cases cfg .read a 0#32 m with ⟨k, hk, _⟩ | ⟨_, e⟩
  · rw [ha] at hk; cases hk
  · cases hc : cfg.cacheEnabled with
    | true =>
      obtain ⟨hv, _⟩ := throughCache_read cfg a 0#32 _ (hm.lines.counters (countAccess m.cache.ctr)) hal
      simp only [hc, if_true, hv] at e
      exact ⟨_, e⟩
    | false =>
      have hv : bsReadWord m.bs a = archWord m a := by
        rw [bsReadWord_bytes m.bs a hal, archWord]
        simp only [archByte_empty (hm.disabledEmpty hc)]
      simp only [hc, if_false, Bool.false_eq_true, passThrough, hv] at e
      exact ⟨_, e⟩

/-- A write that passes R74's check is made. -/
theorem cacheWrite_ok {cfg : Config} {a : Word} (v : Word) (m : MemSys) (ha : accessFault? cfg a = none) :
    ∃ w m', cacheWrite cfg a v m = .ok w m' := by
  rcases cacheAccess_cases cfg .write a v m with ⟨k, hk, _⟩ | ⟨_, e⟩
  · rw [ha] at hk; cases hk
  · exact ⟨_, _, e⟩

/-- A record whose data access passes R74's check does not fault in MEM and leaves the value of sequential execution. -/
theorem loneMem_of_access {d : Ins} {s : State} (hm : MemInv s.cfg s.mem)
    (ha : (roles d.op).isLoad ∨ (roles d.op).isStore → accessFault? s.cfg (seqRes s.regs d) = none) :
    (loneMem d s).fault = none ∧ (d.op ≠ .nop → (loneMem d s).memwb.val = seqVal s.regs s.mem d) := by
  by_cases hn : d.op = .nop
  · rw [loneMem_nop hn]
    exact ⟨rfl, fun h => absurd hn h⟩
  cases hl : (roles d.op).isLoad with
  | true =>
    obtain ⟨m', hr⟩ := cacheRead_ok hm (ha (.inl hl))
    simp [loneMem_load_ok hl hr, seqVal, hl]
  | false =>
    cases hs : (roles d.op).isStore with
    | true =>
      obtain ⟨w, m', hw⟩ := cacheWrite_ok (seqB s.regs d) s.mem (ha (.inr hs))
      simp [loneMem_store_ok hl hs hw, seqVal, hl, hs]
    | false => simp [loneMem_compute hn hl hs, seqVal, hl, hs]

/-- R185 for MEM/WB: what stands there is what MEM makes of its record executed alone. -/
theorem OperandInv.memwb_eq_loneMem {s : State} (h : OperandInv s) (hm : MemInv s.cfg s.mem) :
    (loneMem s.memwb.ins (s.atPc s.memwb.pc)).fault = none ∧
      s.memwb = (loneMem s.memwb.ins (s.atPc s.memwb.pc)).memwb := by
  obtain ⟨hfault, hval⟩ := loneMem_of_access (s := s.atPc s.memwb.pc) hm h.wbAccess
  refine ⟨hfault, ?_⟩
  by_cases hn : s.memwb.ins.op = .nop
  · rw [loneMem_nop hn, h.wbBubble hn]
  · rw [loneMem_memwb hn, hval hn, atPc_nextPc, atPc_regs, atPc_mem, ← h.wbDest, ← h.wbValue]

/-- Every cycle keeps WB's registers and count, it halts exactly as R153 says, and it keeps WB's memory too if MEM is
empty. -/
theorem step_commits {s s' : State} (h : step s = .next s') :
    s'.regs = (wbStage s).regs ∧ s'.icount = (wbStage s).icount ∧
      (∀ r, s'.status = .halted r ↔ haltReason? s.cfg (wbStage s).haltReq (wbStage s).icount = some r) ∧
      (s.exmem = .bubble → s'.mem = (wbStage s).mem) := by
  obtain ⟨⟨_, hrun⟩, rfl⟩ := step_next.mp h
  rcases cycleNext_cases s with ⟨r, hr, e⟩ | ⟨hr, ⟨r, hf, e⟩ | ⟨hf, e⟩⟩ <;> rw [e, hr]
  · simp
  · simp
  · refine ⟨rfl, rfl, by simp [hrun], fun hx => ?_⟩
    rw [carryOn_mem, hx, memStage_bubble]

/-- A status R153 gives for the commit, other than running, is that of the next state. -/
theorem status_of_halt {s s' : State} {st : Status} (h : step s = .next s')
    (hst : st = haltedStatus (haltReason? s.cfg (wbStage s).haltReq (wbStage s).icount) .running)
    (hne : st ≠ .running) : s'.status = st := by
  cases hr : haltReason? s.cfg (wbStage s).haltReq (wbStage s).icount with
  | none => rw [hr] at hst; exact absurd hst hne
  | some r =>
    obtain ⟨_, _, hhalt, _⟩ := step_commits h
    rw [hst, hr]
    exact (hhalt r).mpr hr

/-! ## Where the next instruction is -/

/-- An instruction that does not fault is followed by its target if it is taken, else by the one 8 bytes on. -/
theorem exec_nextPc {s t : State} {d : Ins} {i : Instr} (hready : s.Ready) (hd : Decoded s.cfg.hasMul d)
    (hi : d.toInstr? = some i) (h : exec i s = .next t) (hok : ∀ k p n, t.status ≠ .faulted k p n) :
    t.nextPc = (loneTarget d s).getD (s.nextPc + 8#32) := by
  by_cases hsys : d.op = .syscall
  · obtain rfl := op_eq_syscall_iff.mp ((op_of_toInstr? hi).trans hsys)
    rw [exec_syscall hready] at h
    cases h
    simp only [loneTarget, hsys, taken, Bool.false_eq_true, if_false]
    rfl
  · have hf := loneMem_ok_of_exec hready hd hi h hok
    rw [exec_eq_loneEffect hready hd hi hsys, loneEffect_ok hf] at h
    cases h
    rfl

/-! ## The operands of the instruction in ID (R177 to R179) -/

/-- An instruction that is not stalled has no SYSCALL before it in flight and finds its sources in this cycle's values
(R173 to R176). -/
theorem not_stalled {s : State} {d : Ins} (hn : d.op ≠ .nop) (h : stallOf s d = false) :
    serStall s = false ∧ dataStall s d = false := by
  simpa [stallOf, hn, and_comm] using h

theorem dataStall_forward {s : State} {d : Ins} (hp : s.cfg.hazardPolicy = .forward) (h : dataStall s d = false)
    {r : RegIdx} (hr : r ∈ srcsOf d) (h0 : r ≠ 0#5) (hx : r = s.idex.dest) : s.idex.isLoad = false := by
  simp only [dataStall, hp, List.any_eq_false] at h
  simpa [h0, ← hx] using h r hr

theorem dataStall_stall {s : State} {d : Ins} (hp : s.cfg.hazardPolicy = .stall) (h : dataStall s d = false)
    {r : RegIdx} (hr : r ∈ srcsOf d) (h0 : r ≠ 0#5) : r ≠ s.idex.dest ∧ r ≠ s.exmem.dest := by
  simp only [dataStall, hp, List.any_eq_false] at h
  simpa [h0] using h r hr

theorem operandA_congr {f g : RegIdx → Word} {d : Ins} (h : ∀ r ∈ srcsOf d, f r = g r) : operandA f d = operandA g d := by
  unfold operandA
  split
  · next hs => exact h _ (by simp [srcsOf, hs])
  · rfl

theorem operandB_congr {f g : RegIdx → Word} {d : Ins} (h : ∀ r ∈ srcsOf d, f r = g r) : operandB f d = operandB g d := by
  unfold operandB
  split
  · next hs => exact h _ (by simp [srcsOf, hs])
  · rfl

/-- The registers after MEM/WB and EX/MEM of the next cycle commit, by this cycle's `memFwd` and `exFwd` (R132, R140,
R143), when no SYSCALL is in EX or MEM. -/
theorem OperandInv.regsAfterMem_next {s s' : State} (h : OperandInv s) (hstep : step s = .next s')
    (hrun : s'.status = .running) (hser : serStall s = false) :
    regsAfterMem s' =
      writeReg (writeReg (wbStage s).regs s.exmem.dest (memStage s.cfg s.exmem (wbStage s).mem).memwb.val) s.idex.dest
        (if s.idex.isLoad then archWord (memStage s.cfg s.exmem (wbStage s).mem).mem (exStage s.idex).res
          else (exStage s.idex).res) := by
  obtain ⟨_, _, _, rfl⟩ := step_running hstep hrun
  obtain ⟨hex, hmem⟩ : s.idex.ins.op ≠ .syscall ∧ s.exmem.ins.op ≠ .syscall := by simpa [serStall] using hser
  have hwb : ∀ w x m d, wbRegs (carryOn s w (memStage s.cfg s.exmem m) x d) =
      writeReg w.regs s.exmem.dest (memStage s.cfg s.exmem m).memwb.val := by
    intro w x m d
    simp only [wbRegs, carryOn_memwb, carryOn_regs, memStage_op]
    split
    · next hn => rw [h.memBubble hn]; rfl
    · next hn => rw [memStage_dest _ _ _ hn]
  have hop : (carryOn s (wbStage s) (memStage s.cfg s.exmem (wbStage s).mem) (exStage s.idex)
      (idStage s (wbStage s) (exStage s.idex) (memStage s.cfg s.exmem (wbStage s).mem))).memwb.ins.op ≠ .syscall := by
    rwa [carryOn_memwb, memStage_op]
  rw [regsAfterMem, regsAfterWb, wbStage_other hop, hwb, carryOn_exmem, carryOn_mem]
  by_cases hn : s.idex.ins.op = .nop
  · rw [h.exBubble hn]; rfl
  · simp [exStage, hn]

/-- R185 for ID: the operands of an instruction that leaves ID are those of sequential execution. -/
theorem OperandInv.idValue_eq {s s' : State} (h : OperandInv s) (hstep : step s = .next s') (hrun : s'.status = .running)
    {d : Ins} (hn : d.op ≠ .nop) (hs : stallOf s d = false) {r : RegIdx} (hr : r ∈ srcsOf d) :
    idValue s (wbStage s) (exStage s.idex) (memStage s.cfg s.exmem (wbStage s).mem) r = readReg (regsAfterMem s') r := by
  obtain ⟨hser, hdata⟩ := not_stalled hn hs
  rw [h.regsAfterMem_next hstep hrun hser]
  by_cases h0 : r = 0#5
  · subst h0
    cases hp : s.cfg.hazardPolicy <;> simp [idValue, operandValue, hp]
  cases hp : s.cfg.hazardPolicy with
  | forward =>
    simp only [idValue, operandValue, hp, h0, if_false]
    by_cases hx : r = s.idex.dest
    · have hl := dataStall_forward hp hdata hr h0 hx
      simp [← hx, h0, hl]
    · by_cases hm : r = s.exmem.dest
      · simp [hx, ← hm, h0]
      · simp [hx, hm]
  | stall =>
    obtain ⟨hx, hm⟩ := dataStall_stall hp hdata hr h0
    simp [idValue, operandValue, hp, hx, hm]

/-- The slot of a fetch holds the address it was fetched at (R149). -/
@[simp] theorem fetchLatch_pc (cfg : Config) (bs : Memory) (p : Word) : (fetchLatch cfg bs p).pc = p := by
  unfold fetchLatch
  split <;> [rfl; (split <;> rfl)]

/-- A cycle that goes on leaves a state that takes a cycle. -/
theorem ready_next {s s' : State} (h : step s = .next s') (hrun : s'.status = .running) : s'.Ready := by
  obtain ⟨hready, _, _, rfl⟩ := step_running h hrun
  exact hready

/-- R144, R146, R185: what ID hands on of an instruction that leaves it, by the operands of sequential execution. -/
theorem OperandInv.idStage_eq {s s' : State} (h : OperandInv s) (hstep : step s = .next s') (hrun : s'.status = .running)
    (hn : (idIns s.cfg s.ifid).op ≠ .nop) (hs : stallOf s (idIns s.cfg s.ifid) = false) :
    idStage s (wbStage s) (exStage s.idex) (memStage s.cfg s.exmem (wbStage s).mem) =
      let d := idIns s.cfg s.ifid
      let a := seqA (regsAfterMem s') d
      let b := seqB (regsAfterMem s') d
      ⟨issueLatch d s.ifid.pc a b (idMarker s.cfg s.ifid), false, idResolves s.cfg d a b, targetOf d s.ifid.pc⟩ := by
  have ha := operandA_congr fun r hr => h.idValue_eq hstep hrun hn hs (r := r) hr
  have hb := operandB_congr fun r hr => h.idValue_eq hstep hrun hn hs (r := r) hr
  rw [idStage_issue hn hs]
  simp only [ha, hb, seqA, seqB]

/-- Only an instruction that leaves ID is in ID/EX after a cycle. -/
theorem leftId_of_idex {s s' : State} (hstep : step s = .next s') (hrun : s'.status = .running)
    (hn : s'.idex.ins.op ≠ .nop) :
    s'.idex.ins = idIns s'.cfg s.ifid ∧ exTaken s.cfg s.idex = false ∧ (idIns s.cfg s.ifid).op ≠ .nop ∧ stallOf s (idIns s.cfg s.ifid) = false := by
  obtain ⟨_, _, _, rfl⟩ := step_running hstep hrun
  have hex : exTaken s.cfg s.idex = false := by
    by_contra he
    exact hn (by rw [carryOn_idex, if_pos (by simpa using he)]; rfl)
  have hd : (idIns s.cfg s.ifid).op ≠ .nop := fun e => hn (by rw [carryOn_idex, idStage_nop e, ite_self]; rfl)
  have hs : stallOf s (idIns s.cfg s.ifid) = false := by
    by_contra he
    exact hn (by rw [carryOn_idex, idStage_stall (by simpa using he), ite_self]; rfl)
  refine ⟨?_, hex, hd, hs⟩
  rw [carryOn_idex, hex, idStage_issue hd hs]
  rfl

/-- Branches resolved in EX: the next fetch is at the successor of a taken instruction in EX, and that of any other is
behind it in IF/ID (R142, R150, R152). -/
theorem successor_of_ex {s s' : State} (hgood : GoodState s) (hstep : step s = .next s') (hrun : s'.status = .running)
    (hb : s.cfg.branchStage = .ex) (hn : s.idex.ins.op ≠ .nop) :
    let next := (loneTarget s.idex.ins s.beforeEx).getD (s.idex.pc + 8#32)
    (taken s.idex.ins.op s.idex.a s.idex.b = true → s'.nextPc = next) ∧
      (taken s.idex.ins.op s.idex.a s.idex.b = false → s'.pending = none ∧ s.ifid.pc = next) := by
  have htarget : loneTarget s.idex.ins s.beforeEx =
      if taken s.idex.ins.op s.idex.a s.idex.b then some s.idex.target else none := by
    rw [loneTarget, beforeEx_regs, beforeEx_nextPc, ← hgood.operands.exA, ← hgood.operands.exB, ← hgood.operands.exTarget]
  have hex : exTaken s.cfg s.idex = taken s.idex.ins.op s.idex.a s.idex.b := by simp only [exTaken, hb]
  obtain ⟨_, _, _, rfl⟩ := step_running hstep hrun
  rw [htarget]
  refine ⟨fun ht => ?_, fun ht => ⟨?_, ?_⟩⟩
  · simp [State.nextPc, hex, ht]
  · have hid : ∀ w x m, (idStage s w x m).taken = false := by
      intro w x m
      simp only [idStage, idResolves, hb]
      split <;> [rfl; (split <;> rfl)]
    simp [hex, ht, hid]
  · have hp : s.pending = none := by
      by_contra hp
      exact hn (by rw [hgood.squash.redirectEmptiesDecode hb hp]; rfl)
    obtain ⟨h1, h2⟩ := hgood.path.behindEx hp hn
    simp [ht, h1, h2]

/-- Branches resolved in ID: the successor of the instruction that has left ID is the pending target, or with none it is in
IF/ID (R146, R148, R151, R152). -/
theorem successor_of_id {s s' : State} (hgood : GoodState s) (hstep : step s = .next s') (hrun : s'.status = .running)
    (hb : s.cfg.branchStage = .id) (hn : s'.idex.ins.op ≠ .nop) :
    let next := (loneTarget s'.idex.ins s'.beforeEx).getD (s'.idex.pc + 8#32)
    (∀ target, s'.pending = some target → target = next) ∧ (s'.pending = none → s'.ifid.pc = next) := by
  obtain ⟨_, hex, hd, hs⟩ := leftId_of_idex hstep hrun hn
  have hid := hgood.operands.idStage_eq hstep hrun hd hs
  have hifid : s.ifid ≠ .bubble := fun e => hd (by rw [e, idIns_bubble]; rfl)
  have hpend : s.pending = none := by
    by_contra hp
    exact hifid (hgood.squash.redirectEmptiesFetch hp)
  have hfpc : s.ifid.pc = s.fpc := (hgood.path.fetched hpend).resolve_left hifid
  obtain ⟨_, _, _, hs'⟩ := step_running hstep hrun
  rw [hid] at hs'
  have hidex := congrArg State.idex hs'
  have hpending := congrArg State.pending hs'
  have hfetch := congrArg State.ifid hs'
  simp only [carryOn_idex, carryOn_pending, carryOn_ifid, hex, idResolves, hb, Bool.false_eq_true, if_false,
    Bool.false_or] at hidex hpending hfetch
  have htarget : loneTarget s'.idex.ins s'.beforeEx = s'.pending := by
    rw [loneTarget, beforeEx_regs, beforeEx_nextPc, hpending, hidex]
    rfl
  rw [htarget]
  cases hp : s'.pending with
  | some target => exact ⟨fun _ e => (Option.some.inj e).symm, nofun⟩
  | none =>
    refine ⟨nofun, fun _ => ?_⟩
    rw [hp] at hpending
    split at hpending
    · cases hpending
    · next hnt =>
      rw [hfetch, if_neg hnt, hidex]
      simp [ifStage, fetchAddr_eq, State.nextPc, hpend, issueLatch, hfpc]

/-- Settles O56: what commits by `exec_eq_wbStage`, and its successor where branches resolve. -/
theorem commitIsExec : Obligations.CommitIsExec := by
  refine ⟨fun s s' i hready hgood hi hstep => ?_,
    fun s s' i hready hgood hnop hstep hrun => ⟨fun hb hi => ?_, fun hb hi => ?_⟩⟩
  · obtain ⟨t, hexec⟩ := exec_ready (atPc_ready hready s.memwb.pc) i
    obtain ⟨hfault, hwb⟩ := hgood.operands.memwb_eq_loneMem hgood.memory
    obtain ⟨hregs, hcount, hstatus, hmem, _⟩ := exec_eq_wbStage (atPc_ready hready _) hgood.operands.wbDecoded hi hexec
      hfault hwb (fun _ => rfl) rfl rfl rfl
    obtain ⟨hregs', hcount', hhalt, hmem'⟩ := step_commits hstep
    refine ⟨t, hexec, hregs'.trans hregs.symm, hcount'.trans hcount.symm, status_of_halt hstep hstatus, fun r hr => ?_,
      fun hsys => ?_⟩
    · rw [hstatus, (hhalt r).mp hr, haltedStatus_some]
    · have hop := (op_of_toInstr? hi).symm.trans (op_eq_syscall_iff.mpr hsys)
      rw [hmem hop, hmem' (hgood.operands.syscallInWb hop).1]
  · have hn : s.idex.ins.op ≠ .nop := fun e => hnop (op_eq_nop_iff.mp ((op_of_toInstr? hi).trans e))
    obtain ⟨t, ht⟩ := exec_ready (beforeEx_ready hready) i
    refine ⟨t, ht, fun hok => ?_⟩
    rw [exec_nextPc (beforeEx_ready hready) hgood.operands.exDecoded hi ht hok, beforeEx_nextPc]
    exact successor_of_ex hgood hstep hrun hb hn
  · have hn : s'.idex.ins.op ≠ .nop := fun e => hnop (op_eq_nop_iff.mp ((op_of_toInstr? hi).trans e))
    have hready' := ready_next hstep hrun
    have hdec : Decoded s'.cfg.hasMul s'.idex.ins := by
      rw [(leftId_of_idex hstep hrun hn).1]
      exact idIns_decoded _ _
    obtain ⟨t, ht⟩ := exec_ready (beforeEx_ready hready') i
    refine ⟨t, ht, fun hok => ?_⟩
    rw [exec_nextPc (beforeEx_ready hready') hdec hi ht hok, beforeEx_nextPc]
    exact successor_of_id hgood hstep hrun hb hn

/-! ## Runs of several cycles -/

/-- A run goes on from where its first cycles lead. -/
theorem run_add {s s' : State} {m : Nat} (n : Nat) (h : Host.Core.run Sys2Proof.core m s = .next s') :
    Host.Core.run Sys2Proof.core (m + n) s = Host.Core.run Sys2Proof.core n s' := by
  induction m generalizing s with
  | zero => cases h; rw [Nat.zero_add]
  | succ m ih =>
    rw [Nat.succ_add]
    simp only [Host.Core.run] at h ⊢
    cases hs : Sys2Proof.core.step s with
    | next u => rw [hs] at h; exact ih h
    | fault r => rw [hs] at h; cases h
    | refused r => rw [hs] at h; cases h

theorem run_one {s s' : State} (h : step s = .next s') : Host.Core.run Sys2Proof.core 1 s = .next s' := by
  have hcore : Sys2Proof.core.step s = .next s' := h
  simp only [Host.Core.run, hcore]

/-- One more cycle at the end of a run. -/
theorem run_succ {s s' s'' : State} {m : Nat} (h : Host.Core.run Sys2Proof.core m s = .next s') (h' : step s' = .next s'') :
    Host.Core.run Sys2Proof.core (m + 1) s = .next s'' := (run_add 1 h).trans (run_one h')

/-! ## One instruction through an empty pipeline (R157, R283) -/

/-- Nothing architectural has happened between `s` and `t` (R45), and the run goes on as before. -/
structure SameArch (s t : State) : Prop where
  cfg : t.cfg = s.cfg
  status : t.status = s.status
  regs : t.regs = s.regs
  mem : t.mem = s.mem
  icount : t.icount = s.icount

theorem SameArch.trans {s t u : State} (h : SameArch s t) (h' : SameArch t u) : SameArch s u :=
  ⟨h'.cfg.trans h.cfg, h'.status.trans h.status, h'.regs.trans h.regs, h'.mem.trans h.mem, h'.icount.trans h.icount⟩

theorem SameArch.ready {s t : State} (h : SameArch s t) (hs : s.Ready) : t.Ready :=
  ⟨by rw [h.cfg]; exact hs.1, h.status.trans hs.2⟩

theorem SameArch.belowLimit {s t : State} (h : SameArch s t) (hs : s.BelowLimit) : t.BelowLimit := by
  unfold State.BelowLimit
  rw [h.cfg, h.icount]
  exact hs

/-- What ID makes of IF/ID in a cycle with nothing in MEM and WB. -/
def quietId (s : State) : IdOut :=
  idStage s ⟨s.regs, s.mem, false, s.icount⟩ (exStage s.idex) ⟨.bubble, s.mem, none⟩

/-- The cycle of a state with nothing in MEM and WB. -/
def quietNext (s : State) : State :=
  carryOn s ⟨s.regs, s.mem, false, s.icount⟩ ⟨.bubble, s.mem, none⟩ (exStage s.idex) (quietId s)

theorem quietNext_sameArch (s : State) : SameArch s (quietNext s) := ⟨rfl, rfl, rfl, rfl, rfl⟩

/-- Below the limit, a cycle with nothing in MEM and WB neither halts nor faults. -/
theorem step_quiet {s : State} (hready : s.Ready) (hlimit : s.BelowLimit) (hmem : s.exmem = .bubble)
    (hwb : s.memwb = .bubble) : step s = .next (quietNext s) := by
  rw [step_ready hready]
  rcases cycleNext_cases s with ⟨r, hr, _⟩ | ⟨_, ⟨r, hf, _⟩ | ⟨_, e⟩⟩
  · rw [wbStage_bubble hwb, haltReason_none.mpr ⟨rfl, hlimit⟩] at hr
    cases hr
  · rw [hmem, memStage_bubble] at hf
    cases hf
  · rw [e, wbStage_bubble hwb, hmem, memStage_bubble]
    rfl

/-- Nothing stalls in ID while nothing is in flight ahead of it (R173 to R176). -/
theorem not_stallOf_empty {s : State} (hex : s.idex = .bubble) (hmem : s.exmem = .bubble) (d : Ins) :
    stallOf s d = false := by
  have hdata : dataStall s d = false := by
    unfold dataStall
    cases s.cfg.hazardPolicy <;> simp [hex, hmem, IdExLatch.bubble, ExMemLatch.bubble]
  have hser : serStall s = false := by
    simp [serStall, hex, hmem, IdExLatch.bubble, ExMemLatch.bubble, nopIns]
  rw [stallOf, hdata, hser]
  simp

/-- Cycle 1: the word at the next address is in IF/ID, and nothing else is in flight. -/
theorem quietNext_fetch {s : State} (h : s.Drained) :
    (quietNext s).ifid = fetchLatch s.cfg s.mem.bs s.nextPc ∧ (quietNext s).idex = .bubble ∧
      (quietNext s).exmem = .bubble ∧ (quietNext s).memwb = .bubble := by
  obtain ⟨hif, hex, _, _⟩ := h
  have hid : quietId s = ⟨.bubble, false, false, 0#32⟩ := idStage_nop (by rw [hif, idIns_bubble]; rfl) _ _ _
  simp [quietNext, hid, hex, ifStage, fetchAddr_eq]

/-- Cycle 2: the instruction in IF/ID is in ID/EX with the operands it reads from the register file. -/
theorem quietNext_decode {s : State} (hex : s.idex = .bubble) (hmem : s.exmem = .bubble) :
    let d := idIns s.cfg s.ifid
    (d.op ≠ .nop →
      (quietNext s).idex = issueLatch d s.ifid.pc (seqA s.regs d) (seqB s.regs d) (idMarker s.cfg s.ifid)) ∧
    (d.op = .nop → (quietNext s).idex = .bubble) ∧
    (quietNext s).exmem = .bubble ∧ (quietNext s).memwb = .bubble := by
  have hval : idValue s ⟨s.regs, s.mem, false, s.icount⟩ (exStage s.idex) ⟨.bubble, s.mem, none⟩ = readReg s.regs := by
    funext r
    unfold idValue operandValue
    cases s.cfg.hazardPolicy <;> by_cases h0 : r = 0#5 <;> simp [h0, hex, hmem, IdExLatch.bubble, ExMemLatch.bubble]
  refine ⟨fun hn => ?_, fun hn => ?_, ?_, rfl⟩
  · have hid := idStage_issue hn (not_stallOf_empty hex hmem _) ⟨s.regs, s.mem, false, s.icount⟩ (exStage s.idex)
      ⟨.bubble, s.mem, none⟩
    rw [hval] at hid
    rw [quietNext, carryOn_idex, hex, exTaken_bubble, quietId, hid]
    rfl
  · rw [quietNext, carryOn_idex, quietId, idStage_nop hn, ite_self]
  · rw [quietNext, carryOn_exmem, hex, exStage_bubble]

/-- Cycle 3: nothing follows a SYSCALL out of ID (R175). -/
theorem quietNext_behindSyscall {s : State} (h : s.idex.ins.op = .syscall) : (quietNext s).idex = .bubble := by
  rw [quietNext, carryOn_idex]
  by_cases hn : (idIns s.cfg s.ifid).op = .nop
  · rw [quietId, idStage_nop hn, ite_self]
  · rw [quietId, idStage_stall (by simp [stallOf, hn, serStall, h]), ite_self]

/-- Cycles 1 to 3 from a drained state: the fetched slot is in EX/MEM as if it were executed alone, nothing has been
committed, and nothing follows a SYSCALL. -/
theorem run_three {s : State} (hready : s.Ready) (hdrained : s.Drained) (hlimit : s.BelowLimit) :
    let f := fetchLatch s.cfg s.mem.bs s.nextPc
    step s = .next (quietNext s) ∧ (quietNext s).ifid = f ∧
      ∃ s3, Host.Core.run Sys2Proof.core 3 s = .next s3 ∧ SameArch s s3 ∧ s3.memwb = .bubble ∧
        s3.exmem = loneSlot (idMarker s.cfg f) (idIns s.cfg f) s ∧
        ((idIns s.cfg f).op = .syscall → s3.idex = .bubble) := by
  intro f
  obtain ⟨hif1, hex1, hmem1, hwb1⟩ := quietNext_fetch hdrained
  obtain ⟨_, _, hmem0, hwb0⟩ := hdrained
  have hstep1 := step_quiet hready hlimit hmem0 hwb0
  have h1 := quietNext_sameArch s
  generalize quietNext s = s1 at *
  obtain ⟨hissue, hbubble, hmem2, hwb2⟩ := quietNext_decode hex1 hmem1
  have hstep2 := step_quiet (h1.ready hready) (h1.belowLimit hlimit) hmem1 hwb1
  have h2 := h1.trans (quietNext_sameArch s1)
  generalize quietNext s1 = s2 at *
  have hstep3 := step_quiet (h2.ready hready) (h2.belowLimit hlimit) hmem2 hwb2
  rw [hif1, h1.cfg, h1.regs, fetchLatch_pc] at hissue
  rw [hif1, h1.cfg] at hbubble
  refine ⟨hstep1, hif1, _, run_succ (run_succ (run_one hstep1) hstep2) hstep3, h2.trans (quietNext_sameArch s2), rfl, ?_,
    fun hsys => ?_⟩
  · show exStage s2.idex = _
    by_cases hn : (idIns s.cfg f).op = .nop
    · rw [hbubble hn, loneSlot_nop hn, exStage_bubble]
    · rw [hissue hn, loneSlot]
  · refine quietNext_behindSyscall ?_
    rw [hissue (by rw [hsys]; exact nofun)]
    exact hsys

/-- Below the limit, with nothing in WB, a cycle whose MEM stage does not fault changes the memory alone. -/
theorem step_mem {s : State} (hready : s.Ready) (hlimit : s.BelowLimit) (hwb : s.memwb = .bubble)
    (hf : (memStage s.cfg s.exmem s.mem).fault = none) :
    ∃ s', step s = .next s' ∧ SameArch { s with mem := (memStage s.cfg s.exmem s.mem).mem } s' ∧
      s'.memwb = (memStage s.cfg s.exmem s.mem).memwb ∧ s'.exmem = exStage s.idex := by
  refine ⟨_, step_ready hready, ?_⟩
  rcases cycleNext_cases s with ⟨r, hr, _⟩ | ⟨_, ⟨r, hr, _⟩ | ⟨_, e⟩⟩
  · rw [wbStage_bubble hwb, haltReason_none.mpr ⟨rfl, hlimit⟩] at hr
    cases hr
  · rw [wbStage_bubble hwb, hf] at hr
    cases hr
  · rw [e, wbStage_bubble hwb]
    exact ⟨⟨rfl, rfl, rfl, rfl, rfl⟩, rfl, rfl⟩

/-- Cycles 1 to 4 from a drained state: an instruction that does not fault has left MEM, having changed the memory alone,
and nothing follows a SYSCALL. -/
theorem run_four {s : State} {d : Ins} (hready : s.Ready) (hdrained : s.Drained) (hlimit : s.BelowLimit)
    (hd : idIns s.cfg (fetchLatch s.cfg s.mem.bs s.nextPc) = d)
    (hm : idMarker s.cfg (fetchLatch s.cfg s.mem.bs s.nextPc) = none) (hf : (loneMem d s).fault = none) :
    ∃ s4, Host.Core.run Sys2Proof.core 4 s = .next s4 ∧ SameArch { s with mem := (loneMem d s).mem } s4 ∧
      s4.memwb = (loneMem d s).memwb ∧ (d.op = .syscall → s4.exmem = .bubble) := by
  obtain ⟨_, _, s3, hrun3, h3, hwb3, hmem3, hsys3⟩ := run_three hready hdrained hlimit
  have hlone : memStage s3.cfg s3.exmem s3.mem = loneMem d s := by rw [hmem3, hm, hd, h3.cfg, h3.mem, loneMem]
  obtain ⟨s4, hstep4, h4, hwb4, hex4⟩ := step_mem (h3.ready hready) (h3.belowLimit hlimit) hwb3 (by rw [hlone, hf])
  rw [hlone] at h4 hwb4
  refine ⟨s4, run_succ hrun3 hstep4, ?_, hwb4, fun hsys => ?_⟩
  · exact ⟨h4.cfg.trans h3.cfg, h4.status.trans h3.status, h4.regs.trans h3.regs, h4.mem, h4.icount.trans h3.icount⟩
  · rw [hex4, hsys3 (hd ▸ hsys), exStage_bubble]

/-- A fetch at an aligned valid address answers the word there (R149). -/
theorem fetchLatch_valid {cfg : Config} {bs : Memory} {p : Word} (ha : aligned8 p) (hv : memValid cfg p = true) :
    fetchLatch cfg bs p = ⟨p, bsReadInsn bs p, none⟩ := by
  simp only [aligned8] at ha
  simp [fetchLatch, ha, hv]

/-- ID's record of a word that decodes stands for the decoded instruction and has no marker (R144, R147). -/
theorem idIns_of_decode {cfg : Config} {f : IfIdLatch} {i : Instr} (hf : f.ffault = none)
    (h : decode cfg.hasMul f.word = some i) : (idIns cfg f).toInstr? = some i ∧ idMarker cfg f = none := by
  have hi : (idIns cfg f).toInstr? = some i := by
    simp only [idIns, hf]
    exact h
  refine ⟨hi, ?_⟩
  by_contra hm
  exact not_isMarker_of_toInstr? hi ((idMarker_iff cfg f).mp hm)

/-- Settles O58: three cycles bring the instruction to MEM, the fourth makes its access, the fifth commits it. -/
theorem fiveCyclesRunOneInstr : Obligations.FiveCyclesRunOneInstr := by
  intro s t i hready hdrained hlimit haligned hvalid hdecode hexec hok
  have hf := fetchLatch_valid (bs := s.mem.bs) haligned hvalid
  obtain ⟨hstep1, hfetch, _⟩ := run_three hready hdrained hlimit
  obtain ⟨hi, hmarker⟩ := idIns_of_decode (f := fetchLatch s.cfg s.mem.bs s.nextPc) (by rw [hf]) (by rw [hf]; exact hdecode)
  have hdec := idIns_decoded s.cfg (fetchLatch s.cfg s.mem.bs s.nextPc)
  have hnofault := loneMem_ok_of_exec hready hdec hi hexec hok
  obtain ⟨s4, hrun4, h4, hwb4, hex4⟩ := run_four hready hdrained hlimit rfl hmarker hnofault
  have hstep5 := step_ready (h4.ready hready)
  obtain ⟨hregs, hcount, hstatus, hsysMem, hmem⟩ := exec_eq_wbStage hready hdec hi hexec hnofault hwb4
    (fun hsys => by rw [h4.mem, loneMem_syscall hsys]) h4.cfg h4.regs h4.icount
  obtain ⟨hregs5, hcount5, _, hmem5⟩ := step_commits hstep5
  have hop := op_of_toInstr? hi
  refine ⟨_, s4, _, hstep1, ?_, hrun4, ?_, fun hne => ?_, run_succ hrun4 hstep5, hregs5.trans hregs.symm,
    hcount5.trans hcount.symm, status_of_halt hstep5 hstatus, fun hsys => ?_⟩
  · rw [hfetch, hf, encode_of_decode hdecode]
  · rw [hwb4, loneMem_toInstr?, hi]
  · rw [h4.mem, hmem fun e => hne (op_eq_syscall_iff.mp (hop.trans e))]
  · have hsysOp := hop.symm.trans (op_eq_syscall_iff.mpr hsys)
    rw [hmem5 (hex4 hsysOp), hsysMem hsysOp]

end Sys2Proof.Machine

/-! PROOFS. The invariants of the state (10_state.md R22, R25, R46 to R48, 41_hazard_forwarding.md R185): O8, O18, O40, O42,
O50 to O55. Each invariant has its own section: what keeps it in one stage first, then the cycle by `cycleNext_cases` or
`step_running`. -/

namespace Sys2Proof.Machine

/-! ## The range of a block (R68) -/

theorem validNat_iff {cfg : Config} {a : Nat} :
    validNat cfg a = true ↔ ∃ r ∈ cfg.memValid, r.lo ≤ a ∧ a < r.lo + r.size := by
  simp [validNat]

/-- Validity changes from one address to the next only where a range begins or has just ended. -/
theorem range_edge_of_validNat_ne {cfg : Config} {a : Nat} (h : validNat cfg (a + 1) ≠ validNat cfg a) :
    ∃ r ∈ cfg.memValid, r.lo = a + 1 ∨ r.lo + r.size = a + 1 := by
  by_contra hno
  push Not at hno
  refine h (Bool.eq_iff_iff.mpr ?_)
  rw [validNat_iff, validNat_iff]
  constructor <;> rintro ⟨r, hr, hlo, hhi⟩ <;> have := hno r hr <;> exact ⟨r, hr, by omega, by omega⟩

theorem validNat_of_blockUniform {cfg : Config} {b k : Nat} (h : blockUniform cfg b = true) (hk : k < 16) :
    validNat cfg (b + k) = validNat cfg b := by
  simp only [blockUniform, List.all_cons, List.all_nil, Bool.and_eq_true, beq_iff_eq] at h
  interval_cases k <;> simp [h]

/-- The start-up check looks at every block in which a range begins or has just ended. -/
theorem blockUniform_of_edge {cfg : Config} (h : memValidUniform cfg = true) {r : MemRange} (hr : r ∈ cfg.memValid) {a : Nat}
    (ha : r.lo = a ∨ r.lo + r.size = a) (hlt : a < 2 ^ 32) : blockUniform cfg (a / 16 * 16) = true := by
  simp only [memValidUniform, List.all_eq_true, Bool.and_eq_true] at h
  obtain ⟨hlo, hhi⟩ := h r hr
  have hok : boundaryOk cfg a = true := by
    rcases ha with rfl | rfl
    · exact hlo
    · exact hhi
  simpa only [boundaryOk, Nat.not_le.mpr hlt, decide_false, Bool.false_or] using hok

/-- R68: under the start-up check the 16 addresses of a block are valid alike. -/
theorem validNat_block {cfg : Config} (h : memValidUniform cfg = true) {b k : Nat} (hb : b % 16 = 0) (hlt : b < 2 ^ 32)
    (hk : k < 16) : validNat cfg (b + k) = validNat cfg b := by
  induction k with
  | zero => rfl
  | succ k ih =>
    by_cases hsame : validNat cfg (b + k + 1) = validNat cfg (b + k)
    · exact hsame.trans (ih (by omega))
    · obtain ⟨r, hr, hedge⟩ := range_edge_of_validNat_ne hsame
      have hblock := blockUniform_of_edge h hr hedge (by omega)
      rw [show (b + k + 1) / 16 * 16 = b by omega] at hblock
      exact validNat_of_blockUniform hblock hk

/-- Checks (d) and (e) of R261, of a configuration that passes them all. -/
theorem accepted_uniform_aligned {cfg : Config} (h : configError? cfg = none) :
    memValidUniform cfg = true ∧ aligned8 cfg.entry := by
  unfold configError? at h
  split_ifs at h with _ _ _ huniform hentry
  exact ⟨by simpa using huniform, by simpa [aligned8] using hentry⟩

/-- Under an accepted configuration the block of a valid address is valid (R68). -/
theorem memValid_blockAddr {cfg : Config} (h : configError? cfg = none) {a : Word} (ha : memValid cfg a = true) :
    memValid cfg (blockAddr (tagOf a) (indexOf a)) = true := by
  obtain ⟨hmod, hroom⟩ := blockAddr_room (tagOf a) (indexOf a)
  rw [memValid, addr_split a, validNat_block (accepted_uniform_aligned h).1 hmod (by omega) (offsetOf a).isLt] at ha
  exact ha

/-! ## A data access keeps the invariants of the memory (R47, R68, R76, R84) -/

/-- An access through the cache is one hit or one miss (R78, R81). -/
theorem throughCache_hits_misses (cfg : Config) (kind : AccessKind) (a v : Word) (m : MemSys) :
    (throughCache cfg kind a v m).2.cache.ctr.hits + (throughCache cfg kind a v m).2.cache.ctr.misses =
      m.cache.ctr.hits + m.cache.ctr.misses + 1 := by
  obtain ⟨_, hhit, hmiss⟩ := throughCache_ctr cfg kind a v m
  by_cases hf : findLine (getSet m.cache.sets (indexOf a)) (tagOf a) = none
  · rw [hmiss hf, makeRoom_ctr]
    simp only [countMiss]
    omega
  · rw [hhit hf]
    simp only [countHit]
    omega

theorem throughCache_inv {cfg : Config} (hcfg : configError? cfg = none) (hc : cfg.cacheEnabled = true) (kind : AccessKind)
    {a : Word} (v : Word) {m : MemSys} (h : MemInv cfg m) (ha : memValid cfg a = true) :
    MemInv cfg (throughCache cfg kind a v { m with cache := { m.cache with ctr := countAccess m.cache.ctr } }).2 := by
  have hlines := h.lines.counters (countAccess m.cache.ctr)
  refine MemInv.of_sets (locate_wf _ _ _ hlines.canonical) (throughCache_sets _ _ _ _ _ hlines) (fun i l hl => ?_)
    (fun hd => absurd hc (by simp [hd])) fun _ => ?_
  · rcases throughCache_resident _ _ _ _ _ _ _ hl with ⟨rfl, ht⟩ | hl
    · rw [ht]
      exact memValid_blockAddr hcfg ha
    · exact h.residentValid i l hl
  · obtain ⟨haccesses, _⟩ := throughCache_ctr cfg kind a v { m with cache := { m.cache with ctr := countAccess m.cache.ctr } }
    rw [throughCache_hits_misses, haccesses]
    simp only [countAccess, h.countersAdd hc]

/-- With every set empty nothing but the canonical form is asked of the memory of a disabled cache (R76). -/
theorem MemInv.of_disabled {cfg : Config} {m : MemSys} (hc : cfg.cacheEnabled = false) (hw : Memory.wf m.bs = true)
    (hs : ∀ i, getSet m.cache.sets i = []) : MemInv cfg m := by
  constructor <;> simp [hs, hc, hw]

theorem cacheAccess_inv {cfg : Config} (hcfg : configError? cfg = none) {kind : AccessKind} {a v w : Word} {m m' : MemSys}
    (h : MemInv cfg m) (hok : cacheAccess cfg kind a v m = .ok w m') : MemInv cfg m' := by
  have hw := cacheAccess_wf _ _ _ _ _ _ _ h.canonical hok
  rcases cacheAccess_cases cfg kind a v m with ⟨k, _, e⟩ | ⟨hf, e⟩
  · rw [e] at hok; cases hok
  · rw [e] at hok
    obtain ⟨_, rfl⟩ := Access.ok.inj hok
    by_cases hc : cfg.cacheEnabled = true
    · rw [if_pos hc]
      exact throughCache_inv hcfg hc kind v h ((accessFault_none cfg a).mp hf).2
    · rw [if_neg hc] at hw ⊢
      rw [Bool.not_eq_true] at hc
      refine MemInv.of_disabled hc hw fun i => ?_
      cases kind <;> exact h.disabledEmpty hc i

/-- Settles O18: `throughCache_inv` with the cache enabled; with it disabled every set stays empty. -/
theorem accessKeepsMemInv : Obligations.AccessKeepsMemInv := fun _ _ _ _ _ _ _ hcfg h hok => cacheAccess_inv hcfg h hok

/-! ## A cycle keeps the invariants of the memory -/

theorem wbStage_inv {s : State} (h : MemInv s.cfg s.mem) : MemInv s.cfg (wbStage s).mem := by
  by_cases hsys : s.memwb.ins.op = .syscall
  · rw [wbStage_syscall hsys]
    exact applyHandlerMem_inv _ _ _ h
  · rw [wbStage_other hsys]
    exact h

theorem memStage_inv {cfg : Config} (hcfg : configError? cfg = none) {m : MemSys} (h : MemInv cfg m) (x : ExMemLatch) :
    MemInv cfg (memStage cfg x m).mem := by
  rcases memStage_cases cfg x m with
    ⟨_, e⟩ | ⟨_, ⟨_, _, e⟩ | ⟨_, ⟨_, ⟨_, _, e⟩ | ⟨v, m', hr, e⟩⟩ | ⟨_, _, ⟨_, _, e⟩ | ⟨v, m', hw, e⟩⟩ | ⟨_, _, e⟩⟩⟩ <;> rw [e]
  case inr.inr.inl.inr => exact cacheAccess_inv hcfg h hr
  case inr.inr.inr.inl.inr => exact cacheAccess_inv hcfg h hw
  all_goals exact h

/-- Settles O51: WB's part keeps the invariants, whatever the handler does, and MEM's access keeps them after it. -/
theorem stepKeepsMemInv : Obligations.StepKeepsMemInv := by
  intro s s' h hstep
  obtain ⟨⟨hcfg, _⟩, rfl⟩ := step_next.mp hstep
  have hwb := wbStage_inv h
  rcases cycleNext_cases s with ⟨_, _, e⟩ | ⟨_, ⟨_, _, e⟩ | ⟨_, e⟩⟩ <;> rw [e]
  · exact hwb
  · exact hwb
  · exact memStage_inv hcfg hwb s.exmem

/-! ## Register 0 (R22) -/

@[simp] theorem wbRegs_slot_zero (s : State) : (wbRegs s)[0] = s.regs[0] := by
  unfold wbRegs
  split <;> simp

/-- WB leaves 0 in register 0: the handler's answer for it is not taken over (R243). -/
theorem wbStage_zero {s : State} (h : ZeroInv s) : (wbStage s).regs[0] = 0#32 := by
  by_cases hsys : s.memwb.ins.op = .syscall
  · rw [wbStage_syscall hsys]
    simp [callHandler]
  · rw [wbStage_other hsys, wbRegs_slot_zero]
    exact h

theorem step_zero {s s' : State} (h : ZeroInv s) (hstep : step s = .next s') : ZeroInv s' := by
  obtain ⟨hregs, _⟩ := step_commits hstep
  rw [ZeroInv, hregs]
  exact wbStage_zero h

/-- A program-order effect that writes one register keeps register 0. -/
theorem zeroInv_retire_setReg {s : State} (h : ZeroInv s) (op : Op) (t : Option Word) (r : RegIdx) (v : Word) :
    ZeroInv (retire op t false (s.setReg r v)) := by
  simpa [ZeroInv] using h

/-- An instruction executed alone keeps register 0, whatever the handler answers. -/
theorem exec_zero {s t : State} (h : ZeroInv s) {i : Instr} (hexec : exec i s = .next t) : ZeroInv t := by
  have hready : s.Ready := by
    obtain ⟨k, hk⟩ := exec_guarded i s
    exact (whenReady_next.mp (hk ▸ hexec)).1
  cases i with
  | nop => rw [exec_nop hready] at hexec; cases hexec; exact h
  | add rd rs rt => rw [exec_add hready] at hexec; cases hexec; exact zeroInv_retire_setReg h _ _ _ _
  | sub rd rs rt => rw [exec_sub hready] at hexec; cases hexec; exact zeroInv_retire_setReg h _ _ _ _
  | and rd rs rt => rw [exec_and hready] at hexec; cases hexec; exact zeroInv_retire_setReg h _ _ _ _
  | sll rd rs rt => rw [exec_sll hready] at hexec; cases hexec; exact zeroInv_retire_setReg h _ _ _ _
  | slt rd rs rt => rw [exec_slt hready] at hexec; cases hexec; exact zeroInv_retire_setReg h _ _ _ _
  | mul rd rs rt =>
    cases hm : s.cfg.hasMul
    · rw [exec_mul_absent hready hm] at hexec; cases hexec; exact h
    · rw [exec_mul hready hm] at hexec; cases hexec; exact zeroInv_retire_setReg h _ _ _ _
  | addi rt rs imm => rw [exec_addi hready] at hexec; cases hexec; exact zeroInv_retire_setReg h _ _ _ _
  | lw rt rs imm =>
    rw [exec_lw hready] at hexec
    cases hr : cacheRead s.cfg (s.reg rs + sext16 imm) s.mem with
    | fault k => rw [hr] at hexec; cases hexec; exact h
    | ok v m => rw [hr] at hexec; cases hexec; exact zeroInv_retire_setReg (s := { s with mem := m }) h _ _ _ _
  | sw rt rs imm =>
    rw [exec_sw hready] at hexec
    cases hw : cacheWrite s.cfg (s.reg rs + sext16 imm) (s.reg rt) s.mem with
    | fault k => rw [hw] at hexec; cases hexec; exact h
    | ok v m => rw [hw] at hexec; cases hexec; exact h
  | beq rs rt imm => rw [exec_beq hready] at hexec; cases hexec; exact h
  | bne rs rt imm => rw [exec_bne hready] at hexec; cases hexec; exact h
  | j t26 => rw [exec_j hready] at hexec; cases hexec; exact h
  | syscall =>
    rw [exec_syscall hready] at hexec
    cases hexec
    simp [ZeroInv, callHandler]

/-- Settles O52: `step_zero` for a cycle, `exec_zero` for an instruction. -/
theorem registerZeroStaysZero : Obligations.RegisterZeroStaysZero :=
  fun _ _ h => ⟨step_zero h, fun _ => exec_zero h⟩

/-! ## The register WB writes (R134) -/

/-- Settles O42: a cycle keeps WB's registers, and those are one register write. -/
theorem wbWritesDestination : Obligations.WbWritesDestination := by
  intro s s' hstep hnop hsys
  obtain ⟨hregs, _⟩ := step_commits hstep
  have hwrite : s'.regs = writeReg s.regs s.memwb.dest s.memwb.val := by
    rw [hregs, wbStage_other hsys]
    simp only [wbRegs, hnop, if_false]
  refine ⟨fun h0 => ?_, reg_zero s', fun q hq => ?_⟩
  · rw [State.reg, hwrite, readReg_writeReg_same _ _ _ h0]
  · rw [State.reg, hwrite, readReg_writeReg_other _ _ _ _ hq, State.reg]

/-! ## Which cycles go on (R131, R153, R155) -/

/-- A data access faults exactly as the check of R74 says. -/
theorem cacheAccess_fault_iff {cfg : Config} {kind : AccessKind} {a v : Word} {m : MemSys} {k : FaultKind} :
    cacheAccess cfg kind a v m = .fault k ↔ accessFault? cfg a = some k := by
  rcases cacheAccess_cases cfg kind a v m with ⟨j, hj, e⟩ | ⟨hn, e⟩
  · simp [hj, e]
  · simp [hn, e]

theorem accessFault_of_ok {cfg : Config} {kind : AccessKind} {a v w : Word} {m m' : MemSys}
    (h : cacheAccess cfg kind a v m = .ok w m') : accessFault? cfg a = none := by
  rcases cacheAccess_cases cfg kind a v m with ⟨j, _, e⟩ | ⟨hn, _⟩
  · rw [e] at h; cases h
  · exact hn

/-- MEM faults on a marker slot and on an access that fails the check, and on nothing else (R252). -/
theorem memStage_fault_none (cfg : Config) (x : ExMemLatch) (m : MemSys) :
    (memStage cfg x m).fault = none ↔
      x.ins.op = .nop ∨ (x.fault = none ∧ (x.isLoad = true ∨ x.isStore = true → accessFault? cfg x.res = none)) := by
  rcases memStage_cases cfg x m with
    ⟨hn, e⟩ | ⟨hn, ⟨k, hf, e⟩ | ⟨hf, ⟨hl, ⟨k, hr, e⟩ | ⟨v, m', hr, e⟩⟩ | ⟨hl, hs, ⟨k, hw, e⟩ | ⟨v, m', hw, e⟩⟩ | ⟨hl, hs, e⟩⟩⟩
  case inr.inr.inl.inl => simp [e, hn, hf, hl, cacheAccess_fault_iff.mp hr]
  case inr.inr.inl.inr => simp [e, hn, hf, hl, accessFault_of_ok hr]
  case inr.inr.inr.inl.inl => simp [e, hn, hf, hl, hs, cacheAccess_fault_iff.mp hw]
  case inr.inr.inr.inl.inr => simp [e, hn, hf, hl, hs, accessFault_of_ok hw]
  case inl => simp [e, hn]
  case inr.inl => simp [e, hn, hf]
  case inr.inr.inr.inr => simp [e, hn, hf, hl, hs]

/-- The run goes on after a cycle exactly when the commit gives no reason to halt and MEM does not fault. -/
theorem cycleNext_running {s : State} (h : s.status = .running) :
    (cycleNext s).status = .running ↔
      haltReason? s.cfg (wbStage s).haltReq (wbStage s).icount = none ∧
        (memStage s.cfg s.exmem (wbStage s).mem).fault = none := by
  rcases cycleNext_cases s with ⟨r, hr, e⟩ | ⟨hr, ⟨r, hf, e⟩ | ⟨hf, e⟩⟩ <;> rw [e, hr]
  · simp
  · simp [hf]
  · simp [hf, h]

/-- Settles O40: `cycleNext_running` with R153 and R252 spelled out; the guard of `step` and of every meaning stops an ended
run. -/
theorem onlyARunningStateTakesACycle : Obligations.OnlyARunningStateTakesACycle := by
  refine fun s hcfg => ⟨fun hrun => ⟨_, step_ready ⟨hcfg, hrun⟩, ?_, memStage_fault_none _ _ _⟩, fun hend => ⟨?_, fun i => ?_⟩⟩
  · rw [cycleNext_running hrun, haltReason_none, and_assoc]
  · exact whenReady_ended hcfg hend _
  · obtain ⟨k, hk⟩ := exec_guarded i s
    rw [hk]
    exact whenReady_ended hcfg hend k

/-! ## Fetch addresses (R25, R66, R103) -/

theorem aligned8_iff (a : Word) : aligned8 a ↔ a.toNat % 8 = 0 := low3_zero a

theorem aligned8_add_eight {a : Word} (h : aligned8 a) : aligned8 (a + 8#32) := by
  rw [aligned8_iff] at h ⊢
  simp only [BitVec.toNat_add, BitVec.toNat_ofNat]
  omega

theorem aligned8_sub_eight {a : Word} (h : aligned8 a) : aligned8 (a - 8#32) := by
  rw [aligned8_iff] at h ⊢
  simp only [BitVec.toNat_sub, BitVec.toNat_ofNat]
  omega

/-- A displacement counts instructions, so it keeps an address a multiple of 8 (R103). -/
theorem aligned8_displaced {a : Word} (h : aligned8 a) (x : Word) : aligned8 (a + 8#32 + (x <<< 3)) := by
  have h8 := aligned8_add_eight h
  rw [aligned8_iff] at h8 ⊢
  simp only [BitVec.toNat_add (a + 8#32), BitVec.toNat_shiftLeft, Nat.shiftLeft_eq]
  omega

/-- Every branch or jump target is a multiple of 8 (R103, R145). -/
theorem aligned8_targetOf {pc : Word} (h : aligned8 pc) (d : Ins) : aligned8 (targetOf d pc) := by
  unfold targetOf
  split
  · exact aligned8_displaced h _
  · exact aligned8_displaced h _
  · exact aligned8_displaced h _
  · rfl

theorem FetchInv.nextPc {s : State} (h : FetchInv s) : aligned8 s.nextPc := by
  unfold State.nextPc
  cases hp : s.pending with
  | none => exact aligned8_add_eight h.fpc
  | some t => exact h.pending t hp

/-- A fetch at a multiple of 8 is not marked misaligned (R149). -/
theorem fetchLatch_not_misaligned {cfg : Config} {bs : Memory} {p : Word} (h : aligned8 p) :
    (fetchLatch cfg bs p).ffault ≠ some .misaligned := by
  rw [fetchLatch_eq, if_neg (not_not.mpr ((aligned8_iff p).mp h))]
  split <;> simp

/-- What IF can answer: it holds the slot it has, or it fetches at the next address (R148, R149). -/
theorem ifStage_cases (s : State) (stall : Bool) (bs : Memory) :
    (stall = true ∧ s.pending = none ∧ ifStage s stall bs = (s.fpc, s.ifid)) ∨
      ((stall = false ∨ s.pending ≠ none) ∧ ifStage s stall bs = (s.nextPc, fetchLatch s.cfg bs s.nextPc)) := by
  by_cases h : stall = true ∧ s.pending = none
  · exact .inl ⟨h.1, h.2, by simp only [ifStage, fetchAddr_eq, if_pos h]⟩
  · exact .inr ⟨by simpa [or_iff_not_imp_left] using h, by simp only [ifStage, fetchAddr_eq, if_neg h]⟩

/-- What ID can answer: an empty slot and nothing taken, or the instruction in IF/ID, not stalled (R144, R146). -/
theorem idStage_cases (s : State) (w : WbOut) (x : ExMemLatch) (m : MemOut) :
    ((idStage s w x m).idex = .bubble ∧ (idStage s w x m).taken = false) ∨
      ((idIns s.cfg s.ifid).op ≠ .nop ∧ stallOf s (idIns s.cfg s.ifid) = false) := by
  by_cases hn : (idIns s.cfg s.ifid).op = .nop
  · exact .inl (by simp [idStage_nop hn])
  cases hs : stallOf s (idIns s.cfg s.ifid) with
  | true => exact .inl (by simp [idStage_stall hs])
  | false => exact .inr ⟨hn, rfl⟩

theorem idStage_target (s : State) (w : WbOut) (x : ExMemLatch) (m : MemOut) :
    ((idStage s w x m).taken = true → (idStage s w x m).target = targetOf (idIns s.cfg s.ifid) s.ifid.pc) ∧
      ((idStage s w x m).idex = .bubble ∨ (idStage s w x m).idex.target = targetOf (idIns s.cfg s.ifid) s.ifid.pc) := by
  rcases idStage_cases s w x m with ⟨hb, ht⟩ | ⟨hn, hs⟩
  · exact ⟨fun h => absurd h (by simp [ht]), .inl hb⟩
  · rw [idStage_issue hn hs]
    exact ⟨fun _ => rfl, .inr rfl⟩

/-- A cycle that ends the run leaves the fetch side, the latches and the configuration as they were (R154); any other is
`carryOn`, after a MEM stage without a fault (R155). -/
theorem step_ended_or_carriedOn {s s' : State} (h : step s = .next s') :
    (s'.cfg = s.cfg ∧ s'.fpc = s.fpc ∧ s'.pending = s.pending ∧ s'.ifid = s.ifid ∧ s'.idex = s.idex ∧
        s'.memwb = s.memwb) ∨
      ((memStage s.cfg s.exmem (wbStage s).mem).fault = none ∧
        s' = carryOn s (wbStage s) (memStage s.cfg s.exmem (wbStage s).mem) (exStage s.idex)
          (idStage s (wbStage s) (exStage s.idex) (memStage s.cfg s.exmem (wbStage s).mem))) := by
  obtain ⟨_, rfl⟩ := step_next.mp h
  rcases cycleNext_cases s with ⟨_, _, e⟩ | ⟨_, ⟨_, _, e⟩ | ⟨hf, e⟩⟩ <;> rw [e]
  · exact .inl ⟨rfl, rfl, rfl, rfl, rfl, rfl⟩
  · exact .inl ⟨rfl, rfl, rfl, rfl, rfl, rfl⟩
  · exact .inr ⟨hf, rfl⟩

theorem carryOn_fetchInv {s : State} (h : FetchInv s) (w : WbOut) (m : MemOut) (x : ExMemLatch) :
    FetchInv (carryOn s w m x (idStage s w x m)) := by
  obtain ⟨htaken, hidex⟩ := idStage_target s w x m
  have htarget := aligned8_targetOf h.ifidPc (idIns s.cfg s.ifid)
  have hif : aligned8 (ifStage s (idStage s w x m).stall m.mem.bs).1 ∧
      aligned8 (ifStage s (idStage s w x m).stall m.mem.bs).2.pc ∧
      (ifStage s (idStage s w x m).stall m.mem.bs).2.ffault ≠ some .misaligned := by
    rcases ifStage_cases s (idStage s w x m).stall m.mem.bs with ⟨_, _, e⟩ | ⟨_, e⟩ <;> rw [e]
    · exact ⟨h.fpc, h.ifidPc, h.notMisaligned⟩
    · exact ⟨h.nextPc, by simpa using h.nextPc, fetchLatch_not_misaligned h.nextPc⟩
  obtain ⟨hfpc, hpc, hmark⟩ := hif
  refine ⟨hfpc, fun t ht => ?_, ?_, ?_, ?_⟩
  · rw [carryOn_pending] at ht
    split_ifs at ht with _ hid
    · exact Option.some.inj ht ▸ h.idexTarget
    · exact Option.some.inj ht ▸ htaken hid ▸ htarget
  · rw [carryOn_ifid]
    split
    · rfl
    · exact hpc
  · rw [carryOn_idex]
    split
    · rfl
    · rcases hidex with e | e <;> rw [e]
      · rfl
      · exact htarget
  · rw [carryOn_ifid]
    split
    · exact nofun
    · exact hmark

/-- Settles O53: a cycle that ends the run changes none of the four; one that goes on by `carryOn_fetchInv`. -/
theorem stepKeepsFetchAligned : Obligations.StepKeepsFetchAligned := by
  intro s s' h hstep
  rcases step_ended_or_carriedOn hstep with ⟨_, hfpc, hpending, hifid, hidex, _⟩ | ⟨_, rfl⟩
  · exact ⟨hfpc ▸ h.fpc, hpending ▸ h.pending, hifid ▸ h.ifidPc, hidex ▸ h.idexTarget, hifid ▸ h.notMisaligned⟩
  · exact carryOn_fetchInv h _ _ _

/-! ## Squashed latches and markers (R48, R150, R151, R252) -/

/-- With `BRANCH_STAGE` = EX nothing is resolved in ID (R146). -/
theorem idStage_not_taken {s : State} (hb : s.cfg.branchStage = .ex) (w : WbOut) (x : ExMemLatch) (m : MemOut) :
    (idStage s w x m).taken = false := by
  rcases idStage_cases s w x m with ⟨_, ht⟩ | ⟨hn, hs⟩
  · exact ht
  · rw [idStage_issue hn hs]
    simp [idResolves, hb]

/-- With `BRANCH_STAGE` = ID nothing is resolved in EX (R142). -/
theorem exTaken_id {cfg : Config} (hb : cfg.branchStage = .id) (x : IdExLatch) : exTaken cfg x = false := by
  simp only [exTaken, hb]

/-- A cycle that goes on leaves a pending target exactly when it resolves one (R150, R151). -/
theorem carryOn_pending_ne_none {s : State} {w : WbOut} {m : MemOut} {x : ExMemLatch} {d : IdOut} :
    (carryOn s w m x d).pending ≠ none ↔ (exTaken s.cfg s.idex = true ∨ d.taken = true) := by
  rw [carryOn_pending]
  cases exTaken s.cfg s.idex <;> cases d.taken <;> simp

/-- A slot that passes MEM without a fault carries no marker (R252). -/
theorem OperandInv.not_isMarker_exmem {s : State} (h : OperandInv s)
    (hf : (memStage s.cfg s.exmem (wbStage s).mem).fault = none) : ¬isMarker s.exmem.ins := by
  intro hm
  rcases (memStage_fault_none _ _ _).mp hf with hn | ⟨hnone, _⟩
  · rcases hm with e | e <;> simp [hn] at e
  · exact h.memMarker.mpr hm hnone

theorem step_squashInv {s s' : State} (ho : OperandInv s) (h : SquashInv s) (hstep : step s = .next s') : SquashInv s' := by
  rcases step_ended_or_carriedOn hstep with ⟨hcfg, _, hpending, hifid, hidex, hmemwb⟩ | ⟨hf, rfl⟩
  · refine ⟨?_, ?_, hmemwb ▸ h.noMarkerInWb⟩
    · rw [hpending, hifid]
      exact h.redirectEmptiesFetch
    · rw [hcfg, hpending, hidex]
      exact h.redirectEmptiesDecode
  · refine ⟨fun hp => ?_, fun hb hp => ?_, ?_⟩
    · rw [carryOn_ifid, if_pos (by simpa using carryOn_pending_ne_none.mp hp)]
    · have ht := carryOn_pending_ne_none.mp hp
      rw [idStage_not_taken (s := s) hb] at ht
      rw [carryOn_idex, if_pos (by simpa using ht)]
    · rw [carryOn_memwb, memStage_op]
      exact not_or.mp (ho.not_isMarker_exmem hf)

/-- Settles O54: a target is resolved in the cycle that squashes, and a marker slot in MEM faults. -/
theorem stepKeepsSquashInv : Obligations.StepKeepsSquashInv := fun _ _ => step_squashInv

/-! ## Construction (R46) -/

/-- Settles O8: R46's table, field by field. -/
theorem constructionFollowsResetTable : Obligations.ConstructionFollowsResetTable := by
  intro cfg image s
  refine ⟨rfl, ?_, fun k hk h0 => ?_, rfl, ?_, rfl, rfl, ⟨rfl, rfl, rfl, rfl⟩, rfl, getSet_empty, rfl, rfl, rfl, rfl⟩
  · simp [s]
  · simp [s, Vector.getElem_set_ne, h0.symm]
  · simp [s, State.nextPc]

/-- The instruction of a bubble is what the zero word decodes to (R35, R105). -/
theorem decoded_nopIns (hasMul : Bool) : Decoded hasMul nopIns := by
  cases hasMul <;> exact .inl rfl

/-! ## What one latch holds (R185)

`OperandInv` says of each latch what sequential execution on some register file gives its instruction. Here that is a
predicate of the latch and the register file, so that a stage is one lemma about a latch, whatever state it is in. -/

/-- MEM/WB's part of `OperandInv`, on the registers and the memory before its instruction. -/
structure MemWbSlot (cfg : Config) (regs : RegFile) (m : MemSys) (l : MemWbLatch) : Prop where
  bubble : l.ins.op = .nop → l = .bubble
  decoded : Decoded cfg.hasMul l.ins
  dest : l.dest = destOf l.ins
  noMarker : ¬isMarker l.ins
  value : l.val = seqVal regs m l.ins
  access : (roles l.ins.op).isLoad ∨ (roles l.ins.op).isStore → accessFault? cfg (seqRes regs l.ins) = none

/-- EX/MEM's part of `OperandInv`, on the registers before its instruction. -/
structure ExMemSlot (hasMul : Bool) (regs : RegFile) (l : ExMemLatch) : Prop where
  bubble : l.ins.op = .nop → l = .bubble
  decoded : Decoded hasMul l.ins
  dest : l.dest = destOf l.ins
  load : l.isLoad = (roles l.ins.op).isLoad
  store : l.isStore = (roles l.ins.op).isStore
  marker : l.fault ≠ none ↔ isMarker l.ins
  res : l.res = seqRes regs l.ins
  data : l.b = seqB regs l.ins

/-- ID/EX's part of `OperandInv`, on the registers before its instruction. -/
structure IdExSlot (hasMul : Bool) (regs : RegFile) (l : IdExLatch) : Prop where
  bubble : l.ins.op = .nop → l = .bubble
  decoded : Decoded hasMul l.ins
  dest : l.dest = destOf l.ins
  load : l.isLoad = (roles l.ins.op).isLoad
  store : l.isStore = (roles l.ins.op).isStore
  branch : l.isBranch = (roles l.ins.op).isBr
  marker : l.fault ≠ none ↔ isMarker l.ins
  imm : l.imm = sext16 l.ins.imm16
  target : l.target = targetOf l.ins l.pc
  a : l.a = seqA regs l.ins
  b : l.b = seqB regs l.ins

/-- `OperandInv` latch by latch. -/
theorem operandInv_iff_slots (s : State) :
    OperandInv s ↔
      MemWbSlot s.cfg s.regs s.mem s.memwb ∧ ExMemSlot s.cfg.hasMul (regsAfterWb s) s.exmem ∧
        IdExSlot s.cfg.hasMul (regsAfterMem s) s.idex ∧ (s.exmem.ins.op = .syscall → s.idex = .bubble) ∧
        (s.memwb.ins.op = .syscall → s.exmem = .bubble ∧ s.idex = .bubble) := by
  constructor
  · rintro ⟨⟩
    exact ⟨by constructor <;> assumption, by constructor <;> assumption, by constructor <;> assumption, ‹_›, ‹_›⟩
  · rintro ⟨⟨⟩, ⟨⟩, ⟨⟩, _, _⟩
    constructor <;> assumption

theorem not_isMarker_nopIns : ¬isMarker nopIns := by simp [isMarker, nopIns]

theorem memWbSlot_bubble (cfg : Config) (regs : RegFile) (m : MemSys) : MemWbSlot cfg regs m .bubble :=
  ⟨fun _ => rfl, decoded_nopIns _, rfl, not_isMarker_nopIns, rfl, by simp [MemWbLatch.bubble, nopIns, roles]⟩

theorem exMemSlot_bubble (hasMul : Bool) (regs : RegFile) : ExMemSlot hasMul regs .bubble :=
  ⟨fun _ => rfl, decoded_nopIns _, rfl, rfl, rfl, iff_of_false (not_not.mpr rfl) not_isMarker_nopIns, rfl, rfl⟩

theorem idExSlot_bubble (hasMul : Bool) (regs : RegFile) : IdExSlot hasMul regs .bubble :=
  ⟨fun _ => rfl, decoded_nopIns _, rfl, rfl, rfl, rfl, iff_of_false (not_not.mpr rfl) not_isMarker_nopIns, rfl, rfl, rfl,
    rfl⟩

/-- An empty pipeline holds sequential execution's operands, whatever its registers and its memory (R35). -/
theorem operandInv_of_drained {s : State} (h : s.Drained) : OperandInv s := by
  obtain ⟨_, hex, hmem, hwb⟩ := h
  rw [operandInv_iff_slots, hex, hmem, hwb]
  exact ⟨memWbSlot_bubble _ _ _, exMemSlot_bubble _ _, idExSlot_bubble _ _, fun _ => rfl, fun _ => ⟨rfl, rfl⟩⟩

theorem pathInv_of_drained {s : State} (h : s.Drained) (hp : s.pending = none) : PathInv s := by
  obtain ⟨hif, hex, hmem, hwb⟩ := h
  constructor <;> simp [hif, hex, hmem, hwb, hp, IdExLatch.bubble, ExMemLatch.bubble, MemWbLatch.bubble, nopIns, taken]

/-- Settles O50: the pipeline is empty, the cache is empty and the counters are 0, and `ENTRY` is a multiple of 8. -/
theorem constructionIsGood : Obligations.ConstructionIsGood := by
  intro cfg image hcfg hwf
  have hdrained : (State.construct cfg image).Drained := ⟨rfl, rfl, rfl, rfl⟩
  refine ⟨by simp [ZeroInv], ?_, ?_, ?_, operandInv_of_drained hdrained, pathInv_of_drained hdrained rfl⟩
  · refine MemInv.of_sets hwf (fun i => ?_) ?_ (fun _ => getSet_empty) fun _ => rfl
    · constructor <;> simp
    · simp
  · refine ⟨aligned8_sub_eight (accepted_uniform_aligned hcfg).2, nofun, rfl, rfl, nofun⟩
  · refine ⟨nofun, nofun, ?_⟩
    simp [MemWbLatch.bubble, nopIns]

/-! ## The stages keep what a latch holds (R138 to R146, R185) -/

/-- A read answers the word a program observes and changes no byte it observes (R87). -/
theorem cacheRead_archMem {cfg : Config} {a v : Word} {m m' : MemSys} (hm : MemInv cfg m)
    (h : cacheRead cfg a m = .ok v m') : v = archWord m a ∧ ∀ b, archByte m' b = archByte m b := by
  have hf := accessFault_of_ok h
  constructor
  · obtain ⟨m'', hread⟩ := cacheRead_ok hm hf
    exact (Access.ok.inj (h.symm.trans hread)).1
  · rcases cacheAccess_cases cfg .read a 0#32 m with ⟨k, _, e⟩ | ⟨_, e⟩
    · rw [cacheRead, e] at h; cases h
    · rw [cacheRead, e] at h
      obtain ⟨_, rfl⟩ := Access.ok.inj h
      split
      · exact (throughCache_read cfg a 0#32 _ (hm.lines.counters (countAccess m.cache.ctr))
          ((accessFault_none cfg a).mp hf).1).2
      · exact fun _ => rfl

/-- EX keeps the mnemonic, also of a NOP, which it makes a bubble. -/
theorem exStage_op (x : IdExLatch) : (exStage x).ins.op = x.ins.op := by
  unfold exStage
  split
  · next hn => rw [hn]; rfl
  · rfl

theorem exStage_pc {x : IdExLatch} (hn : x.ins.op ≠ .nop) : (exStage x).pc = x.pc := by
  simp only [exStage, hn, if_false]

/-- EX computes the result of sequential execution from its operands (R141, R200). -/
theorem IdExSlot.exStage {hasMul : Bool} {regs : RegFile} {x : IdExLatch} (h : IdExSlot hasMul regs x) :
    ExMemSlot hasMul regs (exStage x) := by
  by_cases hn : x.ins.op = .nop
  · rw [h.bubble hn, exStage_bubble]
    exact exMemSlot_bubble _ _
  · simp only [Machine.exStage, hn, if_false]
    exact ⟨fun e => absurd e hn, h.decoded, h.dest, h.load, h.store, h.marker, by rw [seqRes, ← h.a, ← h.b, ← h.imm], h.b⟩

/-- MEM passes on the value of sequential execution: the word a load reads, 0 for a store, else the result (R139). -/
theorem ExMemSlot.memStage {cfg : Config} {regs : RegFile} {x : ExMemLatch} {m : MemSys}
    (h : ExMemSlot cfg.hasMul regs x) (hm : MemInv cfg m) (hf : (memStage cfg x m).fault = none) :
    MemWbSlot cfg regs (memStage cfg x m).mem (memStage cfg x m).memwb := by
  have hdata := (memStage_fault_none cfg x m).mp hf
  rcases memStage_ok hf with ⟨_, e⟩ | ⟨hn, hx, hcase⟩
  · rw [e]
    exact memWbSlot_bubble _ _ _
  have hval : (Machine.memStage cfg x m).memwb.val = seqVal regs (Machine.memStage cfg x m).mem x.ins := by
    rw [seqVal, ← h.load, ← h.store, ← h.res]
    rcases hcase with ⟨hl, v, m', hread, e⟩ | ⟨hl, hs, v, m', _, e⟩ | ⟨hl, hs, e⟩ <;> rw [e]
    · obtain ⟨rfl, harch⟩ := cacheRead_archMem hm hread
      simp only [hl, if_true, archWord, harch]
    · simp [hl, hs]
    · simp [hl, hs]
  have hslot := memStage_memwb cfg x m hn
  rw [hval] at hslot
  rw [hslot]
  refine ⟨fun e => absurd e hn, h.decoded, h.dest, fun hmark => h.marker.mpr hmark hx, rfl, ?_⟩
  rw [← h.load, ← h.store, ← h.res]
  exact (hdata.resolve_left hn).2

/-- ID issues an instruction with the operands it reads (R144). -/
theorem idExSlot_issueLatch {hasMul : Bool} {d : Ins} {mk : Option FaultKind} (regs : RegFile) (pc : Word)
    (hd : Decoded hasMul d) (hn : d.op ≠ .nop) (hmk : mk ≠ none ↔ isMarker d) :
    IdExSlot hasMul regs (issueLatch d pc (seqA regs d) (seqB regs d) mk) :=
  ⟨fun e => absurd e hn, hd, rfl, rfl, rfl, rfl, hmk, rfl, rfl, rfl, rfl⟩

/-! ## The operands of the next cycle (R185) -/

/-- A store has no destination register (R110). -/
theorem destOf_store {d : Ins} (h : (roles d.op).isStore = true) : destOf d = 0#5 := by
  unfold destOf
  cases hop : d.op <;> simp [hop, roles] at h ⊢

/-- The registers after the next cycle's WB are those after this cycle's EX/MEM: its value is what `regsAfterMem` writes,
but for a store, which writes nothing. -/
theorem OperandInv.regsAfterWb_next {s s' : State} (h : OperandInv s) (hm : MemInv s.cfg s.mem) (hstep : step s = .next s')
    (hrun : s'.status = .running) (hsys : s.exmem.ins.op ≠ .syscall) : regsAfterWb s' = regsAfterMem s := by
  obtain ⟨_, _, hf, rfl⟩ := step_running hstep hrun
  rw [regsAfterWb, wbStage_other (by rwa [carryOn_memwb, memStage_op]), wbRegs, carryOn_memwb, carryOn_regs, memStage_op,
    regsAfterMem, regsAfterWb]
  by_cases hn : s.exmem.ins.op = .nop
  · rw [if_pos hn, if_pos hn]
  · rw [if_neg hn, if_neg hn, memStage_dest _ _ _ hn]
    obtain ⟨_, _, hcase⟩ := (memStage_ok hf).resolve_left fun e => hn e.1
    rcases hcase with ⟨hl, v, m', hread, e⟩ | ⟨_, hs, _⟩ | ⟨hl, _, e⟩
    · obtain ⟨rfl, _⟩ := cacheRead_archMem (wbStage_inv hm) hread
      rw [e, if_pos hl]
    · rw [h.memDest, destOf_store (h.memStore ▸ hs), writeReg_zero, writeReg_zero]
    · simp [e, hl]

/-- ID/EX after a cycle that goes on holds nothing, or an instruction that has left ID with the operands of sequential
execution. -/
theorem OperandInv.idExSlot_next {s s' : State} (h : OperandInv s) (hstep : step s = .next s')
    (hrun : s'.status = .running) : IdExSlot s'.cfg.hasMul (regsAfterMem s') s'.idex := by
  have hissue := h.idStage_eq hstep hrun
  obtain ⟨_, _, _, hs'⟩ := step_running hstep hrun
  have hidex := congrArg State.idex hs'
  have hcfg : s'.cfg = s.cfg := by rw [hs', carryOn_cfg]
  rw [carryOn_idex] at hidex
  rw [hidex]
  split
  · exact idExSlot_bubble _ _
  rcases idStage_cases s (wbStage s) (exStage s.idex) (memStage s.cfg s.exmem (wbStage s).mem) with ⟨e, _⟩ | ⟨hn, hs⟩
  · rw [e]
    exact idExSlot_bubble _ _
  · rw [hissue hn hs, hcfg]
    exact idExSlot_issueLatch _ _ (idIns_decoded _ _) hn (idMarker_iff _ _)

/-- Behind a SYSCALL in EX or in MEM nothing leaves ID (R175). -/
theorem idex_behind_syscall {s s' : State} (hstep : step s = .next s') (hrun : s'.status = .running)
    (hser : serStall s = true) : s'.idex = .bubble := by
  obtain ⟨_, _, _, rfl⟩ := step_running hstep hrun
  rw [carryOn_idex]
  rcases idStage_cases s (wbStage s) (exStage s.idex) (memStage s.cfg s.exmem (wbStage s).mem) with ⟨e, _⟩ | ⟨hn, hs⟩
  · rw [e, ite_self]
  · rw [(not_stalled hn hs).1] at hser
    cases hser

theorem step_operandInv {s s' : State} (h : OperandInv s) (hm : MemInv s.cfg s.mem) (hstep : step s = .next s')
    (hrun : s'.status = .running) : OperandInv s' := by
  obtain ⟨hwb, hmem, hex, hsysMem, hsysWb⟩ := (operandInv_iff_slots s).mp h
  have hregs := h.regsAfterWb_next hm hstep hrun
  have hidex := h.idExSlot_next hstep hrun
  have hser := idex_behind_syscall hstep hrun
  obtain ⟨_, _, hf, rfl⟩ := step_running hstep hrun
  refine (operandInv_iff_slots _).mpr ⟨hmem.memStage (wbStage_inv hm) hf, ?_, hidex, fun hsys => ?_, fun hsys => ?_⟩
  · by_cases hsys : s.exmem.ins.op = .syscall
    · rw [carryOn_exmem, hsysMem hsys, exStage_bubble]
      exact exMemSlot_bubble _ _
    · rw [hregs hsys]
      exact hex.exStage
  · rw [carryOn_exmem, exStage_op] at hsys
    exact hser (by simp [serStall, hsys])
  · rw [carryOn_memwb, memStage_op] at hsys
    refine ⟨?_, hser (by simp [serStall, hsys])⟩
    rw [carryOn_exmem, hsysMem hsys, exStage_bubble]

/-! ## Fetch order (R48(c), R146, R148, R150 to R152) -/

/-- Where a cycle that goes on leaves no target pending, nothing is squashed. -/
theorem carryOn_ifid_of_not_pending {s : State} {w : WbOut} {m : MemOut} {x : ExMemLatch} {d : IdOut}
    (h : (carryOn s w m x d).pending = none) :
    (carryOn s w m x d).ifid = (ifStage s d.stall m.mem.bs).2 := by
  have hnone := mt carryOn_pending_ne_none.mpr (not_not.mpr h)
  rw [carryOn_ifid, if_neg (by simpa using hnone)]

/-- With `BRANCH_STAGE` = ID, what ID resolves is what its slot for EX would resolve (R146). -/
theorem idStage_resolves {s : State} (hb : s.cfg.branchStage = .id) (w : WbOut) (x : ExMemLatch) (m : MemOut) :
    let d := idStage s w x m
    d.taken = taken d.idex.ins.op d.idex.a d.idex.b ∧ (d.taken = true → d.target = d.idex.target) := by
  rcases idStage_cases s w x m with ⟨e, ht⟩ | ⟨hn, hs⟩
  · simp only [e, ht]
    exact ⟨rfl, nofun⟩
  · rw [idStage_issue hn hs]
    simp only [idResolves, hb]
    exact ⟨rfl, fun _ => rfl⟩

/-- With `BRANCH_STAGE` = ID, a cycle that goes on leaves the target of the instruction in ID/EX pending if that is taken, and
none if it is not (R146, R151, R152). -/
theorem pending_resolvedInId {s s' : State} (hstep : step s = .next s') (hrun : s'.status = .running)
    (hb : s'.cfg.branchStage = .id) :
    s'.pending = if taken s'.idex.ins.op s'.idex.a s'.idex.b then some s'.idex.target else none := by
  obtain ⟨_, _, _, rfl⟩ := step_running hstep hrun
  obtain ⟨htaken, htarget⟩ := idStage_resolves (s := s) hb (wbStage s) (exStage s.idex)
    (memStage s.cfg s.exmem (wbStage s).mem)
  simp only [carryOn_pending, carryOn_idex, exTaken_id (cfg := s.cfg) hb, Bool.false_eq_true, if_false, ← htaken]
  split
  · next ht => rw [htarget ht]
  · rfl

/-- An instruction that leaves ID was the one most recently fetched, and no target was pending (R25, R48). -/
theorem GoodState.leftId {s s' : State} (h : GoodState s) (hstep : step s = .next s') (hrun : s'.status = .running)
    (hn : s'.idex.ins.op ≠ .nop) :
    s.pending = none ∧ s.ifid.pc = s.fpc ∧ s'.idex.pc = s.fpc ∧ stallOf s (idIns s.cfg s.ifid) = false := by
  obtain ⟨_, hex, hd, hs⟩ := leftId_of_idex hstep hrun hn
  have hifid : s.ifid ≠ .bubble := fun e => hd (by rw [e, idIns_bubble]; rfl)
  have hpend : s.pending = none := by
    by_contra hp
    exact hifid (h.squash.redirectEmptiesFetch hp)
  have hfpc : s.ifid.pc = s.fpc := (h.path.fetched hpend).resolve_left hifid
  obtain ⟨_, _, _, rfl⟩ := step_running hstep hrun
  refine ⟨hpend, hfpc, ?_, hs⟩
  rw [carryOn_idex, hex, idStage_issue hd hs]
  exact hfpc

theorem step_pathInv {s s' : State} (h : GoodState s) (hstep : step s = .next s') (hrun : s'.status = .running) :
    PathInv s' := by
  have hleft := h.leftId hstep hrun
  have hpending := pending_resolvedInId hstep hrun
  obtain ⟨_, _, _, rfl⟩ := step_running hstep hrun
  refine ⟨fun hp => ?_, fun hp hn => ?_, fun hb t ht => ?_, fun hb hp => ?_, fun hm hn => ?_, fun hw hm => ?_⟩
  · rw [carryOn_ifid_of_not_pending hp, carryOn_fpc]
    rcases ifStage_cases s _ _ with ⟨_, hpend, e⟩ | ⟨_, e⟩ <;> rw [e]
    · exact h.path.fetched hpend
    · exact .inr (fetchLatch_pc _ _ _)
  · obtain ⟨hpend, _, hpc, hs⟩ := hleft hn
    rw [carryOn_ifid_of_not_pending hp, carryOn_fpc, hpc]
    simp [ifStage, fetchAddr_eq, hs, State.nextPc, hpend]
  · rw [hpending hb] at ht
    split_ifs at ht with htaken
    exact ⟨htaken, (Option.some.inj ht).symm⟩
  · rw [hpending hb] at hp
    split_ifs at hp with htaken
    exact (Bool.not_eq_true _).mp htaken
  · rw [carryOn_exmem, exStage_op] at hm
    obtain ⟨hpend, _, hpc, _⟩ := hleft hn
    rw [hpc, carryOn_exmem, exStage_pc hm]
    exact (h.path.behindEx hpend hm).2
  · rw [carryOn_memwb, memStage_op] at hw
    rw [carryOn_exmem, exStage_op] at hm
    rw [carryOn_exmem, exStage_pc hm, carryOn_memwb, memStage_memwb _ _ _ hw]
    exact h.path.exAfterMem hw hm

/-- Settles O55: the operands latch by latch (`step_operandInv`), the fetch order by where ID's instruction came from
(`step_pathInv`), and the other invariants by O51 to O54. -/
theorem stepKeepsGoodState : Obligations.StepKeepsGoodState := by
  intro s s' h hstep hrun
  exact ⟨step_zero h.zero hstep, stepKeepsMemInv s s' h.memory hstep, stepKeepsFetchAligned s s' h.fetch hstep,
    step_squashInv h.operands h.squash hstep, step_operandInv h.operands h.memory hstep hrun, step_pathInv h hstep hrun⟩

end Sys2Proof.Machine

/-! PROOFS. The memory (20_memory.md): the stored instruction word, the start-up checks, the cache and the flush, and where
loads, stores and fetches meet them: O6, O9 to O17, O30 and O45. What an access does to the cache is said of `locate` and
`serve`, the two halves of `throughCache`, and carried to `cacheAccess` by `eq_throughCache_of_ok`. -/

namespace Sys2Proof.Machine

/-! ## A stored instruction word (R101) -/

/-- The bytes of an instruction word give it back (R101). -/
theorem insnOfWords_bytes (w : DWord) :
    insnOfWords
        (wordOfBytes (w.extractLsb' 32 8) (w.extractLsb' 40 8) (w.extractLsb' 48 8) (w.extractLsb' 56 8))
        (wordOfBytes (w.extractLsb' 0 8) (w.extractLsb' 8 8) (w.extractLsb' 16 8) (w.extractLsb' 24 8)) = w := by
  apply BitVec.eq_of_toNat_eq
  have := w.isLt
  simp only [insnOfWords, wordOfBytes, toNat_append_add, BitVec.extractLsb'_toNat, Nat.shiftRight_eq_div_pow]
  omega

/-- Byte `k` of a stored instruction word (R101). -/
theorem memByte_bsWriteInsn (m : Memory) (p : Word) (w : DWord) {k : Nat} (hk : k < 8) :
    memByte (bsWriteInsn m p w) (p.toNat + k) = w.extractLsb' (8 * k) 8 := by
  rw [bsWriteInsn, memByte_memWriteBytes, dif_pos ⟨by omega, by simpa [bytesOfInsn] using hk⟩]
  simp only [Nat.add_sub_cancel_left]
  interval_cases k <;> rfl

/-- The operand word of an instruction stands 4 bytes on, with no wrap at the end of memory (R101). -/
theorem toNat_add_four {p : Word} (h : aligned8 p) : (p + 4#32).toNat = p.toNat + 4 := by
  have := aligned8_room p h
  simp only [BitVec.toNat_add, BitVec.toNat_ofNat]
  omega

/-- Settles O6: the eight bytes by `memByte_bsWriteInsn`, and the word put together from them. -/
theorem storedInsnReadsBack : Obligations.StoredInsnReadsBack := by
  refine fun m p w hp => ⟨?_, fun k hk => memByte_bsWriteInsn m p w hk⟩
  have hbyte := fun k (hk : k < 8) => memByte_bsWriteInsn m p w hk
  have h0 : memByte (bsWriteInsn m p w) p.toNat = w.extractLsb' 0 8 := hbyte 0 (by omega)
  simp only [bsReadInsn, bsReadWord, toNat_add_four hp, Nat.add_assoc, Nat.reduceAdd, h0, hbyte 1, hbyte 2, hbyte 3, hbyte 4,
    hbyte 5, hbyte 6, hbyte 7, Nat.reduceLT, Nat.reduceMul]
  exact insnOfWords_bytes w

/-! ## The start-up checks (R68, R261) -/

/-- Validity is one on every 16-byte block of the address space (R68). -/
def UniformBlocks (cfg : Config) : Prop :=
  ∀ b k : Nat, b % 16 = 0 → b < 2 ^ 32 → k < 16 → validNat cfg (b + k) = validNat cfg b

theorem boundaryOk_of_uniformBlocks {cfg : Config} (h : UniformBlocks cfg) (a : Nat) : boundaryOk cfg a = true := by
  by_cases ha : 2 ^ 32 ≤ a
  · simp only [boundaryOk, ha, decide_true, Bool.true_or]
  · have hblock : blockUniform cfg (a / 16 * 16) = true := by
      simp only [blockUniform, List.all_eq_true, beq_iff_eq]
      intro k hk
      refine h _ k (by omega) (by omega) ?_
      simp only [List.mem_cons, List.not_mem_nil, or_false] at hk
      omega
    rw [boundaryOk, hblock, Bool.or_true]

/-- The check looks only at the blocks in which a range begins or has just ended, and that is enough (R68). -/
theorem memValidUniform_iff (cfg : Config) : memValidUniform cfg = true ↔ UniformBlocks cfg := by
  constructor
  · exact fun h _ _ hb hlt hk => validNat_block h hb hlt hk
  · intro h
    simp only [memValidUniform, boundaryOk_of_uniformBlocks h, Bool.and_self, List.all_eq_true, implies_true]

/-- Settles O9: validity changes only at the ends of a range, so the blocks of those ends decide it. -/
theorem uniformCheckIsExact : Obligations.UniformCheckIsExact := memValidUniform_iff

/-- R261: a configuration is accepted exactly when it passes the checks (a) to (e). -/
theorem configError_none (cfg : Config) :
    configError? cfg = none ↔
      cfg.byteOrder = .little ∧ (cfg.xlen = 32 ∧ cfg.nregs = 32 ∧ cfg.addrBits = 32 ∧ cfg.insnBytes = 8) ∧
        (cfg.lineBytes = 16 ∧ cfg.nsets = 16 ∧ cfg.nways = 4) ∧ UniformBlocks cfg ∧ cfg.entry.toNat % 8 = 0 := by
  rw [← memValidUniform_iff, ← low3_zero, configError?]
  split_ifs with horder hwidths hgeometry huniform hentry
  · exact iff_of_false nofun fun ⟨h, _⟩ => horder h
  · exact iff_of_false nofun fun ⟨_, _, _, h, _⟩ => by simp [huniform] at h
  · exact iff_of_false nofun fun ⟨_, _, _, _, h⟩ => hentry h
  · exact iff_of_true rfl ⟨not_not.mp horder, hwidths, hgeometry, by simpa using huniform, not_not.mp hentry⟩
  · exact iff_of_false nofun fun ⟨_, _, h, _⟩ => hgeometry h
  · exact iff_of_false nofun fun ⟨_, h, _⟩ => hwidths h

/-- Settles O10: the checks by `configError_none`, and every entry of the model asks `configError?` first. -/
theorem failedCheckRunsNoCycle : Obligations.FailedCheckRunsNoCycle := by
  refine ⟨configError_none, fun cfg e he => ⟨fun image => ?_, fun s hs => ?_⟩⟩
  · simp only [construct, he]
  · subst hs
    refine ⟨whenReady_refused he _, fun i => ?_⟩
    obtain ⟨k, hk⟩ := exec_guarded i s
    rw [hk, whenReady_refused he]

/-! ## What a data access answers (R74 to R76) -/

theorem accessFault_misaligned {cfg : Config} {a : Word} (h : a.toNat % 4 ≠ 0) :
    accessFault? cfg a = some .misalignedAccess := by
  rw [accessFault_eq, if_pos h]

theorem accessFault_outOfRange {cfg : Config} {a : Word} (h : a.toNat % 4 = 0) (hv : memValid cfg a = false) :
    accessFault? cfg a = some .outOfRange := by
  rw [accessFault_eq, if_neg (not_not.mpr h), if_pos hv]

/-- An access that passes the check is counted and made through the cache, or past it if the cache is disabled (R75, R76). -/
theorem cacheAccess_ok {cfg : Config} {a : Word} (h : accessFault? cfg a = none) (kind : AccessKind) (v : Word) (m : MemSys) :
    cacheAccess cfg kind a v m =
      let m1 : MemSys := { m with cache := { m.cache with ctr := countAccess m.cache.ctr } }
      let r := if cfg.cacheEnabled then throughCache cfg kind a v m1 else passThrough kind a v m1
      .ok r.1 r.2 := by
  rcases cacheAccess_cases cfg kind a v m with ⟨k, hk, _⟩ | ⟨_, e⟩
  · rw [h] at hk; cases hk
  · exact e

/-- Settles O11: R74's check, clause by clause. -/
theorem accessFaultsExactlyAsChecked : Obligations.AccessFaultsExactlyAsChecked := by
  intro cfg kind a v m
  refine ⟨fun h => ?_, fun h hv => ?_, fun h hv => ?_⟩
  · exact cacheAccess_fault_iff.mpr (accessFault_misaligned h)
  · exact cacheAccess_fault_iff.mpr (accessFault_outOfRange h hv)
  · exact ⟨_, _, cacheAccess_ok ((accessFault_none cfg a).mpr ⟨h, hv⟩) kind v m⟩

/-- Settles O16: with the cache disabled the access is `passThrough` on the counted memory. -/
theorem disabledCachePassesThrough : Obligations.DisabledCachePassesThrough := by
  intro cfg a v m hc ha m1
  refine ⟨?_, 0#32, ?_⟩
  · simp only [cacheRead, cacheAccess_ok ha, hc]
    rfl
  · simp only [cacheWrite, cacheAccess_ok ha, hc]
    rfl

/-- An access that completes leaves the memory `throughCache` leaves after counting it, if the cache is enabled. -/
theorem eq_throughCache_of_ok {cfg : Config} {kind : AccessKind} {a v w : Word} {m m' : MemSys} (hc : cfg.cacheEnabled = true)
    (h : cacheAccess cfg kind a v m = .ok w m') :
    m' = (throughCache cfg kind a v { m with cache := { m.cache with ctr := countAccess m.cache.ctr } }).2 := by
  rw [cacheAccess_ok (accessFault_of_ok h)] at h
  simp only [hc, if_true] at h
  exact (Access.ok.inj h).2.symm

/-- With the cache disabled it leaves the memory `passThrough` leaves. -/
theorem eq_passThrough_of_ok {cfg : Config} {kind : AccessKind} {a v w : Word} {m m' : MemSys} (hc : cfg.cacheEnabled = false)
    (h : cacheAccess cfg kind a v m = .ok w m') :
    m' = (passThrough kind a v { m with cache := { m.cache with ctr := countAccess m.cache.ctr } }).2 := by
  rw [cacheAccess_ok (accessFault_of_ok h)] at h
  simp only [hc, Bool.false_eq_true, if_false] at h
  exact (Access.ok.inj h).2.symm

/-! ## What an access does to the bytes a program observes (R79, R80, R87) -/

/-- Settles O12: a read is served by the line of its address, which shows what a program observes (`locate_spec`). -/
theorem cacheReadReturnsArchMem : Obligations.CacheReadReturnsArchMem := fun _ _ _ _ _ hm h => cacheRead_archMem hm h

/-- Byte `b` of memory `old` after the word `v` is written at `a`, lowest byte first (R61, R62). -/
def byteAfterWrite (a v : Word) (old : Word → Byte) (b : Word) : Byte :=
  if b = a + 3#32 then v.extractLsb' 24 8 else if b = a + 2#32 then v.extractLsb' 16 8
    else if b = a + 1#32 then v.extractLsb' 8 8 else if b = a then v.extractLsb' 0 8 else old b

theorem byteAfterWrite_outside {a b : Word} (h : 4 ≤ (b - a).toNat) (v : Word) (old : Word → Byte) :
    byteAfterWrite a v old b = old b := by
  have hne := outside_word h
  have h0 : b ≠ a := by simpa using hne 0 (by omega)
  rw [byteAfterWrite, if_neg (hne 3 (by omega)), if_neg (hne 2 (by omega)), if_neg (hne 1 (by omega)), if_neg h0]

theorem wordOfBytes_byteAfterWrite (a v : Word) (old : Word → Byte) :
    wordOfBytes (byteAfterWrite a v old a) (byteAfterWrite a v old (a + 1#32)) (byteAfterWrite a v old (a + 2#32))
      (byteAfterWrite a v old (a + 3#32)) = v := by
  simpa [byteAfterWrite] using wordOfBytes_bytes v

/-- A byte of the backing store after a word is written at an aligned address (R61). -/
theorem memByte_bsWriteWord {a : Word} (ha : a.toNat % 4 = 0) (v : Word) (bs : Memory) (b : Word) :
    memByte (bsWriteWord bs a v) b.toNat = byteAfterWrite a v (fun c => memByte bs c.toNat) b := by
  obtain ⟨_, _, _, e1⟩ := word_in_block a 1 (by omega) ha
  obtain ⟨_, _, _, e2⟩ := word_in_block a 2 (by omega) ha
  obtain ⟨_, _, _, e3⟩ := word_in_block a 3 (by omega) ha
  simp only [bsWriteWord, bytesOfWord, memWriteBytes, memByte_memSet, byteAfterWrite, ← BitVec.toNat_inj, e1, e2, e3]

/-- A write past an empty cache does to the bytes a program observes what it does to the backing store (R76). -/
theorem passThrough_write {a : Word} {m : MemSys} (hempty : ∀ i, getSet m.cache.sets i = []) (ha : a.toNat % 4 = 0)
    (v b : Word) : archByte (passThrough .write a v m).2 b = byteAfterWrite a v (archByte m) b := by
  rw [archByte_empty (m := (passThrough .write a v m).2) hempty]
  simp only [byteAfterWrite, archByte_empty hempty]
  exact memByte_bsWriteWord ha v m.bs b

/-- A write leaves its word at the four addresses and every other byte a program observes as it was (R80, R87). -/
theorem cacheWrite_archByte {cfg : Config} {a v w : Word} {m m' : MemSys} (hm : MemInv cfg m)
    (h : cacheWrite cfg a v m = .ok w m') (b : Word) : archByte m' b = byteAfterWrite a v (archByte m) b := by
  have ha := ((accessFault_none cfg a).mp (accessFault_of_ok h)).1
  cases hc : cfg.cacheEnabled with
  | true =>
    rw [eq_throughCache_of_ok hc h]
    exact throughCache_write cfg a v _ (hm.lines.counters (countAccess m.cache.ctr)) ha b
  | false =>
    rw [eq_passThrough_of_ok hc h]
    exact passThrough_write (m := { m with cache := { m.cache with ctr := countAccess m.cache.ctr } }) (hm.disabledEmpty hc)
      ha v b

/-- Settles O13: both parts read off `cacheWrite_archByte`. -/
theorem cacheWriteChangesArchMem : Obligations.CacheWriteChangesArchMem := by
  intro cfg a v w m m' hm h
  have hbyte := cacheWrite_archByte hm h
  constructor
  · simp only [archWord, hbyte]
    exact wordOfBytes_byteAfterWrite a v _
  · intro b hb
    rw [hbyte, byteAfterWrite_outside hb]

/-! ## What an access counts (R75, R78, R81, R82, R84) -/

/-- Settles O14: `throughCache_ctr` on the counted memory, a miss by `makeRoom_ctr`. -/
theorem accessCountsOnce : Obligations.AccessCountsOnce := by
  intro cfg kind a v w m m' hc h c c' ls
  obtain ⟨haccesses, hhit, hmiss⟩ :=
    throughCache_ctr cfg kind a v { m with cache := { m.cache with ctr := countAccess m.cache.ctr } }
  rw [← eq_throughCache_of_ok hc h] at haccesses hhit hmiss
  refine ⟨haccesses, fun hf => ?_, fun hf => ?_⟩
  · have hctr : c' = countHit cfg (countAccess c) := hhit hf
    rw [hctr]
    exact ⟨rfl, rfl, rfl, rfl, rfl⟩
  · have hctr := hmiss hf
    rw [makeRoom_ctr] at hctr
    simp only [c', hctr]
    exact ⟨rfl, rfl, rfl, rfl, rfl⟩

/-! ## What an access does to the lines (R77, R78, R80 to R83) -/

/-- The line that serves an access, with the others of its set, in recency order: the accessed tag comes first and only a
miss in a full set drops a tag, the last (R78, R82, R83). -/
theorem locate_tags (cfg : Config) (a : Word) (m : MemSys) :
    let p := locate cfg a m
    let ts := (getSet m.cache.sets (indexOf a)).map (·.tag)
    p.line.tag :: p.others.map (·.tag) =
      if tagOf a ∈ ts then tagOf a :: ts.erase (tagOf a)
      else if ts.length = 4 then tagOf a :: ts.dropLast else tagOf a :: ts := by
  intro p ts
  cases hf : findLine (getSet m.cache.sets (indexOf a)) (tagOf a) with
  | some l =>
    obtain ⟨hmem, htag⟩ := findLine_some hf
    rw [if_pos (htag ▸ List.mem_map_of_mem hmem)]
    simp only [p, locate_hit cfg a m hf, withoutLine_tags, htag, ts]
  | none =>
    rw [if_neg (findLine_eq_none.mp hf)]
    simp only [p, locate_miss cfg a m hf, makeRoom_lines, ts, List.length_map]
    split
    · rw [List.map_dropLast]
    · rfl

/-- What serving an access does to its line (R79, R80). -/
theorem serve_line (kind : AccessKind) (a v : Word) (l : Line) :
    (serve kind a v l).2.tag = l.tag ∧ (kind = .read → (serve kind a v l).2 = l) ∧
      (kind = .write →
        (serve kind a v l).2.dirty = true ∧ (serve kind a v l).2.data = setLineWord l.data (offsetOf a) v) := by
  cases kind
  · exact ⟨rfl, fun _ => rfl, nofun⟩
  · exact ⟨rfl, nofun, fun _ => ⟨rfl, rfl⟩⟩

/-- The accessed set after an access: its line as served, then the others. -/
theorem throughCache_accessedSet (cfg : Config) (kind : AccessKind) (a v : Word) (m : MemSys) :
    getSet (throughCache cfg kind a v m).2.cache.sets (indexOf a) =
      (serve kind a v (locate cfg a m).line).2 :: (locate cfg a m).others := getSet_putSet_same _ _ _

/-- Settles O15: `locate` has the order, the line and the backing store of each case, and `serve` what becomes of the line. -/
theorem accessKeepsRecencyOrder : Obligations.AccessKeepsRecencyOrder := by
  intro cfg kind a v w m m' hc h ls ts
  obtain rfl := eq_throughCache_of_ok hc h
  rw [throughCache_accessedSet]
  set m1 : MemSys := { m with cache := { m.cache with ctr := countAccess m.cache.ctr } }
  obtain ⟨htag, hread, hwrite⟩ := serve_line kind a v (locate cfg a m1).line
  have hbs : (throughCache cfg kind a v m1).2.bs = (locate cfg a m1).bs := rfl
  have hhit := fun x => locate_hit cfg a m1 (l := x)
  have hmiss := locate_miss cfg a m1
  obtain ⟨hdrop, hkeep⟩ := makeRoom_bs (indexOf a) ls (countMiss cfg m1.cache.ctr) m.bs
  refine ⟨?_, fun i hi => getSet_putSet_other _ _ _ _ hi, ⟨(locate cfg a m1).line, _, _, rfl, fun x hx => ?_, fun hx => ?_,
    htag, hread, hwrite⟩, fun x hx hfull hlast hdirty => ?_, fun hcase => ?_⟩
  · rw [List.map_cons, htag]
    exact locate_tags cfg a m1
  · rw [hhit x hx]
    exact ⟨rfl, rfl⟩
  · rw [hbs, hmiss hx]
    exact ⟨rfl, makeRoom_lines _ _ _ _⟩
  · rw [hbs, hmiss hx]
    exact hdrop x hfull hlast hdirty
  · rw [hbs]
    cases hx : findLine ls (tagOf a) with
    | some x => rw [hhit x hx]
    | none =>
      rw [hmiss hx]
      exact hkeep (hcase.resolve_left (not_not.mpr hx))

/-! ## The flush (R85, R289) -/

/-- Cleaning the lines of a set changes no tag and no byte of them. -/
theorem findLine_clean (ls : List Line) (t : BitVec 24) :
    findLine (ls.map fun l => { l with dirty := false }) t = (findLine ls t).map fun l => { l with dirty := false } := by
  induction ls with
  | nil => rfl
  | cons l ls ih =>
    rw [List.map_cons, findLine_cons, findLine_cons, ih]
    split <;> rfl

theorem getSet_cacheFlush (m : MemSys) (i : BitVec 4) :
    getSet (cacheFlush m).cache.sets i = (getSet m.cache.sets i).map fun l => { l with dirty := false } := getSet_map _ _ _

/-- A flush changes no byte a program observes (R85, R89). -/
theorem cacheFlush_archByte {cfg : Config} {m : MemSys} (h : MemInv cfg m) (a : Word) :
    archByte (cacheFlush m) a = archByte m a := by
  rw [archByte_eq, setByte, getSet_cacheFlush, findLine_clean]
  cases hf : findLine (getSet m.cache.sets (indexOf a)) (tagOf a) with
  | some l => rw [archByte_eq, setByte, hf]; rfl
  | none => exact flush_byte cfg m h a

/-- The driver flushes once the run has ended (R289). -/
theorem endOfRun_ended {s : State} (h : s.status ≠ .running) : endOfRun s = { s with mem := cacheFlush s.mem } := by
  unfold endOfRun
  split
  · next hrun => exact absurd hrun h
  · rfl

theorem endOfRun_running {s : State} (h : s.status = .running) : endOfRun s = s := by
  simp only [endOfRun, h]

/-- Settles O17: a flush writes each dirty line to its own block (`flush_byte`) and only cleans the lines. -/
theorem flushWritesBackEverything : Obligations.FlushWritesBackEverything := by
  intro cfg m h m'
  refine ⟨fun a => ⟨cacheFlush_archByte h a, flush_byte cfg m h a⟩, fun i => ?_, fun i l hl => ?_, ?_, fun s hs => ?_⟩
  · rw [getSet_cacheFlush, List.map_map]
    rfl
  · rw [getSet_cacheFlush] at hl
    obtain ⟨x, _, rfl⟩ := List.mem_map.mp hl
    rfl
  · simp only [m', cacheFlush, dirtyCount_eq]
  · subst hs
    exact ⟨endOfRun_ended, endOfRun_running⟩

/-! ## Loads and stores that fault (R220, R221, R253, R254) -/

/-- LW and SW at an address that fails R74's check take its fault and change nothing else. -/
theorem exec_loadStore_fault {s : State} {rt rs : RegIdx} {imm : BitVec 16} {k : FaultKind} (hs : s.Ready)
    (hk : accessFault? s.cfg (s.reg rs + sext16 imm) = some k) :
    (∃ t, exec (.lw rt rs imm) s = .next t ∧ TakesFault s t k s.nextPc ((s.reg rs + sext16 imm).setWidth 64)) ∧
      ∃ t, exec (.sw rt rs imm) s = .next t ∧ TakesFault s t k s.nextPc ((s.reg rs + sext16 imm).setWidth 64) := by
  constructor
  · rw [exec_lw hs, cacheRead, cacheAccess_fault_iff.mpr hk]
    exact ⟨_, rfl, rfl⟩
  · rw [exec_sw hs, cacheWrite, cacheAccess_fault_iff.mpr hk]
    exact ⟨_, rfl, rfl⟩

/-- Settles O30: `exec_loadStore_fault` for each of the two faults of R74. -/
theorem loadStoreTakeDataFaults : Obligations.LoadStoreTakeDataFaults := by
  rintro s rt rs imm ea hs rfl
  exact ⟨fun h => exec_loadStore_fault hs (accessFault_misaligned h),
    fun h hv => exec_loadStore_fault hs (accessFault_outOfRange h hv)⟩

/-! ## The fetch of a cycle (R146, R148, R149, R152) -/

/-- ID resolves nothing if branches are resolved in EX, or if the operands that leave ID for ID/EX are not taken (R146). -/
theorem step_nothing_taken_in_id {s s' : State} (hstep : step s = .next s') (hrun : s'.status = .running)
    (hex : exTaken s.cfg s.idex = false)
    (hid : s.cfg.branchStage = .id → stallOf s (idIns s.cfg s.ifid) = false →
      taken (idIns s.cfg s.ifid).op s'.idex.a s'.idex.b = false) :
    (idStage s (wbStage s) (exStage s.idex) (memStage s.cfg s.exmem (wbStage s).mem)).taken = false := by
  obtain ⟨_, _, _, rfl⟩ := step_running hstep hrun
  rw [carryOn_idex, hex] at hid
  cases hb : s.cfg.branchStage with
  | ex => exact idStage_not_taken hb _ _ _
  | id =>
    rcases idStage_cases s (wbStage s) (exStage s.idex) (memStage s.cfg s.exmem (wbStage s).mem) with ⟨_, ht⟩ | ⟨hn, hs⟩
    · exact ht
    · have hnot := hid hb hs
      rw [idStage_issue hn hs] at hnot ⊢
      simp only [idResolves, hb]
      exact hnot

/-- A cycle that goes on and takes nothing fetches at the next address, unless a stall holds the fetch (R148, R149, R152). -/
theorem step_fetches {s s' : State} (hstep : step s = .next s') (hrun : s'.status = .running)
    (hex : exTaken s.cfg s.idex = false)
    (hid : (idStage s (wbStage s) (exStage s.idex) (memStage s.cfg s.exmem (wbStage s).mem)).taken = false)
    (hfetch : stallOf s (idIns s.cfg s.ifid) = false ∨ s.pending ≠ none) :
    s'.fpc = s.nextPc ∧ s'.pending = none ∧ s'.ifid = fetchLatch s.cfg s'.mem.bs s.nextPc := by
  obtain ⟨_, _, _, rfl⟩ := step_running hstep hrun
  rw [carryOn_fpc, carryOn_pending, carryOn_ifid, carryOn_mem, hex, hid, idStage_stallSignal]
  rcases ifStage_cases s (stallOf s (idIns s.cfg s.ifid)) (memStage s.cfg s.exmem (wbStage s).mem).mem.bs with
    ⟨hs, hp, _⟩ | ⟨_, e⟩
  · simp [hs, hp] at hfetch
  · rw [e]
    exact ⟨rfl, rfl, rfl⟩

/-- Settles O45: the cycle fetches (`step_fetches`), and `fetchLatch_eq` says what a fetch answers. -/
theorem fetchReadsBackingStore : Obligations.FetchReadsBackingStore := by
  intro s s' _ hstep hrun hex d hid hfetch
  obtain ⟨hfpc, hpending, hifid⟩ := step_fetches hstep hrun hex (step_nothing_taken_in_id hstep hrun hex hid) hfetch
  refine ⟨hfpc, hpending, by rw [hifid, fetchLatch_pc], fun h => ?_, fun h hv => ?_, fun h hv => ?_⟩
  · rw [hifid, fetchLatch_eq, if_pos h]
    exact ⟨rfl, rfl⟩
  · rw [hifid, fetchLatch_eq, if_neg (not_not.mpr h), if_pos hv]
    exact ⟨rfl, rfl⟩
  · rw [hifid, fetchLatch_eq, if_neg (not_not.mpr h), if_neg (by simp [hv])]
    exact ⟨rfl, rfl⟩

end Sys2Proof.Machine

/-! PROOFS. The encoding (30_encoding.md) and what fetches, issues and places an instruction word: O1 to O5, O7, O26, O31, O32,
O46 and O60. The decoder's tests are cited by `classify_eq` and `classify_ok`; a displacement is read as an integer once, in
`signExtend_shiftLeft_three`; a faulting instruction from an empty pipeline is `run_four_fault`. -/

namespace Sys2Proof.Machine

/-! ## The encoder after the decoder and before it (R102, R104, R105, R107) -/

/-- `Laws.OpcodeByte.Statement` of every instruction: the opcode byte and the bits that are 0 (R102). -/
theorem opcodeByte_encode (i : Instr) : Laws.OpcodeByte.Statement i := by
  cases i with
  | nop => exact Laws.OpcodeByte.nop
  | add rd rs rt => exact Laws.OpcodeByte.add rd rs rt
  | sub rd rs rt => exact Laws.OpcodeByte.sub rd rs rt
  | and rd rs rt => exact Laws.OpcodeByte.and rd rs rt
  | sll rd rs rt => exact Laws.OpcodeByte.sll rd rs rt
  | slt rd rs rt => exact Laws.OpcodeByte.slt rd rs rt
  | mul rd rs rt => exact Laws.OpcodeByte.mul rd rs rt
  | addi rt rs imm => exact Laws.OpcodeByte.addi rt rs imm
  | lw rt rs imm => exact Laws.OpcodeByte.lw rt rs imm
  | sw rt rs imm => exact Laws.OpcodeByte.sw rt rs imm
  | beq rs rt imm => exact Laws.OpcodeByte.beq rs rt imm
  | bne rs rt imm => exact Laws.OpcodeByte.bne rs rt imm
  | j t26 => exact Laws.OpcodeByte.j t26
  | syscall => exact Laws.OpcodeByte.syscall

/-- Well-formedness is the one condition R104 puts on an instruction: MUL needs `HAS_MUL`. -/
theorem wellFormed_iff {hasMul : Bool} {i : Instr} : i.wellFormed hasMul = true ↔ (i.op = .mul → hasMul = true) := by
  cases i <;> simp [Instr.wellFormed, Instr.op]

/-- No instruction has a marker for its mnemonic. -/
theorem op_not_marker (i : Instr) : i.op ≠ .illegal ∧ i.op ≠ .fetchFault := by
  cases i <;> simp [Instr.op]

/-- The encoding of a well-formed instruction passes the tests of R105 as its mnemonic. -/
theorem classify_encode {hasMul : Bool} {i : Instr} (h : i.wellFormed hasMul = true) :
    classify hasMul (encode i) = .ok i.op := by
  obtain ⟨hcode, hreserved, hbits⟩ := opcodeByte_encode i
  obtain ⟨hillegal, hfetchFault⟩ := op_not_marker i
  exact classify_eq hreserved hcode hillegal hfetchFault (wellFormed_iff.mp h) hbits

/-- The fields of an instruction's word make the instruction (R102). -/
theorem insOfWord_encode (i : Instr) : (insOfWord i.op (encode i)).toInstr? = some i := by
  cases i <;> simp [Ins.toInstr?, insOfWord, Instr.op, encode]

/-- Settles O1: the word passes the decoder's tests as its own mnemonic, and each field is read where it was put. -/
theorem decodeOfEncodedInstr : Obligations.DecodeOfEncodedInstr := by
  intro hasMul i h
  rw [decode, decodeIns_ok (classify_encode h), insOfWord_encode]

/-- What decodes is an instruction of the configuration (R104, R106). -/
theorem wellFormed_of_decode {hasMul : Bool} {w : DWord} {i : Instr} (h : decode hasMul w = some i) :
    i.wellFormed hasMul = true := by
  have hdec : Decoded hasMul (decodeIns hasMul w) := .inl (by rw [decodeIns_raw])
  exact wellFormed_iff.mpr fun hmul => hdec.hasMul ((op_of_toInstr? h).symm.trans hmul)

/-- Settles O2: a word that passes its format's tests is put together again from its fields (`encode_of_decode`). -/
theorem encodeOfDecodedWord : Obligations.EncodeOfDecodedWord :=
  fun _ _ _ h => ⟨encode_of_decode h, wellFormed_of_decode h⟩

/-! ## The illegal words (R106) -/

/-- The 14 bytes of R104. -/
theorem opOfCode_eq_none (c : Byte) :
    opOfCode c = none ↔ c ∉ [0x00#8, 0x01#8, 0x02#8, 0x03#8, 0x04#8, 0x05#8, 0x06#8, 0x10#8, 0x20#8, 0x21#8, 0x30#8, 0x31#8,
      0x32#8, 0x40#8] := by
  revert c
  decide

theorem decodeIns_op_illegal_iff {hasMul : Bool} {w : DWord} :
    (decodeIns hasMul w).op = .illegal ↔ ∀ op, classify hasMul w ≠ .ok op := by
  cases hc : classify hasMul w with
  | error e => simp [decodeIns_error hc, illegalIns]
  | ok op =>
    obtain ⟨_, _, hillegal, _⟩ := classify_ok hc
    simpa [decodeIns_ok hc, insOfWord] using hillegal

/-- A word whose opcode byte is not in R104 is illegal. -/
theorem illegal_of_unlisted (hasMul : Bool) {w : DWord} (h : opOfCode (opcodeField w) = none) :
    (decodeIns hasMul w).op = .illegal := by
  refine decodeIns_op_illegal_iff.mpr fun op hc => ?_
  obtain ⟨_, hcode, hillegal, hfetchFault, _⟩ := classify_ok hc
  rw [hcode, opOfCode_codeOfOp op hillegal hfetchFault] at h
  cases h

/-- A word with the opcode byte of `op` is illegal if it fails one of the other tests of R105, and only then. -/
theorem illegal_iff_of_listed (hasMul : Bool) {w : DWord} {op : Op} (h : opOfCode (opcodeField w) = some op) :
    (decodeIns hasMul w).op = .illegal ↔
      (opcodeWord w).extractLsb' 8 24 ≠ 0#24 ∨ operandBitsOk (formatOf op) (operandWord w) = false ∨
        (op = .mul ∧ hasMul = false) := by
  obtain ⟨hcode, hillegal, hfetchFault⟩ := codeOfOp_opOfCode h
  have hok : classify hasMul w = .ok op ↔
      (opcodeWord w).extractLsb' 8 24 = 0#24 ∧ operandBitsOk (formatOf op) (operandWord w) = true ∧
        (op = .mul → hasMul = true) := by
    refine ⟨fun hc => ?_, fun ⟨hr, hb, hm⟩ => classify_eq hr hcode.symm hillegal hfetchFault hm hb⟩
    obtain ⟨hr, _, _, _, hm, hb⟩ := classify_ok hc
    exact ⟨hr, hb, hm⟩
  have honly : (∀ o, classify hasMul w ≠ .ok o) ↔ classify hasMul w ≠ .ok op := by
    refine ⟨fun hall => hall op, fun hne o hc => hne ?_⟩
    obtain ⟨_, ho, hi, hf, _⟩ := classify_ok hc
    rw [ho, opOfCode_codeOfOp o hi hf] at h
    cases h
    exact hc
  rw [decodeIns_op_illegal_iff, honly, ne_eq, hok]
  simp only [not_and_or, Classical.not_imp, Bool.not_eq_true, ne_eq]

/-- Bits of the opcode word, in the whole word (R101). -/
theorem extractLsb'_opcodeWord (w : DWord) {k n : Nat} (h : k + n ≤ 32) :
    (opcodeWord w).extractLsb' k n = w.extractLsb' k n := by
  ext i hi
  have : k + i < 32 := by omega
  simp [opcodeWord, this]

/-- Bits of the operand word, in the whole word (R101). -/
theorem extractLsb'_operandWord (w : DWord) {k n : Nat} (h : k + n ≤ 32) :
    (operandWord w).extractLsb' k n = w.extractLsb' (32 + k) n := by
  ext i hi
  have : k + i < 32 := by omega
  simp [operandWord, this, Nat.add_assoc]

/-- Settles O3: an unlisted byte fails every test; for a listed one the tests of R105 are those R102 gives its format. -/
theorem illegalWordsAreExactlyTheListed : Obligations.IllegalWordsAreExactlyTheListed := by
  intro hasMul w
  have htop := extractLsb'_operandWord w (k := 26) (n := 6) (by decide)
  have hlow := extractLsb'_operandWord w (k := 0) (n := 11) (by decide)
  have hword : operandWord w = w.extractLsb' 32 32 := rfl
  cases h : opOfCode (opcodeField w) with
  | none => exact iff_of_true (illegal_of_unlisted hasMul h) (.inl ((opOfCode_eq_none _).mp h))
  | some op =>
    obtain ⟨hcode, hillegal, hfetchFault⟩ := codeOfOp_opOfCode h
    have hbyte : w.extractLsb' 0 8 = codeOfOp op := hcode.symm
    rw [illegal_iff_of_listed hasMul h, extractLsb'_opcodeWord w (by decide), hbyte]
    cases op with
    | illegal => exact absurd rfl hillegal
    | fetchFault => exact absurd rfl hfetchFault
    | nop | syscall => simp [codeOfOp, operandBitsOk, formatOf, hword]
    | add | sub | and | sll | slt | mul => simp [codeOfOp, operandBitsOk, formatOf, htop, hlow, imp_iff_not_or]
    | addi | lw | sw | beq | bne | j => simp [codeOfOp, operandBitsOk, formatOf, htop]

/-- Settles O4: a word that is a NOP is the encoding of NOP, and that has no bit set. -/
theorem nopIsOnlyTheZeroWord : Obligations.NopIsOnlyTheZeroWord := by
  refine fun hasMul w => ⟨fun h => ?_, fun h => ?_⟩
  · have hdecode : decode hasMul w = some .nop := by simp only [decode, Ins.toInstr?, h]
    exact (encode_of_decode hdecode).symm.trans (by decide)
  · have hclass : classify hasMul (encode .nop) = .ok .nop := classify_encode rfl
    rw [h, show (0#64 : DWord) = encode .nop by decide, decodeIns_ok hclass]
    rfl

/-- Settles O5: each word is the encoding of the instruction the spec names, so O1 decodes it. -/
theorem specWordsDecodeAsWritten : Obligations.SpecWordsDecodeAsWritten := by
  have hdecode (w : DWord) (i : Instr) (hi : i.wellFormed true = true) (hw : encode i = w) : decode true w = some i :=
    hw ▸ decodeOfEncodedInstr true i hi
  exact ⟨hdecode _ _ rfl (by decide), hdecode _ _ rfl (by decide), hdecode _ _ rfl (by decide), hdecode _ _ rfl (by decide),
    hdecode _ _ rfl (by decide), hdecode _ _ rfl (by decide), by decide⟩

/-- Settles O26: the word has MUL's opcode byte, which R105 rejects without `HAS_MUL`. -/
theorem mulAbsentIsIllegal : Obligations.MulAbsentIsIllegal := by
  intro s rd rs rt hready hmul
  refine ⟨?_, _, exec_mul_absent hready hmul rd rs rt, rfl⟩
  have hcode : opOfCode (opcodeField (encode (.mul rd rs rt))) = some .mul := by
    rw [encode, opcodeField_encodeR]
    rfl
  have hop := (illegal_iff_of_listed s.cfg.hasMul hcode).mpr (.inr (.inr ⟨rfl, hmul⟩))
  simp only [decode, Ins.toInstr?, hop]

/-! ## Displacements (R103, R112) -/

/-- A displacement in instructions is 8 times as much in bytes (R103). -/
theorem signExtend_shiftLeft_three {n : Nat} (x : BitVec n) :
    x.signExtend 32 <<< 3 = BitVec.ofInt 32 (8 * x.toInt) := by
  rw [BitVec.shiftLeft_eq_mul_twoPow, BitVec.signExtend, BitVec.mul_comm, BitVec.ofInt_mul]
  rfl

theorem branchTarget_eq (pc : Word) (imm : BitVec 16) :
    branchTarget pc imm = pc + 8#32 + BitVec.ofInt 32 (8 * imm.toInt) := by
  rw [branchTarget, sext16, signExtend_shiftLeft_three]

theorem jumpTarget_eq (pc : Word) (t26 : BitVec 26) :
    jumpTarget pc t26 = pc + 8#32 + BitVec.ofInt 32 (8 * t26.toInt) := by
  rw [jumpTarget, sext26, signExtend_shiftLeft_three]

/-- A field the assembler makes for a label holds an eighth of the distance to it, and nothing is lost in the field's
width (R112). -/
theorem labelField_target {n : Nat} (hn : 0 < n) {p label : Word} {x : BitVec n} (h : labelField? n p label = some x) :
    p + 8#32 + BitVec.ofInt 32 (8 * x.toInt) = label := by
  simp only [labelField?, Option.ite_none_right_eq_some, Option.some.injEq] at h
  obtain ⟨⟨hdiv, hlo, hhi⟩, rfl⟩ := h
  rw [BitVec.toInt_ofInt_eq_self hn hlo hhi, Int.mul_ediv_cancel' (Int.dvd_of_emod_eq_zero hdiv), BitVec.ofInt_toInt]
  exact add_sub_cancel _ _

/-- Settles O7: `labelField_target` at the two widths of R103. -/
theorem assembledLabelIsTheTarget : Obligations.AssembledLabelIsTheTarget := by
  refine fun p label => ⟨fun imm h => ?_, fun t26 h => ?_⟩
  · rw [branchTarget_eq, labelField_target (by decide) h]
  · rw [jumpTarget_eq, labelField_target (by decide) h]

/-! ## Control transfers executed alone (R136, R153, R230 to R233) -/

/-- An instruction other than NOP counts one when it retires, and ends the run if that reaches the limit; `u` is the state
it has left its result in. -/
theorem retire_countsOne {s u : State} {op : Op} {t : Option Word} (hop : op ≠ .nop) (hcfg : u.cfg = s.cfg)
    (hrun : u.status = .running) (hcount : u.icount = s.icount) : CountsOne s (retire op t false u) := by
  have hnext : nextCount op u.icount = s.icount + 1 := by rw [nextCount, if_neg hop, hcount]
  refine ⟨hnext, fun hbelow => ?_, fun k hk hle => ?_⟩
  · rw [retire_status, hnext, hcfg, haltReason_none.mpr ⟨rfl, hbelow⟩, hrun]
    rfl
  · rw [retire_status, hnext, hcfg, haltReason_some (.inr ⟨k, hk, hle⟩)]
    rfl

theorem retire_goesTo (op : Op) (target : Word) (q : Bool) (s : State) : GoesTo s (retire op (some target) q s) target :=
  ⟨rfl, rfl, rfl⟩

theorem retire_goesOn (op : Op) (q : Bool) (s : State) : GoesOn s (retire op none q s) := ⟨rfl, rfl, rfl⟩

/-- A control transfer changes no register, no memory and no latch, and counts one, wherever it goes. -/
theorem retire_transfer {s : State} (h : s.Ready) {op : Op} (hop : op ≠ .nop) (target : Option Word) :
    let t := retire op target false s
    SameRegs s t ∧ SameMemory s t ∧ CountsOne s t ∧ SamePipeline s t :=
  ⟨⟨rfl, fun _ => rfl⟩, ⟨rfl, fun _ => rfl⟩, retire_countsOne hop rfl h.2 rfl, rfl, rfl, rfl, rfl, rfl, rfl, rfl, rfl⟩

/-- Settles O31: the frame is `retire_transfer`'s, and the condition says which of the two successors is left. -/
theorem beqAndBneBranch : Obligations.BeqAndBneBranch := by
  intro s rs rt imm hready target
  have htarget : branchTarget s.nextPc imm = target := branchTarget_eq _ _
  constructor
  · obtain ⟨hregs, hmem, hcount, hpipe⟩ := retire_transfer hready (op := .beq) (by decide)
      (if s.reg rs = s.reg rt then some target else none)
    refine ⟨_, htarget ▸ exec_beq hready rs rt imm, hregs, hmem, hcount, hpipe, fun he => ?_, fun hne => ?_⟩
    · rw [if_pos he]; exact retire_goesTo _ _ _ _
    · rw [if_neg hne]; exact retire_goesOn _ _ _
  · obtain ⟨hregs, hmem, hcount, hpipe⟩ := retire_transfer hready (op := .bne) (by decide)
      (if s.reg rs ≠ s.reg rt then some target else none)
    refine ⟨_, htarget ▸ exec_bne hready rs rt imm, hregs, hmem, hcount, hpipe, fun hne => ?_, fun he => ?_⟩
    · rw [if_pos hne]; exact retire_goesTo _ _ _ _
    · rw [if_neg (not_not.mpr he)]; exact retire_goesOn _ _ _

/-- Settles O32: J is a transfer that is always taken. -/
theorem jumpGoesToTarget : Obligations.JumpGoesToTarget := by
  intro s t26 hready
  obtain ⟨hregs, hmem, hcount, hpipe⟩ := retire_transfer hready (op := .j) (by decide) (some (jumpTarget s.nextPc t26))
  refine ⟨_, exec_j hready t26, hregs, hmem, hcount, hpipe, ?_⟩
  rw [← jumpTarget_eq]
  exact retire_goesTo _ _ _ _

/-! ## Issue (R144, R145) -/

/-- Settles O46: an instruction that is neither a NOP, nor stalled, nor squashed leaves ID as `issueLatch` says. -/
theorem stepIssuesDecodedInstr : Obligations.StepIssuesDecodedInstr := by
  intro s s' i _ hstep hrun hfetched hdecode hne hstall hex
  obtain ⟨hi, hmarker⟩ := idIns_of_decode hfetched hdecode
  have hd : idIns s.cfg s.ifid = decodeIns s.cfg.hasMul (encode i) := by
    simp only [idIns, hfetched, encode_of_decode hdecode]
  have hn : (idIns s.cfg s.ifid).op ≠ .nop := fun e => hne (op_eq_nop_iff.mp ((op_of_toInstr? hi).trans e))
  obtain ⟨_, _, _, rfl⟩ := step_running hstep hrun
  rw [carryOn_idex, hex, idStage_issue hn hstall]
  exact ⟨hd, hi, rfl, rfl, rfl, hmarker⟩

/-! ## A fault in the fourth cycle (R252, R253, R283) -/

/-- An instruction that faults when executed alone faults in MEM with the same record, and changes nothing but the status
(R253, R254). -/
theorem loneMem_fault_of_exec {s t : State} {d : Ins} {i : Instr} {k : FaultKind} {p : Word} {n : DWord} (hready : s.Ready)
    (hd : Decoded s.cfg.hasMul d) (hi : d.toInstr? = some i) (h : exec i s = .next t) (ht : t.status = .faulted k p n) :
    (loneMem d s).fault = some ⟨k, p, n⟩ ∧ t = takeFault k p n s := by
  have hretired (op : Op) (target : Option Word) (q : Bool) (u : State) (hu : u.status = .running) :
      (retire op target q u).status ≠ .faulted k p n := by
    rw [retire_status, hu]
    cases haltReason? u.cfg q (nextCount op u.icount) <;> exact nofun
  by_cases hsys : d.op = .syscall
  · obtain rfl := op_eq_syscall_iff.mp ((op_of_toInstr? hi).trans hsys)
    rw [exec_syscall hready] at h
    cases h
    exact absurd ht (hretired _ _ _ _ hready.2)
  · rw [exec_eq_loneEffect hready hd hi hsys] at h
    cases h
    cases hf : (loneMem d s).fault with
    | none =>
      rw [loneEffect_ok hf] at ht
      exact absurd ht (hretired _ _ _ _ hready.2)
    | some r =>
      rw [loneEffect_fault hf] at ht ⊢
      cases ht
      exact ⟨rfl, rfl⟩

/-- Below the limit, with nothing in WB, a cycle whose MEM stage faults takes that fault and changes no register, no memory
and no count. -/
theorem step_mem_fault {s : State} {r : FaultRecord} (hready : s.Ready) (hlimit : s.BelowLimit) (hwb : s.memwb = .bubble)
    (hf : (memStage s.cfg s.exmem s.mem).fault = some r) :
    ∃ s', step s = .next s' ∧ s'.status = .faulted r.kind r.pc r.info ∧ s'.regs = s.regs ∧ s'.mem = s.mem ∧
      s'.icount = s.icount := by
  refine ⟨_, step_ready hready, ?_⟩
  rcases cycleNext_cases s with ⟨q, hq, _⟩ | ⟨_, ⟨q, hq, e⟩ | ⟨hq, _⟩⟩
  · rw [wbStage_bubble hwb, haltReason_none.mpr ⟨rfl, hlimit⟩] at hq
    cases hq
  · rw [wbStage_bubble hwb, hf] at hq
    cases hq
    rw [e, wbStage_bubble hwb]
    exact ⟨rfl, rfl, rfl, rfl⟩
  · rw [wbStage_bubble hwb, hf] at hq
    cases hq

/-- From a drained state, a fetched slot whose MEM stage faults takes its fault in the fourth cycle. -/
theorem run_four_fault {s : State} {r : FaultRecord} (hready : s.Ready) (hdrained : s.Drained) (hlimit : s.BelowLimit)
    (hf : let f := fetchLatch s.cfg s.mem.bs s.nextPc
      (memStage s.cfg (loneSlot (idMarker s.cfg f) (idIns s.cfg f) s) s.mem).fault = some r) :
    ∃ s4, Host.Core.run Sys2Proof.core 4 s = .next s4 ∧ s4.status = .faulted r.kind r.pc r.info ∧ s4.regs = s.regs ∧
      s4.mem = s.mem ∧ s4.icount = s.icount := by
  obtain ⟨_, _, s3, hrun3, h3, hwb3, hmem3, _⟩ := run_three hready hdrained hlimit
  obtain ⟨s4, hstep4, hstatus, hregs, hmem, hcount⟩ := step_mem_fault (r := r) (h3.ready hready) (h3.belowLimit hlimit) hwb3
    (by rw [hmem3, h3.cfg, h3.mem]; exact hf)
  exact ⟨s4, run_succ hrun3 hstep4, hstatus, hregs.trans h3.regs, hmem.trans h3.mem, hcount.trans h3.icount⟩

/-- From a drained state, a decoded instruction that faults when executed alone takes the same fault in the fourth cycle, and
leaves the same registers and memory. -/
theorem run_four_of_exec_fault {s t : State} {i : Instr} {k : FaultKind} {p : Word} {n : DWord} (hready : s.Ready)
    (hdrained : s.Drained) (hlimit : s.BelowLimit) (haligned : aligned8 s.nextPc) (hvalid : memValid s.cfg s.nextPc = true)
    (hdecode : decode s.cfg.hasMul (bsReadInsn s.mem.bs s.nextPc) = some i) (hexec : exec i s = .next t)
    (ht : t.status = .faulted k p n) :
    ∃ s4, Host.Core.run Sys2Proof.core 4 s = .next s4 ∧ s4.status = t.status ∧ s4.regs = t.regs ∧ s4.mem = t.mem := by
  have hf := fetchLatch_valid (bs := s.mem.bs) haligned hvalid
  obtain ⟨hi, hmarker⟩ := idIns_of_decode (f := fetchLatch s.cfg s.mem.bs s.nextPc) (by rw [hf]) (by rw [hf]; exact hdecode)
  obtain ⟨hfault, rfl⟩ := loneMem_fault_of_exec hready (idIns_decoded s.cfg _) hi hexec ht
  obtain ⟨s4, hrun4, hstatus, hregs, hmem, _⟩ := run_four_fault (r := ⟨k, p, n⟩) hready hdrained hlimit
    (by simp only [hmarker]; exact hfault)
  exact ⟨s4, hrun4, hstatus, hregs, hmem⟩

/-! ## A placed word (R101, R148, R281) -/

/-- With nothing in flight there is nothing to clear for the fetch (R35). -/
theorem clearFetch_of_drained {s : State} (h : s.Drained) : s.clearFetch = s := by
  obtain ⟨hif, hex, _, _⟩ := h
  have hdrain : s.drainFront = s := by rw [State.drainFront, ← hif, ← hex]
  rw [State.clearFetch, hdrain, ite_self]

/-- In a drained state `withFetchWord` stores the word at the next address and does nothing else. -/
theorem withFetchWord_of_drained {s : State} (h : s.Drained) (w : DWord) :
    s.withFetchWord 64 w.toNat = { s with mem := { s.mem with bs := bsWriteInsn s.mem.bs s.nextPc w } } := by
  rw [State.withFetchWord, placeFetchWord, clearFetch_of_drained h, Nat.mod_eq_of_lt w.isLt, BitVec.ofNat_toNat,
    BitVec.setWidth_eq]

/-- Cycle 1 from a drained state fetches at the next address. -/
theorem quietNext_fpc {s : State} (h : s.Drained) : (quietNext s).fpc = s.nextPc := by
  obtain ⟨hif, _, _, _⟩ := h
  have hid : quietId s = ⟨.bubble, false, false, 0#32⟩ := idStage_nop (by rw [hif, idIns_bubble]; rfl) _ _ _
  simp [quietNext, hid, ifStage, fetchAddr_eq]

/-- Settles O60: the placed word reads back (O6), so cycle 1 fetches it; the rest is O58 without a fault, and
`run_four_of_exec_fault` with one. -/
theorem placedWordIsFetched : Obligations.PlacedWordIsFetched := by
  intro s w hready hdrained hlimit haligned hvalid p
  have hp : p = { s with mem := { s.mem with bs := bsWriteInsn s.mem.bs s.nextPc w } } := withFetchWord_of_drained hdrained w
  obtain ⟨hread, _⟩ := storedInsnReadsBack s.mem.bs s.nextPc w haligned
  clear_value p
  have hreadyP : p.Ready := by rw [hp]; exact hready
  have hdrainedP : p.Drained := by rw [hp]; exact hdrained
  have hlimitP : p.BelowLimit := by rw [hp]; exact hlimit
  have hpc : p.nextPc = s.nextPc := by rw [hp]; rfl
  have hcfg : p.cfg = s.cfg := by rw [hp]
  have hword : bsReadInsn p.mem.bs p.nextPc = w := by rw [hpc, hp]; exact hread
  rw [← hpc] at haligned hvalid ⊢
  rw [← hcfg] at hvalid ⊢
  obtain ⟨hstep1, hfetch, _⟩ := run_three hreadyP hdrainedP hlimitP
  refine ⟨by rw [hp], ⟨_, hstep1, ?_, quietNext_fpc hdrainedP⟩, fun i hdecode => ?_⟩
  · rw [hfetch, fetchLatch_valid haligned hvalid, hword]
  · rw [← hword] at hdecode
    obtain ⟨t, hexec⟩ := exec_ready hreadyP i
    refine ⟨t, hexec, fun hok => ?_, fun k a n ht => ?_⟩
    · obtain ⟨_, _, s5, _, _, _, _, _, hrun5, hregs, hcount, hstatus, _⟩ :=
        fiveCyclesRunOneInstr p t i hreadyP hdrainedP hlimitP haligned hvalid hdecode hexec hok
      exact ⟨s5, hrun5, hregs, hcount, hstatus⟩
    · exact run_four_of_exec_fault hreadyP hdrainedP hlimitP haligned hvalid hdecode hexec ht

end Sys2Proof.Machine

/-! PROOFS. One cycle of the pipeline (40_pipeline.md): O36, O38, O41, O43, O44 and O47 to O49. What a cycle does to one latch or
to the fetch is said once, for any cycle that goes on; a statement then puts these together. -/

namespace Sys2Proof.Machine

/-! ## What every cycle counts (R136, R137, R156) -/

/-- Settles O41: each of the three ways a cycle can end keeps the count of WB (`step_commits`) and advances the rest alike. -/
theorem everyCycleCounts : Obligations.EveryCycleCounts := by
  intro s s' hstep
  obtain ⟨_, hcount, _, _⟩ := step_commits hstep
  rw [wbStage_icount, nextCount] at hcount
  obtain ⟨_, rfl⟩ := step_next.mp hstep
  rcases cycleNext_cases s with ⟨_, _, e⟩ | ⟨_, ⟨_, _, e⟩ | ⟨_, e⟩⟩ <;> rw [e] at hcount ⊢
  · exact ⟨rfl, rfl, rfl, hcount⟩
  · exact ⟨rfl, rfl, rfl, hcount⟩
  · exact ⟨rfl, rfl, rfl, hcount⟩

/-! ## Cycles that end the run (R139, R153, R154, R252, R254) -/

/-- A cycle whose commit gives a reason to halt ends the run with it, whatever MEM does (R153, R257). -/
theorem cycleNext_halt {s : State} {r : HaltReason}
    (h : haltReason? s.cfg (wbStage s).haltReq (wbStage s).icount = some r) :
    cycleNext s = endRun s (wbStage s) (.halted r) := by
  rcases cycleNext_cases s with ⟨q, hq, e⟩ | ⟨hnone, _⟩
  · cases h.symm.trans hq
    exact e
  · cases h.symm.trans hnone

/-- A cycle whose commit does not halt takes MEM's fault (R153, R253). -/
theorem cycleNext_fault {s : State} {r : FaultRecord}
    (h : haltReason? s.cfg (wbStage s).haltReq (wbStage s).icount = none)
    (hf : (memStage s.cfg s.exmem (wbStage s).mem).fault = some r) :
    cycleNext s = takeFault r.kind r.pc r.info (endRun s (wbStage s) s.status) := by
  rcases cycleNext_cases s with ⟨q, hq, _⟩ | ⟨_, ⟨q, hq, e⟩ | ⟨hnone, _⟩⟩
  · cases h.symm.trans hq
  · cases hf.symm.trans hq
    exact e
  · cases hf.symm.trans hnone

/-- Settles O43: `haltReason_some` gives the reason, and `endRun` keeps only WB's part. -/
theorem haltBeatsFault : Obligations.HaltBeatsFault := by
  intro s hready w hhalt
  rw [step_ready hready, cycleNext_halt (haltReason_some hhalt)]
  rfl

/-- `MarkerInfo` of R254 as one test. -/
theorem markerInfo_eq (k : FaultKind) (pc : Word) (raw : DWord) :
    markerInfo k pc raw = if k = .illegalInstruction then raw else pc.setWidth 64 := by
  cases k <;> rfl

/-- MEM faults on a marker slot with the slot's own kind (R252, R254). -/
theorem memStage_fault_of_marker {cfg : Config} {x : ExMemLatch} {k : FaultKind} (hn : x.ins.op ≠ .nop)
    (hf : x.fault = some k) (m : MemSys) : (memStage cfg x m).fault = some ⟨k, x.pc, markerInfo k x.pc x.ins.raw⟩ := by
  simp only [memStage, if_neg hn, hf]

/-- MEM faults on a load or a store at an address that fails the check of R74, with the kind of the check (R139, R254). -/
theorem memStage_fault_of_access {cfg : Config} {x : ExMemLatch} {k : FaultKind} (hn : x.ins.op ≠ .nop)
    (hf : x.fault = none) (haccess : x.isLoad = true ∨ x.isStore = true) (hk : accessFault? cfg x.res = some k) (m : MemSys) :
    (memStage cfg x m).fault = some ⟨k, x.pc, x.res.setWidth 64⟩ := by
  have hread : cacheRead cfg x.res m = .fault k := cacheAccess_fault_iff.mpr hk
  have hwrite : cacheWrite cfg x.res x.b m = .fault k := cacheAccess_fault_iff.mpr hk
  cases hl : x.isLoad with
  | true => simp only [memStage, if_neg hn, hf, hl, if_true, hread]
  | false =>
    have hs : x.isStore = true := haccess.resolve_left (by simp [hl])
    simp only [memStage, if_neg hn, hf, hl, hs, Bool.false_eq_true, if_false, if_true, hwrite]

/-- Settles O44: MEM's record, of a marker slot or of a failing access, is the one `cycleNext_fault` takes. -/
theorem faultIsTakenInMem : Obligations.FaultIsTakenInMem := by
  intro s k info hready hn w hreq hlimit hcause
  have hf : (memStage s.cfg s.exmem w.mem).fault = some ⟨k, s.exmem.pc, info⟩ := by
    rcases hcause with ⟨hmark, rfl⟩ | ⟨hnone, haccess, hk, rfl⟩
    · rw [memStage_fault_of_marker hn hmark, markerInfo_eq]
    · exact memStage_fault_of_access hn hnone haccess hk _
  rw [step_ready hready, cycleNext_fault (haltReason_none.mpr ⟨hreq, hlimit⟩) hf]
  rfl

/-! ## What leaves ID in a cycle that goes on (R144, R176, R180) -/

/-- The stall flag shows this cycle's stall decision (R176, R180). -/
theorem step_stallFlag {s s' : State} (hstep : step s = .next s') (hrun : s'.status = .running) :
    s'.stallFlag = stallOf s (idIns s.cfg s.ifid) := by
  obtain ⟨_, _, _, rfl⟩ := step_running hstep hrun
  rw [carryOn_stallFlag, idStage_stallSignal]

/-- A stall and a NOP send a bubble to EX (R144, R180). -/
theorem step_idex_bubble {s s' : State} (hstep : step s = .next s') (hrun : s'.status = .running)
    (h : stallOf s (idIns s.cfg s.ifid) = true ∨ (idIns s.cfg s.ifid).op = .nop) : s'.idex = .bubble := by
  obtain ⟨_, _, _, rfl⟩ := step_running hstep hrun
  rcases h with hs | hn
  · rw [carryOn_idex, idStage_stall hs, ite_self]
  · rw [carryOn_idex, idStage_nop hn, ite_self]

/-- An instruction that is neither stalled nor squashed is in ID/EX after the cycle, with its address and its marker (R144). -/
theorem step_issues {s s' : State} (hstep : step s = .next s') (hrun : s'.status = .running)
    (hex : exTaken s.cfg s.idex = false) (hn : (idIns s.cfg s.ifid).op ≠ .nop)
    (hs : stallOf s (idIns s.cfg s.ifid) = false) :
    s'.idex = issueLatch (idIns s.cfg s.ifid) s.ifid.pc s'.idex.a s'.idex.b (idMarker s.cfg s.ifid) := by
  obtain ⟨_, _, _, rfl⟩ := step_running hstep hrun
  rw [carryOn_idex, hex, idStage_issue hn hs]
  rfl

/-- A stall holds the fetch, unless a target is pending or a branch is taken in EX (R148, R149, R180). -/
theorem step_holds_fetch {s s' : State} (hstep : step s = .next s') (hrun : s'.status = .running)
    (hex : exTaken s.cfg s.idex = false) (hs : stallOf s (idIns s.cfg s.ifid) = true) (hp : s.pending = none) :
    s'.ifid = s.ifid ∧ s'.fpc = s.fpc ∧ s'.pending = none := by
  obtain ⟨_, _, _, rfl⟩ := step_running hstep hrun
  rw [carryOn_ifid, carryOn_fpc, carryOn_pending, hex, idStage_stall hs]
  simp [ifStage, fetchAddr_eq, hp]

/-- Settles O36: the bubble for EX, the held fetch and the flag, by their own lemmas. -/
theorem stallHoldsFetchAndDecode : Obligations.StallHoldsFetchAndDecode := by
  intro s s' _ hstep hrun hp hex hs
  obtain ⟨hifid, hfpc, hpending⟩ := step_holds_fetch hstep hrun hex hs hp
  exact ⟨step_idex_bubble hstep hrun (.inl hs), hifid, hfpc, (step_stallFlag hstep hrun).trans hs, hpending⟩

/-- Neither policy sees a hazard where no source is a destination in ID/EX or EX/MEM (R173, R174). -/
theorem dataStall_of_independent {s : State} {d : Ins}
    (h : ∀ r ∈ srcsOf d, r ≠ 0#5 → r ≠ s.idex.dest ∧ r ≠ s.exmem.dest) : dataStall s d = false := by
  unfold dataStall
  cases s.cfg.hazardPolicy with
  | forward =>
    refine List.any_eq_false.mpr fun r hr hhazard => ?_
    simp only [Bool.and_eq_true, bne_iff_ne, beq_iff_eq] at hhazard
    obtain ⟨h0, hdest, _⟩ := hhazard
    exact (h r hr h0).1 hdest
  | stall =>
    refine List.any_eq_false.mpr fun r hr hhazard => ?_
    simp only [Bool.and_eq_true, Bool.or_eq_true, bne_iff_ne, beq_iff_eq] at hhazard
    obtain ⟨h0, hdest⟩ := hhazard
    exact hdest.elim (h r hr h0).1 (h r hr h0).2

/-- Settles O38: neither the data-hazard stall nor the serialisation stall holds, so the instruction leaves ID. -/
theorem independentInstructionDoesNotStall : Obligations.IndependentInstructionDoesNotStall := by
  intro s s' _ hstep hrun hindependent hexSys hmemSys hex hn
  have hser : serStall s = false := by simp [serStall, hexSys, hmemSys]
  have hs : stallOf s (idIns s.cfg s.ifid) = false := by simp [stallOf, dataStall_of_independent hindependent, hser]
  refine ⟨(step_stallFlag hstep hrun).trans hs, ?_, ?_⟩ <;> rw [step_issues hstep hrun hex hn hs] <;> rfl

/-! ## Taken and not taken (R142, R146, R150 to R152) -/

/-- With `BRANCH_STAGE` = EX, EX resolves by the operands in ID/EX (R142). -/
theorem exTaken_ex {cfg : Config} (hb : cfg.branchStage = .ex) (x : IdExLatch) : exTaken cfg x = taken x.ins.op x.a x.b := by
  simp only [exTaken, hb]

/-- A pending target is where fetch goes next (R148). -/
theorem nextPc_of_pending {s : State} {t : Word} (h : s.pending = some t) : s.nextPc = t := by
  rw [State.nextPc, h, Option.getD_some]

/-- A cycle that goes on and leaves a target pending has squashed its fetch (R150, R151). -/
theorem step_pending_empties_ifid {s s' : State} (hstep : step s = .next s') (hrun : s'.status = .running)
    (hp : s'.pending ≠ none) : s'.ifid = .bubble := by
  obtain ⟨_, _, _, rfl⟩ := step_running hstep hrun
  rw [carryOn_ifid, if_pos (by simpa using carryOn_pending_ne_none.mp hp)]

/-- A branch or jump taken in EX squashes ID and leaves its target pending (R150). -/
theorem step_taken_in_ex {s s' : State} (hstep : step s = .next s') (hrun : s'.status = .running)
    (hex : exTaken s.cfg s.idex = true) : s'.idex = .bubble ∧ s'.pending = some s.idex.target := by
  obtain ⟨_, _, _, rfl⟩ := step_running hstep hrun
  rw [carryOn_idex, carryOn_pending, if_pos hex, if_pos hex]
  exact ⟨rfl, rfl⟩

/-- Settles O47: `step_taken_in_ex`; the pending target empties IF/ID and is where fetch goes next. -/
theorem takenInExSquashesTwo : Obligations.TakenInExSquashesTwo := by
  intro s s' _ hstep hrun hb htaken
  obtain ⟨hidex, hpending⟩ := step_taken_in_ex hstep hrun ((exTaken_ex hb _).trans htaken)
  exact ⟨step_pending_empties_ifid hstep hrun (by simp [hpending]), hidex, hpending, nextPc_of_pending hpending⟩

/-- Settles O48: the branch is issued, and what ID/EX then holds resolves to the pending target (`pending_resolvedInId`). -/
theorem takenInIdSquashesOne : Obligations.TakenInIdSquashesOne := by
  intro s s' _ hstep hrun hb d hs htaken
  have hn : d.op ≠ .nop := fun e => by simp [e, taken] at htaken
  have hissue := step_issues hstep hrun (exTaken_id hb _) hn hs
  have hins : s'.idex.ins = d := by rw [hissue]; rfl
  have htarget : s'.idex.target = targetOf d s.ifid.pc := by rw [hissue]; rfl
  obtain ⟨_, _, hcfg, _⟩ := everyCycleCounts s s' hstep
  have hpending : s'.pending = some (targetOf d s.ifid.pc) := by
    rw [pending_resolvedInId hstep hrun (hcfg ▸ hb), hins, htaken, if_pos rfl, htarget]
  exact ⟨step_pending_empties_ifid hstep hrun (by simp [hpending]), hins, hpending, nextPc_of_pending hpending⟩

/-- Settles O49: nothing is taken in either stage, so the fetch is held (`step_holds_fetch`) or made (`step_fetches`), and ID
hands on a bubble (`step_idex_bubble`) or its instruction (`step_issues`). -/
theorem notTakenSquashesNothing : Obligations.NotTakenSquashesNothing := by
  intro s s' _ hstep hrun d hnotEx hnotId
  have hex : exTaken s.cfg s.idex = false := by
    cases hb : s.cfg.branchStage with
    | ex => exact (exTaken_ex hb _).trans (hnotEx hb)
    | id => exact exTaken_id hb _
  have hid := step_nothing_taken_in_id hstep hrun hex hnotId
  refine ⟨?_, ?_, ?_, fun hs hp => ?_, fun hfetch => ?_⟩
  · by_cases hhold : stallOf s d = true ∧ s.pending = none
    · obtain ⟨_, _, hpending⟩ := step_holds_fetch hstep hrun hex hhold.1 hhold.2
      exact hpending
    · obtain ⟨_, hpending, _⟩ := step_fetches hstep hrun hex hid (by simpa [or_iff_not_imp_left] using hhold)
      exact hpending
  · obtain ⟨_, _, _, rfl⟩ := step_running hstep hrun
    rfl
  · split_ifs with hnone
    · exact step_idex_bubble hstep hrun hnone
    · rw [not_or, Bool.not_eq_true] at hnone
      exact step_issues hstep hrun hex hnone.2 hnone.1
  · obtain ⟨hifid, hfpc, _⟩ := step_holds_fetch hstep hrun hex hs hp
    exact ⟨hifid, hfpc⟩
  · obtain ⟨hfpc, _, hifid⟩ := step_fetches hstep hrun hex hid hfetch
    exact ⟨hifid, hfpc⟩

end Sys2Proof.Machine

/-! PROOFS. Hazards and forwarding (41_hazard_forwarding.md): O35, O37 and O39. The stall decision is read once as a
proposition (O35); how long a load's consumer waits is that proposition at each of the three states. -/

namespace Sys2Proof.Machine

/-! ## The stall decision (R173 to R176) -/

/-- The data hazard of the policy in force, source by source (R173, R174). -/
theorem dataStall_iff (s : State) (d : Ins) :
    dataStall s d = true ↔
      (s.cfg.hazardPolicy = .forward ∧ ∃ r ∈ srcsOf d, r ≠ 0#5 ∧ r = s.idex.dest ∧ s.idex.isLoad = true) ∨
        (s.cfg.hazardPolicy = .stall ∧ ∃ r ∈ srcsOf d, r ≠ 0#5 ∧ (r = s.idex.dest ∨ r = s.exmem.dest)) := by
  unfold dataStall
  cases s.cfg.hazardPolicy with
  | forward => simp
  | stall => simp

theorem serStall_iff (s : State) : serStall s = true ↔ s.idex.ins.op = .syscall ∨ s.exmem.ins.op = .syscall := by
  simp [serStall]

/-- Settles O35: `Stall` of R176 is its two parts, `dataStall_iff` and `serStall_iff`, for what is not a NOP. -/
theorem stallExactlyOnHazard : Obligations.StallExactlyOnHazard := by
  intro s d
  rw [stallOf, Bool.and_eq_true, Bool.or_eq_true, bne_iff_ne, dataStall_iff, serStall_iff, or_assoc]

/-! ## The load-use stall (R186) -/

/-- A NOP reads no register (R110), so what has a source is none. -/
theorem op_ne_nop_of_mem_srcsOf {d : Ins} {r : RegIdx} (h : r ∈ srcsOf d) : d.op ≠ .nop := by
  intro e
  simp [srcsOf, e, roles] at h

/-- A load is not a taken branch (R142). -/
theorem exTaken_load (cfg : Config) {x : IdExLatch} (h : x.ins.op = .lw) : exTaken cfg x = false := by
  cases hb : cfg.branchStage with
  | ex => rw [exTaken_ex hb, h]; rfl
  | id => exact exTaken_id hb _

theorem exStage_dest {x : IdExLatch} (hn : x.ins.op ≠ .nop) : (exStage x).dest = x.dest := by
  simp only [exStage, hn, if_false]

/-- EX hands its instruction to EX/MEM in every cycle that goes on (R141, R155). -/
theorem step_exmem {s s' : State} (hstep : step s = .next s') (hrun : s'.status = .running) :
    s'.exmem = exStage s.idex := by
  obtain ⟨_, _, _, rfl⟩ := step_running hstep hrun
  exact carryOn_exmem _ _ _ _ _

/-- An instruction stalls behind a load of one of its sources in EX, under either policy (R173, R174). -/
theorem stallOf_load_in_ex {s : State} {d : Ins} {r : RegIdx} (hr : r ∈ srcsOf d) (h0 : r ≠ 0#5) (hdest : r = s.idex.dest)
    (hload : s.idex.isLoad = true) : stallOf s d = true := by
  refine (stallExactlyOnHazard s d).mpr ⟨op_ne_nop_of_mem_srcsOf hr, ?_⟩
  cases hp : s.cfg.hazardPolicy with
  | forward => exact .inl ⟨rfl, r, hr, h0, hdest, hload⟩
  | stall => exact .inr (.inl ⟨rfl, r, hr, h0, .inl hdest⟩)

/-- Under FORWARD only the instruction in EX, or a SYSCALL, makes ID wait (R173, R175). -/
theorem not_stallOf_forward {s : State} (hp : s.cfg.hazardPolicy = .forward) (hex : s.idex = .bubble)
    (hmem : s.exmem.ins.op ≠ .syscall) (d : Ins) : stallOf s d = false := by
  rw [← Bool.not_eq_true, stallExactlyOnHazard s d]
  rintro ⟨_, ⟨_, r, _, _, _, hload⟩ | ⟨hstall, _⟩ | hsys | hsys⟩
  · rw [hex] at hload
    cases hload
  · cases hp.symm.trans hstall
  · rw [hex] at hsys
    cases hsys
  · exact hmem hsys

/-- A stalled cycle sends nothing to EX and moves on what is there, while ID keeps its instruction (R180). -/
theorem step_stalled {s s' : State} (hstep : step s = .next s') (hrun : s'.status = .running)
    (hex : exTaken s.cfg s.idex = false) (hp : s.pending = none) (hs : stallOf s (idIns s.cfg s.ifid) = true) :
    s'.cfg = s.cfg ∧ s'.ifid = s.ifid ∧ s'.pending = none ∧ s'.idex = .bubble ∧ s'.exmem = exStage s.idex := by
  obtain ⟨hifid, _, hpending⟩ := step_holds_fetch hstep hrun hex hs hp
  obtain ⟨_, _, hcfg, _⟩ := everyCycleCounts s s' hstep
  exact ⟨hcfg, hifid, hpending, step_idex_bubble hstep hrun (.inl hs), step_exmem hstep hrun⟩

/-- Settles O37: after one cycle the load is in MEM behind a bubble, where only STALL still sees the hazard; after a second
stall EX and MEM are both empty. -/
theorem loadUseStallLength : Obligations.LoadUseStallLength := by
  intro s s1 s2 r _ hoperands hpending d hr h0 hop hdest hstep1 hrun1 hstep2 hrun2
  have hload : s.idex.isLoad = true := by rw [hoperands.exLoad, hop, roles]
  have hs : stallOf s d = true := stallOf_load_in_ex hr h0 hdest hload
  obtain ⟨hcfg1, hifid1, hpending1, hidex1, hexmem1⟩ := step_stalled hstep1 hrun1 (exTaken_load _ hop) hpending hs
  have hopMem : s1.exmem.ins.op = .lw := by rw [hexmem1, exStage_op, hop]
  have hdestMem : r = s1.exmem.dest := by rw [hexmem1, exStage_dest (by simp [hop]), hdest]
  refine ⟨hs, hifid1, fun hp => ?_, fun hp => ?_⟩
  · exact not_stallOf_forward (hcfg1 ▸ hp) hidex1 (by simp [hopMem]) d
  · have hs1 : stallOf s1 d = true :=
      (stallExactlyOnHazard s1 d).mpr
        ⟨op_ne_nop_of_mem_srcsOf hr, .inr (.inl ⟨hcfg1 ▸ hp, r, hr, h0, .inr hdestMem⟩)⟩
    obtain ⟨_, hifid2, _, hidex2, hexmem2⟩ :=
      step_stalled hstep2 hrun2 (by rw [hidex1, exTaken_bubble]) hpending1 (by rw [hcfg1, hifid1]; exact hs1)
    rw [hidex1, exStage_bubble] at hexmem2
    exact ⟨hs1, hifid2.trans hifid1, not_stallOf_empty hidex2 hexmem2 d⟩

/-! ## Forwarding (R177 to R179) -/

theorem operandA_nop (val : RegIdx → Word) {d : Ins} (h : d.op = .nop) : operandA val d = 0#32 := by
  simp [operandA, h, roles]

theorem operandB_nop (val : RegIdx → Word) {d : Ins} (h : d.op = .nop) : operandB val d = 0#32 := by
  simp [operandB, h, roles]

/-- The operand buses of what leaves ID carry this cycle's values of its sources, also for the bubble a NOP becomes (R179). -/
theorem step_operands {s s' : State} (hstep : step s = .next s') (hrun : s'.status = .running)
    (hex : exTaken s.cfg s.idex = false) (hs : stallOf s (idIns s.cfg s.ifid) = false) :
    let val := idValue s (wbStage s) (exStage s.idex) (memStage s.cfg s.exmem (wbStage s).mem)
    s'.idex.a = operandA val (idIns s.cfg s.ifid) ∧ s'.idex.b = operandB val (idIns s.cfg s.ifid) := by
  intro val
  by_cases hn : (idIns s.cfg s.ifid).op = .nop
  · rw [step_idex_bubble hstep hrun (.inr hn), operandA_nop _ hn, operandB_nop _ hn]
    exact ⟨rfl, rfl⟩
  · obtain ⟨_, _, _, rfl⟩ := step_running hstep hrun
    rw [carryOn_idex, hex, idStage_issue hn hs]
    exact ⟨rfl, rfl⟩

/-- The value of r0 is 0 under either policy (R177, R178). -/
theorem operandValue_zero (p : HazardPolicy) (regs : RegFile) (exDest memDest : RegIdx) (exRes memVal : Word) :
    operandValue p regs exDest exRes memDest memVal 0#5 = 0#32 := by
  cases p with
  | forward => simp [operandValue]
  | stall => simp [operandValue]

theorem operandValue_stall (regs : RegFile) (exDest memDest : RegIdx) (exRes memVal : Word) (r : RegIdx) :
    operandValue .stall regs exDest exRes memDest memVal r = readReg regs r := rfl

/-- The three rows of R177, in their order. -/
theorem operandValue_forward (regs : RegFile) (exDest memDest : RegIdx) (exRes memVal : Word) {r : RegIdx} (h0 : r ≠ 0#5) :
    operandValue .forward regs exDest exRes memDest memVal r =
      if r = exDest then exRes else if r = memDest then memVal else readReg regs r := by
  rw [operandValue, if_neg h0]

/-- Settles O39: the values ID sees are those of R177 and R178 on this cycle's signals, which the next state holds: the
committed registers, the result in EX/MEM and the value in MEM/WB. -/
theorem operandsAreForwarded : Obligations.OperandsAreForwarded := by
  intro s s' _ hstep hrun hex d hs
  obtain ⟨ha, hb⟩ := step_operands hstep hrun hex hs
  have hres : s'.exmem.res = (exStage s.idex).res := by rw [step_exmem hstep hrun]
  obtain ⟨_, _, _, hs'⟩ := step_running hstep hrun
  have hregs : s'.regs = (wbStage s).regs := by rw [hs', carryOn_regs]
  have hval : s'.memwb.val = (memStage s.cfg s.exmem (wbStage s).mem).memwb.val := by rw [hs', carryOn_memwb]
  refine ⟨_, ha, hb, operandValue_zero _ _ _ _ _ _, fun hp r => ?_, fun hp r h0 => ?_⟩
  · rw [idValue, hp, operandValue_stall, State.reg, hregs]
  · rw [idValue, hp, operandValue_forward _ _ _ _ _ h0, State.reg, hregs, hres, hval]
    exact ⟨fun hx => if_pos hx, fun hx hm => by rw [if_neg hx, if_pos hm], fun hx hm => by rw [if_neg hx, if_neg hm]⟩

end Sys2Proof.Machine

/-! PROOFS. The ALU instructions executed alone (42_alu.md): O19 to O25, O27 and O34. What such an instruction changes and
leaves unchanged is said once (`retire_writesOnly`), so that a statement is left with one equation about words: the ALU's
operator against the number the spec writes. O34 reads the values of its four instructions off their `WritesOnly`. -/

namespace Sys2Proof.Machine

/-! ## The effect of writing one register (R22, R136, R153) -/

theorem onlyReg_setReg (s : State) (r : RegIdx) (v : Word) : OnlyReg s (s.setReg r v) r v := by
  refine ⟨fun h0 => ?_, rfl, fun q hq => ?_⟩
  · rw [setReg_reg, if_pos ⟨rfl, h0⟩]
  · rw [setReg_reg, if_neg fun h => hq h.1]

/-- A running instruction other than NOP that writes one register does nothing else than count one and go on. -/
theorem retire_writesOnly {s : State} (h : s.Ready) {op : Op} (hop : op ≠ .nop) (r : RegIdx) (v : Word) :
    WritesOnly s (retire op none false (s.setReg r v)) r v :=
  ⟨onlyReg_setReg s r v, ⟨rfl, fun _ => rfl⟩, retire_goesOn op false (s.setReg r v), retire_countsOne hop rfl h.2 rfl,
    rfl, rfl, rfl, rfl, rfl, rfl, rfl, rfl⟩

/-- An instruction that is known to write the word `v`, for a statement that writes it as `v'`. -/
theorem exec_writesOnly {s : State} {i : Instr} {op : Op} {r : RegIdx} {v v' : Word} (h : s.Ready) (hop : op ≠ .nop)
    (hexec : exec i s = .next (retire op none false (s.setReg r v))) (hv : v = v') :
    ∃ t, exec i s = .next t ∧ WritesOnly s t r v' :=
  ⟨_, hexec, hv ▸ retire_writesOnly h hop r v⟩

theorem WritesOnly.reg_same {s t : State} {r : RegIdx} {v : Word} (h : WritesOnly s t r v) (h0 : r ≠ 0#5) :
    t.reg r = v := by
  obtain ⟨⟨hwritten, _⟩, _⟩ := h
  exact hwritten h0

theorem WritesOnly.reg_other {s t : State} {r q : RegIdx} {v : Word} (h : WritesOnly s t r v) (hq : q ≠ r) :
    t.reg q = s.reg q := by
  obtain ⟨⟨_, _, hother⟩, _⟩ := h
  exact hother q hq

theorem WritesOnly.nextPc {s t : State} {r : RegIdx} {v : Word} (h : WritesOnly s t r v) :
    t.nextPc = s.nextPc + 8#32 := by
  obtain ⟨_, _, ⟨hnext, _⟩, _⟩ := h
  exact hnext

theorem WritesOnly.icount {s t : State} {r : RegIdx} {v : Word} (h : WritesOnly s t r v) : t.icount = s.icount + 1 := by
  obtain ⟨_, _, _, ⟨hcount, _⟩, _⟩ := h
  exact hcount

theorem WritesOnly.cfg {s t : State} {r : RegIdx} {v : Word} (h : WritesOnly s t r v) : t.cfg = s.cfg := by
  obtain ⟨_, _, _, _, hcfg, _⟩ := h
  exact hcfg

/-- Without an instruction limit the run goes on (R153). -/
theorem WritesOnly.ready {s t : State} {r : RegIdx} {v : Word} (h : WritesOnly s t r v) (hs : s.Ready)
    (hmax : s.cfg.maxInsns = none) : t.Ready := by
  obtain ⟨_, _, _, ⟨_, hbelow, _⟩, hcfg, _⟩ := h
  exact ⟨hcfg ▸ hs.1, hbelow fun k hk => by rw [hmax] at hk; cases hk⟩

/-! ## The ALU's operators as numbers (R202 to R208) -/

theorem sub_eq_ofInt (a b : Word) : a - b = BitVec.ofInt 32 (a.toInt - b.toInt) := by
  rw [Int.sub_eq_add_neg, BitVec.ofInt_add, BitVec.ofInt_neg, BitVec.ofInt_toInt, BitVec.ofInt_toInt, BitVec.sub_eq_add_neg]

/-- The shift amount is the low five bits of the operand (R205). -/
theorem toNat_shiftAmount (b : Word) : (b.extractLsb' 0 5).toNat = b.toNat % 32 := by
  rw [BitVec.extractLsb'_toNat, Nat.shiftRight_zero]

/-- A left shift multiplies by a power of two (R205). -/
theorem shiftLeft_eq_ofNat (a b : Word) :
    a <<< (b.extractLsb' 0 5).toNat = BitVec.ofNat 32 (a.toNat * 2 ^ (b.toNat % 32)) := by
  apply BitVec.eq_of_toNat_eq
  rw [toNat_shiftAmount, BitVec.toNat_shiftLeft, Nat.shiftLeft_eq, BitVec.toNat_ofNat]

theorem boolWord_slt (a b : Word) : boolWord (BitVec.slt a b) = if a.toInt < b.toInt then 1#32 else 0#32 := by
  simp only [boolWord, BitVec.slt_iff_toInt_lt]

theorem add_sext16_eq_ofInt (a : Word) (imm : BitVec 16) : a + sext16 imm = BitVec.ofInt 32 (a.toInt + imm.toInt) := by
  rw [BitVec.ofInt_add, BitVec.ofInt_toInt]
  rfl

/-! ## The instructions (R201 to R208) -/

/-- Settles O19: a NOP retires without a write and without a count, so a run below its limit stays below it. -/
theorem nopChangesNothing : Obligations.NopChangesNothing := by
  intro s hready hlimit
  have hstatus : (retire .nop none false s).status = .running := by
    rw [retire_status, nextCount, if_pos rfl, haltReason_none.mpr ⟨rfl, hlimit⟩, haltedStatus_none, hready.2]
  exact ⟨_, exec_nop hready, ⟨rfl, fun _ => rfl⟩, ⟨rfl, fun _ => rfl⟩, retire_goesOn _ _ _, rfl, hstatus,
    rfl, rfl, rfl, rfl, rfl, rfl, rfl, rfl⟩

/-- Settles O20: the word sum is the sum of the two numbers, narrowed. -/
theorem addWritesSum : Obligations.AddWritesSum := fun _ rd rs rt h =>
  exec_writesOnly h (by decide) (exec_add h rd rs rt) (BitVec.add_def _ _)

/-- Settles O21, by `sub_eq_ofInt`. -/
theorem subWritesDifference : Obligations.SubWritesDifference := fun _ rd rs rt h =>
  exec_writesOnly h (by decide) (exec_sub h rd rs rt) (sub_eq_ofInt _ _)

/-- Settles O22: the statement writes the ALU's own operator. -/
theorem andWritesConjunction : Obligations.AndWritesConjunction := fun _ rd rs rt h =>
  exec_writesOnly h (by decide) (exec_and h rd rs rt) rfl

/-- Settles O23, by `shiftLeft_eq_ofNat`. -/
theorem sllShiftsByLowFiveBits : Obligations.SllShiftsByLowFiveBits := fun _ rd rs rt h =>
  exec_writesOnly h (by decide) (exec_sll h rd rs rt) (shiftLeft_eq_ofNat _ _)

/-- Settles O24, by `boolWord_slt`. -/
theorem sltComparesSigned : Obligations.SltComparesSigned := fun _ rd rs rt h =>
  exec_writesOnly h (by decide) (exec_slt h rd rs rt) (boolWord_slt _ _)

/-- Settles O25: the word product is the product of the two numbers, narrowed. -/
theorem mulWritesLowProduct : Obligations.MulWritesLowProduct := fun _ rd rs rt h hmul =>
  exec_writesOnly h (by decide) (exec_mul h hmul rd rs rt) BitVec.mul_def

/-- Settles O27, by `add_sext16_eq_ofInt`. -/
theorem addiAddsSignedImmediate : Obligations.AddiAddsSignedImmediate := fun _ rt rs imm h =>
  exec_writesOnly h (by decide) (exec_addi h rt rs imm) (add_sext16_eq_ofInt _ _)

/-! ## Building a constant (R209) -/

/-- Sixteen bits up, the sign extension is shifted out. -/
theorem toNat_sext16_shiftLeft (x : BitVec 16) : (sext16 x <<< 16).toNat = x.toNat * 65536 := by
  have hx := x.isLt
  rw [BitVec.toNat_shiftLeft, Nat.shiftLeft_eq, sext16, BitVec.toNat_signExtend, BitVec.toNat_setWidth]
  split <;> omega

/-- A sign extension adds 2^16 - 1 above the sixteen bits of a negative number. -/
theorem toNat_sext16 (x : BitVec 16) :
    (sext16 x).toNat = if x.toNat < 32768 then x.toNat else x.toNat + 65535 * 65536 := by
  have hx := x.isLt
  rw [sext16, BitVec.toNat_signExtend, BitVec.toNat_setWidth, BitVec.msb_eq_decide]
  simp only [decide_eq_true_eq]
  split <;> split <;> omega

/-- The upper half is taken of `v + 0x8000`, so that it makes up for what the sign of the lower half subtracts (R209). -/
theorem halves_eq (v : Word) :
    sext16 ((v + 0x8000#32).extractLsb' 16 16) <<< 16 + sext16 (v.extractLsb' 0 16) = v := by
  have hv := v.isLt
  have hupper : ((v + 0x8000#32).extractLsb' 16 16).toNat = (v.toNat + 32768) / 65536 % 65536 := by
    rw [BitVec.extractLsb'_toNat, Nat.shiftRight_eq_div_pow, BitVec.toNat_add, BitVec.toNat_ofNat]
    omega
  have hlower : (v.extractLsb' 0 16).toNat = v.toNat % 65536 := by
    rw [BitVec.extractLsb'_toNat, Nat.shiftRight_zero]
  apply BitVec.eq_of_toNat_eq
  rw [BitVec.toNat_add, toNat_sext16_shiftLeft, toNat_sext16, hupper, hlower]
  split <;> omega

/-- Settles O34: the registers before each instruction are those the ones before it have written, and the word they make is
`halves_eq`. -/
theorem fourInstrsBuildAnyConstant : Obligations.FourInstrsBuildAnyConstant := by
  intro s r x v hready hmax hr hx hrx
  obtain ⟨s1, he1, h1⟩ := exec_writesOnly hready (by decide)
    (exec_addi hready r 0#5 ((v + 0x8000#32).extractLsb' 16 16)) rfl
  have hready1 := h1.ready hready hmax
  have hmax1 : s1.cfg.maxInsns = none := h1.cfg ▸ hmax
  obtain ⟨s2, he2, h2⟩ := exec_writesOnly hready1 (by decide) (exec_addi hready1 x 0#5 16#16) rfl
  have hready2 := h2.ready hready1 hmax1
  have hmax2 : s2.cfg.maxInsns = none := h2.cfg ▸ hmax1
  obtain ⟨s3, he3, h3⟩ := exec_writesOnly hready2 (by decide) (exec_sll hready2 r r x) rfl
  have hready3 := h3.ready hready2 hmax2
  obtain ⟨s4, he4, h4⟩ := exec_writesOnly hready3 (by decide) (exec_addi hready3 r r (v.extractLsb' 0 16)) rfl
  refine ⟨s1, s2, s3, s4, he1, he2, he3, he4, ?_, ?_, ?_⟩
  · have hupper : s2.reg r = sext16 ((v + 0x8000#32).extractLsb' 16 16) := by
      rw [h2.reg_other hrx, h1.reg_same hr, reg_zero, BitVec.zero_add]
    have hamount : ((s2.reg x).extractLsb' 0 5).toNat = 16 := by
      rw [h2.reg_same hx, reg_zero]
      rfl
    rw [h4.reg_same hr, h3.reg_same hr, hupper, hamount, halves_eq]
  · rw [h4.nextPc, h3.nextPc, h2.nextPc, h1.nextPc, BitVec.add_assoc, BitVec.add_assoc, BitVec.add_assoc]
    rfl
  · rw [h4.icount, h3.icount, h2.icount, h1.icount]

end Sys2Proof.Machine

/-! PROOFS. LW and SW executed alone at an aligned address in range (43_loadstore.md): O28 and O29. The access that
completes says what happens to the memory; what is left of the instruction, going on and counting one, is the same for
both and is said once (`retire_access`). The forms that fault are O30's. -/

namespace Sys2Proof.Machine

/-! ## The access (R75, R80, R87) -/

/-- An access that completes is counted once, whether the cache is enabled or not (R75, R76). -/
theorem accesses_of_ok {cfg : Config} {kind : AccessKind} {a v w : Word} {m m' : MemSys}
    (h : cacheAccess cfg kind a v m = .ok w m') : m'.cache.ctr.accesses = m.cache.ctr.accesses + 1 := by
  cases hc : cfg.cacheEnabled with
  | true =>
    obtain ⟨haccesses, _⟩ := accessCountsOnce cfg kind a v w m m' hc h
    exact haccesses
  | false =>
    rw [eq_passThrough_of_ok hc h]
    cases kind <;> rfl

/-- Each of the four addresses of a write shows its byte of the word, lowest first (R62). -/
theorem byteAfterWrite_inside (a v : Word) (old : Word → Byte) {k : Nat} (hk : k < 4) :
    byteAfterWrite a v old (a + BitVec.ofNat 32 k) = v.extractLsb' (8 * k) 8 := by
  interval_cases k <;> simp [byteAfterWrite]

/-! ## The instructions (R220, R221) -/

/-- An instruction other than NOP that has left its result in the memory and the registers goes on, counts one and changes
nothing of the pipeline (R12, R136, R153). -/
theorem retire_access {s : State} (h : s.Ready) {op : Op} (hop : op ≠ .nop) (m : MemSys) (regs : RegFile) :
    let t := retire op none false { s with mem := m, regs := regs }
    GoesOn s t ∧ CountsOne s t ∧ SamePipeline s t :=
  ⟨retire_goesOn op false { s with mem := m, regs := regs }, retire_countsOne hop rfl h.2 rfl,
    rfl, rfl, rfl, rfl, rfl, rfl, rfl, rfl⟩

/-- Settles O28: the read answers `ArchMem`'s word and changes no byte of it (`cacheRead_archMem`). -/
theorem lwLoadsArchMem : Obligations.LwLoadsArchMem := by
  rintro s rt rs imm ea hready hmem rfl halign hvalid
  obtain ⟨m, hread⟩ := cacheRead_ok hmem ((accessFault_none _ _).mpr ⟨halign, hvalid⟩)
  obtain ⟨_, hbytes⟩ := cacheRead_archMem hmem hread
  have hexec := exec_lw hready rt rs imm
  rw [sext16, hread] at hexec
  exact ⟨_, hexec, onlyReg_setReg { s with mem := m } rt _, hread, hbytes, accesses_of_ok hread,
    retire_access hready (by decide) m _⟩

/-- Settles O29: the bytes after the write are `byteAfterWrite`, at its four addresses and outside them. -/
theorem swStoresWord : Obligations.SwStoresWord := by
  rintro s rt rs imm ea hready hmem rfl halign hvalid
  obtain ⟨_, _, hcompletes⟩ := accessFaultsExactlyAsChecked s.cfg .write (s.reg rs + imm.signExtend 32) (s.reg rt) s.mem
  obtain ⟨w, m, hwrite⟩ := hcompletes halign hvalid
  have hbyte := cacheWrite_archByte hmem hwrite
  have hexec := exec_sw hready rt rs imm
  rw [sext16, cacheWrite, hwrite] at hexec
  refine ⟨_, hexec, ⟨rfl, fun _ => rfl⟩, ⟨w, hwrite⟩, fun k hk => ?_, fun a ha => ?_, accesses_of_ok hwrite,
    retire_access hready (by decide) m s.regs⟩
  · rw [← byteAfterWrite_inside _ _ (archByte s.mem) hk]
    exact hbyte _
  · rw [← byteAfterWrite_outside ha (s.reg rt) (archByte s.mem)]
    exact hbyte a

end Sys2Proof.Machine

/-! PROOFS. SYSCALL executed alone (45_system.md): O33. What the handler's answer does to the registers is
`readReg_set_slot_zero`, what it does to the memory `applyHandlerMem_spec`; how the instruction retires, with the handler's
halt answer and without, is said once for any effect (`retire_syscall`). -/

namespace Sys2Proof.Machine

/-- What slot 0 holds is never read, so every register reads alike when it is set to 0 (R22, R243). -/
theorem readReg_set_slot_zero (regs : RegFile) (q : RegIdx) : readReg (regs.set 0 0#32) q = readReg regs q := by
  by_cases h0 : q = 0#5
  · rw [h0, readReg_zero, readReg_zero]
  · have hslot : 0 ≠ q.toNat := fun e => h0 (BitVec.eq_of_toNat_eq e.symm)
    rw [readReg, readReg, if_neg h0, if_neg h0, Vector.getElem_set_ne _ _ hslot]

/-- A halt request of the handler comes before the instruction limit (R153). -/
theorem retire_status_of_haltReq (op : Op) (t : Option Word) (s : State) :
    (retire op t true s).status = .halted .syscall := by
  rw [retire_status, haltReason_some (.inl rfl), if_pos rfl, haltedStatus_some]

/-- A SYSCALL with any effect goes on to the next address, counts one and changes nothing of the pipeline, and the effect's
halt answer decides whether it ends the run itself or leaves that to the limit (R136, R153, R240). -/
theorem retire_syscall {s : State} (h : s.Ready) (e : SyscallEffect) :
    let t := retire .syscall none e.halt { s with regs := e.regs, mem := e.mem }
    t.icount = s.icount + 1 ∧ (e.halt = true → t.status = .halted .syscall) ∧
      (e.halt = false → EndsAtLimit s t (s.icount + 1)) ∧ GoesOn s t ∧ SamePipeline s t := by
  refine ⟨rfl, fun hhalt => ?_, fun hhalt => ?_, retire_goesOn _ _ { s with regs := e.regs, mem := e.mem },
    rfl, rfl, rfl, rfl, rfl, rfl, rfl, rfl⟩
  · rw [hhalt]
    exact retire_status_of_haltReq _ _ _
  · rw [hhalt]
    obtain ⟨_, ⟨_, hlimit⟩, _⟩ := retire_access h (op := .syscall) (by decide) e.mem e.regs
    exact hlimit

/-- Settles O33: the handler's effect on the registers and on the memory, then how a SYSCALL with that effect retires. -/
theorem syscallAppliesHandler : Obligations.SyscallAppliesHandler := by
  intro s hready r
  obtain ⟨hlines, hctr, hbytes⟩ := applyHandlerMem_spec s.cfg r.mem s.mem
  exact ⟨_, exec_syscall hready, fun q _ => readReg_set_slot_zero r.regs q, rfl, hbytes, hlines, hctr,
    retire_syscall hready (callHandler s.cfg s.regs s.mem s.nextPc)⟩

end Sys2Proof.Machine

/-! PROOFS. Faults from an empty pipeline (60_exceptions.md): O59. What an instruction does in program order depends only on
ID's marker: with one it is the fault of the marker (`archSlot_marker`), with none it is an instruction executed alone
(`archSlot_unmarked`). Either way MEM faults with the record of program order, and `run_four_fault` brings the slot there. -/

namespace Sys2Proof.Machine

/-! ## The slot of a marker (R144, R147, R254) -/

/-- ID's record keeps the word it came from (R105, R144). -/
theorem idIns_raw (cfg : Config) (f : IfIdLatch) : (idIns cfg f).raw = f.word := by
  unfold idIns
  split
  · rfl
  · exact decodeIns_raw _ _

/-- A record stands for no instruction exactly when it is a marker slot (R147). -/
theorem toInstr?_eq_none_iff {d : Ins} : d.toInstr? = none ↔ isMarker d := by
  obtain ⟨op, rs, rt, rd, imm, t26, raw⟩ := d
  cases op <;> simp [Ins.toInstr?, isMarker]

/-- The words that are none of the 14 instructions are those the decoder makes illegal (R105 to R107). -/
theorem decode_eq_none_iff {hasMul : Bool} {w : DWord} : decode hasMul w = none ↔ (decodeIns hasMul w).op = .illegal :=
  toInstr?_eq_none_iff.trans (or_iff_left (decodeIns_not_fetchFault hasMul w))

/-- A marker slot alone in MEM faults with its marker, its address and its word's information (R252, R254). -/
theorem loneSlot_marker_fault {s : State} {f : IfIdLatch} {k : FaultKind} (h : idMarker s.cfg f = some k) (m : MemSys) :
    (memStage s.cfg (loneSlot (idMarker s.cfg f) (idIns s.cfg f) s) m).fault =
      some ⟨k, s.nextPc, markerInfo k s.nextPc f.word⟩ := by
  have hmarker : isMarker (idIns s.cfg f) := (idMarker_iff s.cfg f).mp (by simp [h])
  have hn : (idIns s.cfg f).op ≠ .nop := fun e => by simp [isMarker, e] at hmarker
  rw [loneSlot_eq hn, h, memStage_fault_of_marker hn rfl, idIns_raw]

/-! ## What is fetched, in program order (R12, R250, R254) -/

/-- A slot that ID marks takes the marker's fault in program order. -/
theorem archSlot_marker {s : State} {f : IfIdLatch} {k : FaultKind} (hready : s.Ready) (h : idMarker s.cfg f = some k) :
    archSlot f s = .next (takeFault k f.pc (markerInfo k f.pc f.word) s) := by
  unfold idMarker at h
  unfold archSlot
  cases hf : f.ffault with
  | some c =>
    simp only [hf, Option.some.injEq] at h
    rw [← h]
    exact whenReady_ready hready _
  | none =>
    simp only [hf] at h
    split at h
    · next hillegal =>
      cases h
      simp only [decode_eq_none_iff.mpr hillegal]
      exact whenReady_ready hready _
    · cases h

/-- A slot that ID does not mark is, in program order, the instruction ID has decoded. -/
theorem archSlot_unmarked {s : State} {f : IfIdLatch} (h : idMarker s.cfg f = none) :
    ∃ i, (idIns s.cfg f).toInstr? = some i ∧ archSlot f s = exec i s := by
  cases hf : f.ffault with
  | some c => simp [idMarker, hf] at h
  | none =>
    cases hd : decode s.cfg.hasMul f.word with
    | none => simp [idMarker, hf, decode_eq_none_iff.mp hd] at h
    | some i =>
      obtain ⟨hi, _⟩ := idIns_of_decode hf hd
      exact ⟨i, hi, by simp only [archSlot, hf, hd]⟩

/-- Where program order faults on a fetched slot, MEM faults on the slot with the same record (R252 to R254). -/
theorem memStage_fault_of_archSlot {s t : State} {f : IfIdLatch} {k : FaultKind} {p : Word} {n : DWord} (hready : s.Ready)
    (hpc : f.pc = s.nextPc) (h : archSlot f s = .next t) (ht : t.status = .faulted k p n) :
    (memStage s.cfg (loneSlot (idMarker s.cfg f) (idIns s.cfg f) s) s.mem).fault = some ⟨k, p, n⟩ := by
  cases hm : idMarker s.cfg f with
  | some c =>
    rw [archSlot_marker hready hm] at h
    cases h
    cases ht
    rw [← hm, loneSlot_marker_fault hm, hpc]
  | none =>
    obtain ⟨i, hi, harch⟩ := archSlot_unmarked hm
    obtain ⟨hfault, _⟩ := loneMem_fault_of_exec hready (idIns_decoded s.cfg f) hi (harch ▸ h) ht
    exact hfault

/-- Below the limit, program order executes the slot fetched at the next address (R45, R153). -/
theorem archStep_belowLimit {s : State} (h : s.BelowLimit) :
    archStep s = archSlot (fetchLatch s.cfg s.mem.bs s.nextPc) s := by
  simp only [archStep, haltReason_none.mpr ⟨rfl, h⟩]

/-! ## The end of the run (R256, R261) -/

/-- No run changes its configuration (R20). -/
theorem run_cfg {s s' : State} {m : Nat} (h : Host.Core.run Sys2Proof.core m s = .next s') : s'.cfg = s.cfg := by
  induction m generalizing s with
  | zero => cases h; rfl
  | succ m ih =>
    simp only [Host.Core.run] at h
    cases hs : Sys2Proof.core.step s with
    | next u =>
      rw [hs] at h
      obtain ⟨_, _, hcfg, _⟩ := everyCycleCounts s u hs
      exact (ih h).trans hcfg
    | fault r => rw [hs] at h; cases h
    | refused r => rw [hs] at h; cases h

/-- Settles O59: `memStage_fault_of_archSlot` gives MEM's fault, `run_four_fault` the four cycles to it, and the ended run
takes no other (O40). -/
theorem fourthCycleTakesTheFault : Obligations.FourthCycleTakesTheFault := by
  intro s t k p n hready hdrained hlimit harch ht
  rw [archStep_belowLimit hlimit] at harch
  have hfault := memStage_fault_of_archSlot hready (fetchLatch_pc _ _ _) harch ht
  obtain ⟨s4, hrun4, hstatus, hregs, hmem, hcount⟩ := run_four_fault hready hdrained hlimit hfault
  obtain ⟨_, hended⟩ := onlyARunningStateTakesACycle s4 (by rw [run_cfg hrun4]; exact hready.1)
  obtain ⟨hstop, _⟩ := hended (by rw [hstatus]; exact nofun)
  exact ⟨s4, hrun4, hstatus, hregs, hmem, hcount, hstop⟩

end Sys2Proof.Machine
